-- ==== Sys2Proof/Word.lean ====
section
/-! DEFINITION. The word types of HUFFCORE: a byte (one symbol, 00_scope.md section 3) and a
32-bit CSR word (10_state.md section 2). -/

namespace Sys2Proof

/-- One byte of a buffer, and one symbol of the alphabet (00_scope.md section 3: "one byte value"). -/
abbrev Byte := BitVec 8

/-- One control/status register or command word (10_state.md section 2). -/
abbrev Word := BitVec 32

end Sys2Proof
end

