-- ==== Sys2Proof/Config.lean ====
section
/-! DEFINITION. What an implementation fixes (00_scope.md section 3: the parameters SRC_CAP and
DST_CAP), the sizes the spec fixes, and the free values of the model: constants without a body,
about which nothing can be proved. -/

namespace Sys2Proof

/-- The parameters the spec leaves open (00_scope.md section 3, D3). A state carries them in its
field `cfg`, which no step writes, so a claim about every state holds for every capacity. -/
structure Config where
  /-- SRC_CAP, the capacity of the source buffer in bytes. -/
  srcCap : Nat
  /-- DST_CAP, the capacity of the destination buffer in bytes. -/
  dstCap : Nat
deriving DecidableEq, Repr

namespace Config

/-- The constraint of 00_scope.md section 3: each capacity lies in 1 .. 2^64 - 1. -/
abbrev wf (c : Config) : Prop :=
  (1 ≤ c.srcCap ∧ c.srcCap < 2 ^ 64) ∧ (1 ≤ c.dstCap ∧ c.dstCap < 2 ^ 64)

/-- Free value: SRC_CAP - 1 of the machine that `State.reset` describes. DESIGN CHOICE, log 6. -/
opaque srcCapLessOne : Fin 18446744073709551615

/-- Free value: DST_CAP - 1 of the machine that `State.reset` describes. DESIGN CHOICE, log 6. -/
opaque dstCapLessOne : Fin 18446744073709551615

/-- The capacities at reset: any pair that meets `wf`, unknown to every proof. -/
def platform : Config := ⟨srcCapLessOne.val + 1, dstCapLessOne.val + 1⟩

/-- Free value: what SRC holds at an address the host has not written since the reset that began
this epoch (10_state.md R16, X5: any value, but stable). DESIGN CHOICE, log 4. -/
opaque srcPowerOn : (epoch : Nat) → (address : Nat) → Byte

/-- Free value: the byte of the n-th draw of a host read of DST outside the result
(20_memory.md R45, X1, X2: any value, two reads may differ). DESIGN CHOICE, log 5. -/
opaque dstDraw : (draw : Nat) → Byte

/-- NODE_MAX (00_scope.md section 3): 511 node slots. -/
abbrev nodeMax : Nat := 511

/-- CODE_MAX_LEN (00_scope.md section 3): the longest code, 255 bits. -/
abbrev codeMaxLen : Nat := 255

/-- SINGLE_CODE (00_scope.md section 3, D15): the code of a one-symbol alphabet, the bit 0. -/
abbrev singleCode : List Bool := [false]

end Config

end Sys2Proof
end

