-- ==== Sys2Proof/Syntax.lean ====
section
/-! DEFINITION. The instructions of HUFFCORE: the host's command words and the engine's phases, one
constructor per row of spec/opcode_table.json; and the two kinds of control word they are coded in. -/

namespace Sys2Proof

/-- The rows of the opcode table (30_encoding.md R67, R69, R71). -/
inductive Instr where
  /-- NOP, the all-zero command word (40_commands.md R91). -/
  | nop
  /-- COMPRESS (40_commands.md R95). -/
  | compress
  /-- DECOMPRESS (40_commands.md R97). -/
  | decompress
  /-- CLEAR (40_commands.md R99). -/
  | clear
  /-- Every other command word (40_commands.md R98), with the word itself. -/
  | illegal (word : Word)
  /-- Phase COUNT (43_freq_counter.md R130). -/
  | count
  /-- Phase BUILD (41_tree_builder.md R110). -/
  | build
  /-- Phase GENCODE (42_code_generator.md R120). -/
  | gencode
  /-- Phase FRAME (45_framer.md R145). -/
  | frame
  /-- Phase ENCODE (44_encoder.md R135). -/
  | encode
  /-- Phase PARSE (46_parser.md R155). -/
  | parse
  /-- Phase DECODE (47_decoder.md R170). -/
  | decode
deriving DecidableEq, Repr

/-- The values of the sequencer's PHASE register (10_state.md R19; codes 8 to 15 are never taken, so
they have no constructor). -/
inductive Phase where
  | idle | count | build | gencode | frame | encode | parse | decode
deriving DecidableEq, Repr

/-- What HUFFCORE decodes: the 32-bit word written to `csr[CMD]` (30_encoding.md R66) or the 4-bit
code in the PHASE register (R69). -/
inductive ControlWord where
  | command (word : Word)
  | phase (code : BitVec 4)
deriving DecidableEq, Repr

/-- Why a control word is no instruction. -/
inductive DecodeReject where
  /-- Phase code 0 is IDLE: no phase runs; the engine dispatches the latched command (R92). -/
  | idlePhase
  /-- Phase codes 8 to 15 are never taken (R69). -/
  | noSuchPhase (code : BitVec 4)
deriving DecidableEq, Repr

end Sys2Proof
end

