-- ==== Sys2Proof/WellFormed.lean ====
section
/-! DEFINITION. The check on instructions: the operand of ILLEGAL is a word that no other row of the
opcode table claims (30_encoding.md R67, R71). No other instruction has an operand. -/

namespace Sys2Proof

/-- 30_encoding.md R67 and R71: an illegal command word is none of 0x00000000 to 0x00000003. -/
def Instr.wellFormed : Instr → Bool
  | .nop => true
  | .compress => true
  | .decompress => true
  | .clear => true
  | .illegal w => decide (4 ≤ w.toNat)
  | .count => true
  | .build => true
  | .gencode => true
  | .frame => true
  | .encode => true
  | .parse => true
  | .decode => true

end Sys2Proof
end

