-- ==== Sys2Proof/Decode.lean ====
section
/-! DEFINITION. Decoding of the command word (30_encoding.md R66, R67, R71) and of the phase code
(R69), total on every bit pattern; and after it the encoder, from the same tables. -/

namespace Sys2Proof

/-- OPC, bits 7:0 of a command word (R66). -/
def opcField (w : Word) : BitVec 8 := w.extractLsb' 0 8

/-- RSV, bits 31:8 of a command word (R66). -/
def rsvField (w : Word) : BitVec 24 := w.extractLsb' 8 24

/-- The opcode map R67; every word outside it, by opcode or by a set reserved bit, is ILLEGAL (R71). -/
def decodeCommand (w : Word) : Instr :=
  if rsvField w = 0 then
    match (opcField w).toNat with
    | 0x00 => .nop
    | 0x01 => .compress
    | 0x02 => .decompress
    | 0x03 => .clear
    | _ => .illegal w
  else .illegal w

/-- The 4-bit phase codes of R69. -/
def Phase.code : Phase → BitVec 4
  | .idle => 0b0000#4
  | .count => 0b0001#4
  | .build => 0b0010#4
  | .gencode => 0b0011#4
  | .frame => 0b0100#4
  | .encode => 0b0101#4
  | .parse => 0b0110#4
  | .decode => 0b0111#4

/-- The phase with a given code; codes 8 to 15 have none (R69). -/
def Phase.ofCode (c : BitVec 4) : Option Phase :=
  match c.toNat with
  | 0 => some .idle
  | 1 => some .count
  | 2 => some .build
  | 3 => some .gencode
  | 4 => some .frame
  | 5 => some .encode
  | 6 => some .parse
  | 7 => some .decode
  | _ => none

/-- The instruction a phase code selects (R69). -/
def decodePhase (c : BitVec 4) : Except DecodeReject Instr :=
  match Phase.ofCode c with
  | some .idle => .error .idlePhase
  | some .count => .ok .count
  | some .build => .ok .build
  | some .gencode => .ok .gencode
  | some .frame => .ok .frame
  | some .encode => .ok .encode
  | some .parse => .ok .parse
  | some .decode => .ok .decode
  | none => .error (.noSuchPhase c)

/-- The whole decoder. -/
def decode : ControlWord → Except DecodeReject Instr
  | .command w => .ok (decodeCommand w)
  | .phase c => decodePhase c

/-- The encoder: R67 for the commands, R69 for the phases. -/
def encode : Instr → ControlWord
  | .nop => .command 0x00000000#32
  | .compress => .command 0x00000001#32
  | .decompress => .command 0x00000002#32
  | .clear => .command 0x00000003#32
  | .illegal w => .command w
  | .count => .phase (Phase.code .count)
  | .build => .phase (Phase.code .build)
  | .gencode => .phase (Phase.code .gencode)
  | .frame => .phase (Phase.code .frame)
  | .encode => .phase (Phase.code .encode)
  | .parse => .phase (Phase.code .parse)
  | .decode => .phase (Phase.code .decode)

/-- The control word that `nbits` bits `w` of the opcode table stand for. The table's command rows
have 32 bits and its phase rows 4 (one byte); a value that does not fit has no control word. Log 11. -/
def tableControlWord (nbits w : Nat) : Option ControlWord :=
  if nbits ≤ 8 then
    if w < 16 then some (.phase (BitVec.ofNat 4 w)) else none
  else if w < 2 ^ 32 then some (.command (BitVec.ofNat 32 w)) else none

/-- The instruction the decoder reads from a row of the opcode table. -/
def decodeTableWord (nbits w : Nat) : Option Instr :=
  match tableControlWord nbits w with
  | none => none
  | some cw =>
    match decode cw with
    | .ok i => some i
    | .error _ => none

end Sys2Proof
end

