-- ==== Sys2Proof/Machine/State.lean ====
section
/-! DEFINITION. The state of HUFFCORE as plain data (10_state.md), the reasons a step can stop, and
the state right after reset (10_state.md R30, 70_reset_and_hazards.md R210). -/

namespace Sys2Proof.Machine

/-- The error kinds of 60_exceptions.md R186. Kinds 2 and 3 are reserved for host software: no rule
raises them. Kind 0, "no error", is `none` in the field `err`. -/
inductive ErrorKind where
  | emptyInput | unreadableFile | unwritableOutput | malformedContainer | sizeMismatch
  | freqOverflow | dstOverflow | badLength | illegalCommand
deriving DecidableEq, Repr

/-- A slot of the node arena NODE (10_state.md R24). Weight and indices are natural numbers (log 15). -/
structure Node where
  weight : Nat
  isLeaf : Bool
  sym : Byte
  left : Nat
  right : Nat
deriving DecidableEq, Repr

/-- An entry of the code table CODE (10_state.md R26): `len = 0` means no code; bit 0 of the sequence
is the edge at the root. Log 19. -/
structure Code where
  len : BitVec 8
  bits : List Bool
deriving DecidableEq, Repr

/-- The cleared slot of 40_commands.md R93. -/
def Node.zero : Node := ⟨0, false, 0, 0, 0⟩

/-- The cleared entry of 40_commands.md R93. -/
def Code.empty : Code := ⟨0, []⟩

/-- The engine's transient state (10_state.md R20, R21, R23 to R29): everything the prologue R93
clears. Cursors, counters and indices are natural numbers, as R20 and D4 allow (log 15). -/
structure Transient where
  /-- RPTR, address in SRC of the next byte to read (R20). -/
  rptr : Nat
  /-- WPTR, address in DST of the next byte to write (R20). -/
  wptr : Nat
  /-- BITPOS, index of the next payload bit (R20). -/
  bitpos : Nat
  /-- CUR, the decoder's walk position (R20). -/
  cur : Nat
  /-- TREE_VALID (R21). -/
  treeValid : Bool
  /-- ORIG_COUNT (R28). -/
  origCount : BitVec 64
  /-- TABLE_N (R28). -/
  tableN : BitVec 16
  /-- NSYM (R28). -/
  nsym : Nat
  /-- NEXT, the next free node slot (R28). -/
  nextFree : Nat
  /-- ROOT (R28). -/
  root : Nat
  /-- PAY_BASE (R28). -/
  payBase : Nat
  /-- PAY_LEN (R28). -/
  payLen : Nat
  /-- LIMIT (R28). -/
  limit : Nat
  /-- EMITTED (R28). -/
  emitted : Nat
  /-- TOTAL_BITS (R28). -/
  totalBits : Nat
  /-- ACC, the packer's byte (R27). -/
  acc : BitVec 8
  /-- ACC_N, the bits collected in ACC (R27). -/
  accN : Nat
  /-- FREQ[0..255] (R23). -/
  freq : Vector (BitVec 32) 256
  /-- NODE[0..510] (R24). -/
  node : Vector Node 511
  /-- INQ[0..510] (R25). -/
  inq : Vector Bool 511
  /-- CODE[0..255] (R26). -/
  code : Vector Code 256
deriving DecidableEq, Repr

/-- All transient state at zero, as the prologue R93 leaves it. -/
def Transient.zero : Transient where
  rptr := 0
  wptr := 0
  bitpos := 0
  cur := 0
  treeValid := false
  origCount := 0
  tableN := 0
  nsym := 0
  nextFree := 0
  root := 0
  payBase := 0
  payLen := 0
  limit := 0
  emitted := 0
  totalBits := 0
  acc := 0
  accN := 0
  freq := Vector.replicate 256 0
  node := Vector.replicate 511 Node.zero
  inq := Vector.replicate 511 false
  code := Vector.replicate 256 Code.empty

/-- A byte buffer: the bytes written since reset, by strictly rising address. An address not listed
has not been written (log 4). -/
abbrev Memory := List Host.Cell

/-- The canonical form: strictly rising addresses, so equal contents are equal lists. No listed byte
equals what an unlisted address holds, since that is no value at all. -/
abbrev Memory.wf (m : Memory) : Prop := m.Pairwise (fun c d => c.1 < d.1)

/-- The five host primitives (20_memory.md R41 to R45). -/
inductive HostOp where
  | writeCsr (n : Nat) (v : Word)
  | readCsr (n : Nat)
  | writeSrc (a : Nat) (b : Byte)
  | readSrc (a : Nat)
  | readDst (a : Nat)
deriving DecidableEq, Repr

/-- What the host does next (30_encoding.md R73, R74). `rdstLen` and `loadFetched` are the host's own
work between primitives in `fetch` and `copyback`. Log 18. -/
inductive ScriptItem where
  /-- One primitive. -/
  | op (o : HostOp)
  /-- `HostReadCSR(1)`, repeated until bit 0 of the value is 0. -/
  | poll
  /-- `rdst 0, n` with n the result of the `rlen` just done. -/
  | rdstLen
  /-- `load B` with B the bytes of the `rdst` just done. -/
  | loadFetched
deriving DecidableEq, Repr

/-- What a host read returned. -/
inductive Observation where
  | csr (n : Nat) (v : Word)
  | src (a : Nat) (b : Byte)
  | dst (a : Nat) (b : Byte)
deriving DecidableEq, Repr

/-- Who moves: the two agents of 00_scope.md section 5, and the reset input of R210. Log 2, log 9. -/
inductive Turn where
  | host | engine | reset
deriving DecidableEq, Repr

/-- The whole state of HUFFCORE (10_state.md R10), with the configuration it runs under and the
host that drives it. -/
structure State where
  /-- SRC_CAP and DST_CAP; no step writes them (log 6). -/
  cfg : Config
  /-- CSR 2 (R13). -/
  srcLenLo : Word
  /-- CSR 3 (R13). -/
  srcLenHi : Word
  /-- CSR 4 (R14). -/
  dstLenLo : Word
  /-- CSR 5 (R14). -/
  dstLenHi : Word
  /-- SRC (R16). -/
  src : Memory
  /-- DST (R17). -/
  dst : Memory
  /-- CMD_LATCH (R18). -/
  cmdLatch : Word
  /-- PHASE (R19). -/
  phase : Phase
  /-- BUSY (R12, R21). -/
  busy : Bool
  /-- DONE (R12, R21). -/
  done : Bool
  /-- FAIL (R12, R21). -/
  fail : Bool
  /-- ERR (R12, R28); `none` is code 0. -/
  err : Option ErrorKind
  /-- The transient state (R29). -/
  tr : Transient
  /-- Number of resets so far, which selects SRC's free contents (log 4). -/
  epoch : Nat
  /-- Number of DST draws so far, which selects the next free byte (log 5). -/
  draws : Nat
  /-- The host's pending actions (log 18). -/
  script : List ScriptItem
  /-- What the host's reads returned, newest first (log 18). -/
  seen : List Observation
  /-- The turns still to come (log 2). -/
  sched : List Turn
deriving DecidableEq, Repr

/-- Faults. Each is met only in states that no run reaches; stopping there is safe. -/
inductive Fault where
  /-- Raised by a phase that the latched command's path does not hold (R19, R95, R97). Safe, log 12. -/
  | offPath
  /-- Raised by BUILD, GENCODE and DECODE when the queue or the arena is not what the prologue and
  BUILD leave: a link outside the arena, a cycle or a path of more than 255 edges, no free slot,
  an empty queue. Safe, log 13. -/
  | arenaCorrupt
  /-- Raised by an engine read of SRC at or above SRC_CAP (20_memory.md R40, R55). Safe, log 14. -/
  | noSuchSrcAddress
  /-- Raised by an engine write of DST at or above DST_CAP (20_memory.md R40, R55). Safe, log 14. -/
  | noSuchDstAddress
deriving DecidableEq, Repr

/-- Refusals. -/
inductive Refusal where
  /-- Raised by `exec` for an instruction without a meaning; no arm does so. Safe. -/
  | notModelled (mnemonic : String)
  /-- Raised by a host access to SRC at or above SRC_CAP (20_memory.md R43, R44). Safe. -/
  | noSuchSrcByte (a : Nat)
  /-- Raised by a host access to DST at or above DST_CAP (20_memory.md R45). Safe. -/
  | noSuchDstByte (a : Nat)
deriving DecidableEq, Repr

/-- The state right after reset (R30, R210). The transient state, which the spec leaves unspecified,
is zero (log 8); the capacities are the free constants of Config (log 6); the host has nothing to
do yet (log 10). -/
def State.reset : State where
  cfg := Config.platform
  srcLenLo := 0
  srcLenHi := 0
  dstLenLo := 0
  dstLenHi := 0
  src := []
  dst := []
  cmdLatch := 0
  phase := .idle
  busy := false
  done := false
  fail := false
  err := none
  tr := Transient.zero
  epoch := 0
  draws := 0
  script := []
  seen := []
  sched := []

end Sys2Proof.Machine
end

