-- ==== Sys2Proof/Machine/Flags.lean ====
section
/-! DEFINITION. The flags of HUFFCORE (10_state.md R12, R21): the error codes, the STATUS word, and
the derived predicate RootIsLeaf. -/

namespace Sys2Proof.Machine

/-- The 4-bit error codes of 60_exceptions.md R186. -/
def ErrorKind.code : ErrorKind → BitVec 4
  | .emptyInput => 1#4
  | .unreadableFile => 2#4
  | .unwritableOutput => 3#4
  | .malformedContainer => 4#4
  | .sizeMismatch => 5#4
  | .freqOverflow => 6#4
  | .dstOverflow => 7#4
  | .badLength => 8#4
  | .illegalCommand => 9#4

/-- The ERR field: 0 for no error (R186). -/
def errField : Option ErrorKind → BitVec 4
  | none => 0#4
  | some k => k.code

/-- The word read from `csr[STATUS]` (10_state.md R12, 30_encoding.md R68): bits 31:12 zero, PHASE in
11:8, ERR in 7:4, bit 3 zero, FAIL in 2, DONE in 1, BUSY in 0. -/
def State.statusWord (s : State) : Word :=
  0#20 ++ s.phase.code ++ errField s.err ++ 0#1
    ++ BitVec.ofBool s.fail ++ BitVec.ofBool s.done ++ BitVec.ofBool s.busy

/-- RootIsLeaf (R21): a tree exists and its root is a leaf. -/
def Transient.rootIsLeaf (t : Transient) : Bool :=
  t.treeValid && (t.node[t.root]?).any (fun n => n.isLeaf)

end Sys2Proof.Machine
end

