-- ==== Sys2Proof/Machine/Operands.lean ====
section
/-! DEFINITION. How HUFFCORE forms values and addresses: little-endian fields (20_memory.md R46, R48,
30_encoding.md R65), the 64-bit register pairs (10_state.md R13, R14), the engine's addressing modes
(20_memory.md R56) and the indexed arrays (10_state.md R23 to R26). -/

namespace Sys2Proof.Machine

/-- `ceil8(t)` of 00_scope.md section 4. -/
def ceil8 (t : Nat) : Nat := (t + 7) / 8

/-- `le_k` of 00_scope.md section 4: the byte at the lowest address is the least significant. -/
def leNat : List Byte → Nat
  | [] => 0
  | b :: bs => b.toNat + 256 * leNat bs

/-- The k low-order bytes of v, least significant first (`MemWrite` of 00_scope.md section 4). -/
def leBytes : (k : Nat) → (v : Nat) → List Byte
  | 0, _ => []
  | k + 1, v => BitVec.ofNat 8 v :: leBytes k (v / 256)

/-- A 64-bit quantity held in two CSRs (10_state.md section 2): `_HI` holds bits 63:32. -/
def pairNat (hi lo : Word) : Nat := hi.toNat * 2 ^ 32 + lo.toNat

/-- The `_LO` half of a 64-bit quantity. -/
def loHalf (n : Nat) : Word := BitVec.ofNat 32 n

/-- The `_HI` half of a 64-bit quantity. -/
def hiHalf (n : Nat) : Word := BitVec.ofNat 32 (n / 2 ^ 32)

/-- SRC_LEN (R13). -/
def State.srcLen (s : State) : Nat := pairNat s.srcLenHi s.srcLenLo

/-- DST_LEN (R14). -/
def State.dstLen (s : State) : Nat := pairNat s.dstLenHi s.dstLenLo

/-! ### Addresses (R56) -/

/-- Size of the container's fixed header, and so the address of the table (30_encoding.md R61). -/
abbrev headerLen : Nat := 10

/-- Address of the symbol byte of table entry k (R56, indexed). -/
def entrySymAddr (k : Nat) : Nat := 10 + 5 * k

/-- Address of the frequency of table entry k (R56, indexed). -/
def entryFreqAddr (k : Nat) : Nat := 11 + 5 * k

/-- Address of the byte that holds payload bit i of a payload that starts at `base` (R56, bit-indexed). -/
def payloadByteAddr (base i : Nat) : Nat := base + i / 8

/-- Integer bit position of payload bit i in its byte (R56, R63): most significant first. -/
def payloadBitPos (i : Nat) : Nat := 7 - i % 8

/-! ### Arrays -/

/-- The symbols 0, 1, ..., 255 in ascending order (00_scope.md section 4). -/
def allSymbols : List Byte := (List.range 256).map (BitVec.ofNat 8)

/-- `FREQ[s]` (R23). -/
def Transient.freqAt (t : Transient) (s : Byte) : BitVec 32 := t.freq[s.toNat]'s.isLt

/-- `FREQ[s] <- v`. -/
def Transient.setFreq (t : Transient) (s : Byte) (v : BitVec 32) : Transient :=
  { t with freq := t.freq.set s.toNat v s.isLt }

/-- `CODE[s]` (R26). -/
def Transient.codeAt (t : Transient) (s : Byte) : Code := t.code[s.toNat]'s.isLt

/-- `CODE[s] <- { len = len(p), bits = p }` (42_code_generator.md R121). -/
def Transient.setCode (t : Transient) (s : Byte) (p : List Bool) : Transient :=
  { t with code := t.code.set s.toNat ⟨BitVec.ofNat 8 p.length, p⟩ s.isLt }

/-- `NODE[i]` (R24); there is no slot above 510. -/
def Transient.nodeAt (t : Transient) (i : Nat) : Option Node := t.node[i]?

/-- `NODE[i] <- v`, for a slot that exists. -/
def Transient.setNode (t : Transient) (i : Nat) (v : Node) : Transient :=
  { t with node := t.node.setIfInBounds i v }

/-- `INQ[i]` (R25); an index that is no slot is in no queue. -/
def Transient.inqAt (t : Transient) (i : Nat) : Bool := t.inq[i]? == some true

/-- `INQ[i] <- v`, for a slot that exists. -/
def Transient.setInq (t : Transient) (i : Nat) (v : Bool) : Transient :=
  { t with inq := t.inq.setIfInBounds i v }

/-- The entries of the frequency table: the symbols with `FREQ[s] ≠ 0` and their frequencies, in
ascending symbol order (R23). -/
def Transient.entries (t : Transient) : List (Byte × BitVec 32) :=
  (allSymbols.zip t.freq.toList).filter fun e => e.2 != 0

/-- The number of symbols with `FREQ[s] ≠ 0` (R28, 43_freq_counter.md R132). -/
def Transient.alphabetSize (t : Transient) : Nat := t.entries.length

/-- T, the number of code bits of the whole input (45_framer.md R146): exact. A symbol with
`FREQ[s] = 0` adds nothing to the sum. -/
def Transient.codeBits (t : Transient) : Nat :=
  (t.entries.map fun e => e.2.toNat * (t.codeAt e.1).len.toNat).sum

end Sys2Proof.Machine
end

