-- ==== Sys2Proof/Machine/Ops.lean ====
section
/-! DEFINITION. The shared operations: the two buffers (20_memory.md R40 to R48), acceptance and the
prologue (40_commands.md R90, R93), taking an error (60_exceptions.md R196), the success epilogue
(R96), and the sequencer's transfer from phase to phase (R95, R97, R100). -/

namespace Sys2Proof.Machine

/-! ### Buffers -/

/-- The byte written last at an address, if any. -/
def Memory.lookup (a : Nat) : Memory → Option Byte
  | [] => none
  | c :: m => if a = c.1 then some c.2 else Memory.lookup a m

/-- Write one byte, keeping the addresses rising. -/
def Memory.store (a : Nat) (b : Byte) : Memory → Memory
  | [] => [(a, b)]
  | c :: m =>
    if a < c.1 then (a, b) :: c :: m
    else if a = c.1 then (a, b) :: m
    else c :: Memory.store a b m

/-- The byte SRC holds at an address: what the host wrote, or else the free contents of this epoch
(R16, X5; log 4). -/
def State.srcByte (s : State) (a : Nat) : Byte :=
  (s.src.lookup a).getD (Config.srcPowerOn s.epoch a)

/-- `MemRead(SRC, a, 1)`; there is no byte at or above SRC_CAP (R40). -/
def State.readSrc (s : State) (a : Nat) : Option Byte :=
  if a < s.cfg.srcCap then some (s.srcByte a) else none

/-- The k bytes of SRC from a upwards, one read each (R48). -/
def State.readSrcBytes (s : State) (a : Nat) : (k : Nat) → Option (List Byte)
  | 0 => some []
  | k + 1 => do
    let b ← s.readSrc a
    let bs ← State.readSrcBytes s (a + 1) k
    pure (b :: bs)

/-- `MemRead(SRC, a, k)` (00_scope.md section 4, R46, R48). -/
def State.readSrcLe (s : State) (a k : Nat) : Option Nat := (s.readSrcBytes a k).map leNat

/-- `PayloadBit(base, i)` (00_scope.md section 4). -/
def State.payloadBit (s : State) (base i : Nat) : Option Bool :=
  (s.readSrc (payloadByteAddr base i)).map (fun b => b.getLsbD (payloadBitPos i))

/-! ### The course of a phase -/

/-- How a piece of a phase ends: it goes on, it raises an error (00_scope.md section 4), or it is
stuck in a way no run can meet. -/
inductive Run where
  | ok (s : State)
  | raised (k : ErrorKind) (s : State)
  | stuck (f : Fault)
deriving DecidableEq, Repr

/-- One piece after another: nothing after a `raise` executes (00_scope.md section 4). -/
def Run.andThen (r : Run) (f : State → Run) : Run :=
  match r with
  | .ok s => f s
  | .raised k s => .raised k s
  | .stuck e => .stuck e

/-- Change the transient state only. -/
def State.withTr (s : State) (f : Transient → Transient) : State := { s with tr := f s.tr }

/-- Go on with a byte of SRC. -/
def State.withSrc (s : State) (a : Nat) (f : Byte → Run) : Run :=
  match s.readSrc a with
  | some b => f b
  | none => .stuck .noSuchSrcAddress

/-- Go on with a k-byte field of SRC. -/
def State.withSrcLe (s : State) (a k : Nat) (f : Nat → Run) : Run :=
  match s.readSrcLe a k with
  | some v => f v
  | none => .stuck .noSuchSrcAddress

/-- `MemWrite(DST, a, 1, b)`; there is no byte at or above DST_CAP (R40). -/
def State.writeDst (s : State) (a : Nat) (b : Byte) : Run :=
  if a < s.cfg.dstCap then .ok { s with dst := s.dst.store a b } else .stuck .noSuchDstAddress

/-- Bytes to DST from a upwards, one write each (R48). -/
def State.writeDstBytes (s : State) (a : Nat) : List Byte → Run
  | [] => .ok s
  | b :: bs => (s.writeDst a b).andThen fun s' => State.writeDstBytes s' (a + 1) bs

/-- `MemWrite(DST, a, k, v)` (00_scope.md section 4, R46, R48). -/
def State.writeDstLe (s : State) (a k v : Nat) : Run := s.writeDstBytes a (leBytes k v)

/-- One byte to DST at WPTR, which then moves on by one (R56, stream with post-increment). -/
def State.emitByte (s : State) (b : Byte) : Run :=
  (s.writeDst s.tr.wptr b).andThen fun s' =>
    .ok (s'.withTr fun t => { t with wptr := t.wptr + 1 })

/-! ### Command flow -/

/-- `DST_LEN <- n`, both halves (R14). -/
def State.setDstLen (s : State) (n : Nat) : State :=
  { s with dstLenLo := loHalf n, dstLenHi := hiHalf n }

/-- Acceptance of a command word other than NOP (40_commands.md R90). -/
def State.accept (s : State) (v : Word) : State :=
  { s with
    cmdLatch := v, busy := true, done := false, fail := false, err := none, phase := .idle
    dstLenLo := 0, dstLenHi := 0 }

/-- The prologue (R93): all transient state to zero; nothing the host can see changes. -/
def State.prologue (s : State) : State := { s with tr := Transient.zero }

/-- Taking an error, the failure epilogue (60_exceptions.md R196). -/
def State.raise (s : State) (k : ErrorKind) : State :=
  { s with
    dstLenLo := 0, dstLenHi := 0, err := some k, phase := .idle, fail := true, done := true
    busy := false }

/-- The success epilogue with length n (R96). -/
def State.succeed (s : State) (n : Nat) : State :=
  { s with
    dstLenLo := loHalf n, dstLenHi := hiHalf n, phase := .idle, err := none, fail := false
    done := true, busy := false }

/-- The phases of a latched command in order (R95, R97); other words have none. -/
def phasePath (latch : Word) : List Phase :=
  match latch.toNat with
  | 1 => [.count, .build, .gencode, .frame, .encode]
  | 2 => [.parse, .build, .decode]
  | _ => []

/-- What follows phase p on a path: nothing if p is not on it, `some none` if p is its last phase. -/
def phaseAfter (p : Phase) : List Phase → Option (Option Phase)
  | [] => none
  | q :: path => if q = p then some path.head? else phaseAfter p path

/-- Run the body of phase p and transfer control: to the next phase of the latched command's path, to
the success epilogue with length WPTR after the last, to the failure epilogue on a `raise` (R95,
R97, R100). A phase off the path does not run (log 12). -/
def State.runPhase (s : State) (p : Phase) (body : State → Run) :
    Host.Outcome State Fault Refusal :=
  match phaseAfter p (phasePath s.cmdLatch) with
  | none => .fault .offPath
  | some after =>
    match body s with
    | .stuck f => .fault f
    | .raised k s' => .next (s'.raise k)
    | .ok s' =>
      match after with
      | some q => .next { s' with phase := q }
      | none => .next (s'.succeed s'.tr.wptr)

end Sys2Proof.Machine
end

