-- ==== Sys2Proof/Machine/CodeGenerator.lean ====
section
/-! DEFINITION. The code-table generator, phase GENCODE (42_code_generator.md). It touches no buffer
and no CSR (R120). -/

namespace Sys2Proof.Machine

/-- `Assign(i, p)` (R121), with at most `fuel` nodes still allowed on the path: the greatest depth is
255 (R124), so 256 nodes. A longer path or a link out of the arena is no tree (log 13). -/
def assignCodes : (fuel : Nat) → (i : Nat) → (p : List Bool) → Transient → Option Transient
  | 0, _, _, _ => none
  | fuel + 1, i, p, t =>
    match t.nodeAt i with
    | none => none
    | some n =>
      if n.isLeaf then some (t.setCode n.sym p)
      else
        (assignCodes fuel n.left (p ++ [false]) t).bind
          (assignCodes fuel n.right (p ++ [true]))

/-- GENCODE (R120): nothing without a tree (R125), the one-bit code for a lone leaf (R122), the path
codes otherwise (R121). -/
def generateCodes (t : Transient) : Option Transient :=
  if t.treeValid then
    match t.nodeAt t.root with
    | none => none
    | some r =>
      if r.isLeaf then some (t.setCode r.sym Config.singleCode)
      else assignCodes (Config.codeMaxLen + 1) t.root [] t
  else some t

/-- The body of GENCODE. -/
def gencodeBody (s : State) : Run :=
  match generateCodes s.tr with
  | none => .stuck .arenaCorrupt
  | some t => .ok { s with tr := t }

/-- The phase GENCODE. -/
def execGencode (s : State) : Host.Outcome State Fault Refusal := s.runPhase .gencode gencodeBody

end Sys2Proof.Machine
end

