-- ==== Sys2Proof/Machine/Commands.lean ====
section
/-! DEFINITION. The engine's part of the host commands: dispatch of COMPRESS, DECOMPRESS, CLEAR and
the illegal words (40_commands.md R92 to R99), and NOP (R91). -/

namespace Sys2Proof.Machine

/-- NOP (R91): no state changes. -/
def execNop (s : State) : Host.Outcome State Fault Refusal := .next s

/-- Dispatch of COMPRESS (R92, R95): the prologue, the length check R94, the empty-input test R187,
and transfer to COUNT. -/
def execCompress (s : State) : Host.Outcome State Fault Refusal :=
  let s := s.prologue
  if s.cfg.srcCap < s.srcLen then .next (s.raise .badLength)
  else if s.srcLen = 0 then .next (s.raise .emptyInput)
  else .next { s with phase := .count }

/-- Dispatch of DECOMPRESS (R92, R97): the prologue, the length check R94, and transfer to PARSE. -/
def execDecompress (s : State) : Host.Outcome State Fault Refusal :=
  let s := s.prologue
  if s.cfg.srcCap < s.srcLen then .next (s.raise .badLength)
  else .next { s with phase := .parse }

/-- CLEAR (R99): every CSR and all transient state back to the reset values; the bytes of SRC and DST
stay. -/
def execClear (s : State) : Host.Outcome State Fault Refusal :=
  .next { s.prologue with
    srcLenLo := 0, srcLenHi := 0, dstLenLo := 0, dstLenHi := 0, cmdLatch := 0, phase := .idle
    err := none, fail := false, done := false, busy := false }

/-- An illegal command word (R92, R98): the prologue, then `raise IllegalCommand`. The word itself is
not examined further and not recorded (R185). -/
def execIllegal (_word : Word) (s : State) : Host.Outcome State Fault Refusal :=
  .next (s.prologue.raise .illegalCommand)

end Sys2Proof.Machine
end

