-- ==== Sys2Proof/Machine/Counter.lean ====
section
/-! DEFINITION. The frequency counter, phase COUNT (43_freq_counter.md). -/

namespace Sys2Proof.Machine

/-- `Increment(s)` (R131): a count that would not fit in 32 bits raises FreqOverflow. -/
def State.increment (s : State) (b : Byte) : Run :=
  if s.tr.freqAt b = 0xFFFFFFFF#32 then .raised .freqOverflow s
  else .ok (s.withTr fun t => t.setFreq b (t.freqAt b + 1))

/-- The loop of R130 with n bytes still to count. -/
def countLoop : (n : Nat) → State → Run
  | 0, s => .ok s
  | n + 1, s =>
    s.withSrc s.tr.rptr fun b =>
      (s.increment b).andThen fun s =>
        countLoop n (s.withTr fun t => { t with rptr := t.rptr + 1 })

/-- COUNT (R130, R132). -/
def countBody (s : State) : Run :=
  (countLoop s.srcLen (s.withTr fun t => { t with rptr := 0 })).andThen fun s =>
    .ok (s.withTr fun t => { t with nsym := t.alphabetSize })

/-- The phase COUNT. -/
def execCount (s : State) : Host.Outcome State Fault Refusal := s.runPhase .count countBody

end Sys2Proof.Machine
end

