-- ==== Sys2Proof/Machine/Decoder.lean ====
section
/-! DEFINITION. The tree-walk decoder, phase DECODE (47_decoder.md). -/

namespace Sys2Proof.Machine

/-- Emit a symbol: to DST at WPTR, and count it (R172, R173). -/
def emitSymbol (s : State) (sym : Byte) : Run :=
  (s.emitByte sym).andThen fun s => .ok (s.withTr fun t => { t with emitted := t.emitted + 1 })

/-- `Step(b)` when the root is a leaf (R173): one symbol, whatever the bit. -/
def stepLeafRoot (s : State) : Run :=
  match s.tr.nodeAt s.tr.root with
  | none => .stuck .arenaCorrupt
  | some n => emitSymbol s n.sym

/-- The child of CUR that bit b selects (R172). -/
def Transient.childOf (t : Transient) (b : Bool) : Option Nat :=
  (t.nodeAt t.cur).map fun n => if b then n.right else n.left

/-- `Step(b)` for an internal root (R172): one edge, and at a leaf its symbol and back to the root. -/
def stepWalk (s : State) (b : Bool) : Run :=
  match s.tr.childOf b with
  | none => .stuck .arenaCorrupt
  | some c =>
    let s := s.withTr fun t => { t with cur := c }
    match s.tr.nodeAt c with
    | none => .stuck .arenaCorrupt
    | some n =>
      if n.isLeaf then
        (emitSymbol s n.sym).andThen fun s => .ok (s.withTr fun t => { t with cur := t.root })
      else .ok s

/-- `Step(b)`. -/
def stepBit (s : State) (b : Bool) : Run :=
  if s.tr.rootIsLeaf then stepLeafRoot s else stepWalk s b

/-- The loop of R170 with n bits still under the limit. -/
def decodeLoop : (n : Nat) → State → Run
  | 0, s => .ok s
  | n + 1, s =>
    if s.tr.emitted < s.tr.origCount.toNat then
      match s.payloadBit s.tr.payBase s.tr.bitpos with
      | none => .stuck .noSuchSrcAddress
      | some b =>
        (stepBit (s.withTr fun t => { t with bitpos := t.bitpos + 1 }) b).andThen (decodeLoop n)
    else .ok s

/-- The bit limit (R171). -/
def bitLimit (payLen count : Nat) : Nat := min (8 * payLen) (8 * count)

/-- The registers DECODE sets before its loop (R170). -/
def decodeInit (s : State) : State :=
  s.withTr fun t =>
    { t with
      limit := bitLimit t.payLen t.origCount.toNat, bitpos := 0, emitted := 0, wptr := 0
      cur := t.root }

/-- DECODE (R170): the loop, then the count check R174. -/
def decodeBody (s : State) : Run :=
  let s := decodeInit s
  (decodeLoop s.tr.limit s).andThen fun s =>
    if s.tr.emitted ≠ s.tr.origCount.toNat then .raised .sizeMismatch s else .ok s

/-- The phase DECODE. -/
def execDecode (s : State) : Host.Outcome State Fault Refusal := s.runPhase .decode decodeBody

end Sys2Proof.Machine
end

