-- ==== Sys2Proof/Machine/Encoder.lean ====
section
/-! DEFINITION. The bit-serial encoder, phase ENCODE (44_encoder.md). -/

namespace Sys2Proof.Machine

/-- The packer's byte after one more bit (R137): `((ACC << 1) | b) & 0xFF`. -/
def shiftIn (acc : BitVec 8) (b : Bool) : BitVec 8 :=
  (acc <<< 1) ||| (BitVec.ofBool b).setWidth 8

/-- `PushBit(b)` (R137). -/
def pushBit (s : State) (b : Bool) : Run :=
  let s := s.withTr fun t => { t with acc := shiftIn t.acc b, accN := t.accN + 1 }
  if s.tr.accN = 8 then
    (s.emitByte s.tr.acc).andThen fun s => .ok (s.withTr fun t => { t with acc := 0, accN := 0 })
  else .ok s

/-- Bits to the packer in order, index 0 first (R136). -/
def pushBits : List Bool → State → Run
  | [], s => .ok s
  | b :: bs, s => (pushBit s b).andThen (pushBits bs)

/-- `EmitCode(s)` (R136): bits 0 .. len - 1 of the symbol's code. -/
def emitCode (s : State) (sym : Byte) : Run :=
  pushBits ((s.tr.codeAt sym).bits.take (s.tr.codeAt sym).len.toNat) s

/-- `Flush()` (R138): the collected bits to the top of the last byte, zero bits below. -/
def flush (s : State) : Run :=
  if s.tr.accN = 0 then .ok s
  else
    (s.emitByte (s.tr.acc <<< (8 - s.tr.accN))).andThen fun s =>
      .ok (s.withTr fun t => { t with acc := 0, accN := 0 })

/-- The loop of R135 with n bytes still to encode. -/
def encodeLoop : (n : Nat) → State → Run
  | 0, s => .ok s
  | n + 1, s =>
    s.withSrc s.tr.rptr fun b =>
      (emitCode s b).andThen fun s =>
        encodeLoop n (s.withTr fun t => { t with rptr := t.rptr + 1 })

/-- ENCODE (R135). -/
def encodeBody (s : State) : Run :=
  (encodeLoop s.srcLen (s.withTr fun t => { t with rptr := 0, acc := 0, accN := 0 })).andThen flush

/-- The phase ENCODE. -/
def execEncode (s : State) : Host.Outcome State Fault Refusal := s.runPhase .encode encodeBody

end Sys2Proof.Machine
end

