-- ==== Sys2Proof/Machine/Framer.lean ====
section
/-! DEFINITION. The container framer, phase FRAME (45_framer.md). -/

namespace Sys2Proof.Machine

/-- The size of the container (R146). -/
def containerSize (nsym bits : Nat) : Nat := 10 + 5 * nsym + ceil8 bits

/-- The header (R147): SRC_LEN in 8 bytes, NSYM in 2. -/
def writeHeader (s : State) : Run :=
  (s.writeDstLe 0 8 s.srcLen).andThen fun s =>
    (s.writeDstLe 8 2 s.tr.nsym).andThen fun s =>
      .ok (s.withTr fun t => { t with wptr := headerLen })

/-- One table entry (R148): the symbol, then its frequency in 4 bytes. -/
def writeEntry (s : State) (e : Byte × BitVec 32) : Run :=
  (s.writeDst s.tr.wptr e.1).andThen fun s =>
    (s.writeDstLe (s.tr.wptr + 1) 4 e.2.toNat).andThen fun s =>
      .ok (s.withTr fun t => { t with wptr := t.wptr + 5 })

/-- The table (R148): the entries still to write, in ascending symbol order. -/
def writeTable : List (Byte × BitVec 32) → State → Run
  | [], s => .ok s
  | e :: rest, s => (writeEntry s e).andThen (writeTable rest)

/-- FRAME (R145): the size check R146 comes before the first write. -/
def frameBody (s : State) : Run :=
  let s := s.withTr fun t => { t with totalBits := t.codeBits }
  if s.cfg.dstCap < containerSize s.tr.nsym s.tr.totalBits then .raised .dstOverflow s
  else
    (writeHeader (s.withTr fun t => { t with wptr := 0 })).andThen (writeTable s.tr.entries)

/-- The phase FRAME. -/
def execFrame (s : State) : Host.Outcome State Fault Refusal := s.runPhase .frame frameBody

end Sys2Proof.Machine
end

