-- ==== Sys2Proof/Machine/Parser.lean ====
section
/-! DEFINITION. The container parser, phase PARSE (46_parser.md). -/

namespace Sys2Proof.Machine

/-- One table entry (R159): a zero frequency and a symbol already given are MalformedContainer. -/
def parseEntry (s : State) (k : Nat) : Run :=
  s.withSrc (entrySymAddr k) fun sym =>
    s.withSrcLe (entryFreqAddr k) 4 fun f =>
      if f = 0 then .raised .malformedContainer s
      else if s.tr.freqAt sym ≠ 0 then .raised .malformedContainer s
      else .ok (s.withTr fun t => t.setFreq sym (BitVec.ofNat 32 f))

/-- The entries k, k + 1, ... with n still to parse (R155). -/
def parseEntries : (n : Nat) → (k : Nat) → State → Run
  | 0, _, s => .ok s
  | n + 1, k, s => (parseEntry s k).andThen (parseEntries n (k + 1))

/-- The header fields (R157), zero-extended to their registers (30_encoding.md R65). -/
def parseHeader (s : State) : Run :=
  s.withSrcLe 0 8 fun count =>
    s.withSrcLe 8 2 fun n =>
      .ok (s.withTr fun t => { t with origCount := BitVec.ofNat 64 count, tableN := BitVec.ofNat 16 n })

/-- NSYM and the payload's bounds (R155, R161). -/
def setPayload (s : State) : State :=
  let base := 10 + 5 * s.tr.tableN.toNat
  s.withTr fun t =>
    { t with nsym := t.tableN.toNat, payBase := base, payLen := s.srcLen - base, rptr := base }

/-- PARSE (R155), its checks in the order of R192. -/
def parseBody (s : State) : Run :=
  if s.srcLen < headerLen then .raised .malformedContainer s
  else
    (parseHeader s).andThen fun s =>
      if s.tr.tableN.toNat = 0 ∨ 256 < s.tr.tableN.toNat then .raised .malformedContainer s
      else if s.srcLen < 10 + 5 * s.tr.tableN.toNat then .raised .malformedContainer s
      else
        (parseEntries s.tr.tableN.toNat 0 s).andThen fun s =>
          let s := setPayload s
          if s.cfg.dstCap < s.tr.origCount.toNat then .raised .dstOverflow s else .ok s

/-- The phase PARSE. -/
def execParse (s : State) : Host.Outcome State Fault Refusal := s.runPhase .parse parseBody

end Sys2Proof.Machine
end

