-- ==== Sys2Proof/Machine/TreeBuilder.lean ====
section
/-! DEFINITION. The tree builder, phase BUILD (41_tree_builder.md). It touches no buffer and no CSR
(R110), so its parts are functions of the transient state alone. -/

namespace Sys2Proof.Machine

/-- Leaf creation (R111) over the table entries still to look at, with k leaves made. -/
def createLeaves : List (Byte × BitVec 32) → (k : Nat) → Transient → Transient
  | [], k, t => { t with nextFree := k }
  | e :: rest, k, t =>
    createLeaves rest (k + 1) ((t.setNode k ⟨e.2.toNat, true, e.1, 0, 0⟩).setInq k true)

/-- The positions, counted from i, at which a list of bits is 1. -/
def onesFrom : (i : Nat) → List Bool → List Nat
  | _, [] => []
  | i, b :: bs => if b then i :: onesFrom (i + 1) bs else onesFrom (i + 1) bs

/-- The indices in the queue, ascending (10_state.md R25). -/
def Transient.queue (t : Transient) : List Nat := onesFrom 0 t.inq.toList

/-- The weight of a slot. -/
def Transient.weightAt (t : Transient) (i : Nat) : Nat := (t.nodeAt i).elim 0 (fun n => n.weight)

/-- The order of R112: smaller weight first, among equal weights the smaller index. -/
def Transient.before (t : Transient) (i j : Nat) : Bool :=
  decide (t.weightAt i < t.weightAt j) || (decide (t.weightAt i = t.weightAt j) && decide (i < j))

/-- The least of a list of indices in the order of R112. -/
def Transient.least (t : Transient) : List Nat → Option Nat
  | [] => none
  | i :: rest =>
    match t.least rest with
    | none => some i
    | some j => if t.before j i then some j else some i

/-- `PopMin()` (00_scope.md section 4, R112); the queue is never empty when it is called. -/
def Transient.popMin (t : Transient) : Option (Nat × Transient) :=
  (t.least t.queue).map fun i => (i, t.setInq i false)

/-- One pass of the loop of R113: pop two, left then right, and push their parent. -/
def mergeOnce (t : Transient) : Option Transient := do
  let (a, t) ← t.popMin
  let (b, t) ← t.popMin
  if t.nextFree < Config.nodeMax then
    let t := t.setNode t.nextFree ⟨t.weightAt a + t.weightAt b, false, 0, a, b⟩
    let t := t.setInq t.nextFree true
    pure { t with nextFree := t.nextFree + 1 }
  else none

/-- The loop of R113: while more than one node remains. A pass takes two indices out of the queue and
puts one in, so the queue's length bounds the passes. -/
def mergeLoop : (fuel : Nat) → Transient → Option Transient
  | 0, t => some t
  | fuel + 1, t =>
    if t.queue.length ≤ 1 then some t else (mergeOnce t).bind (mergeLoop fuel)

/-- Merging (R113) and the root (R114), after the leaves. -/
def mergeAll (t : Transient) : Option Transient := do
  let t ← mergeLoop t.queue.length t
  match t.queue with
  | [] => none
  | r :: _ => pure { t with root := r, treeValid := true }

/-- BUILD (R110): no tree for an empty table (R116). -/
def buildTree (t : Transient) : Option Transient :=
  if t.alphabetSize = 0 then some { t with treeValid := false }
  else mergeAll (createLeaves t.entries 0 t)

/-- What the sequencer reports if BUILD made no tree (R116): EmptyInput in COMPRESS,
MalformedContainer in DECOMPRESS. -/
def noTreeError (latch : Word) : ErrorKind :=
  if latch = 1#32 then .emptyInput else .malformedContainer

/-- The body of BUILD. -/
def buildBody (s : State) : Run :=
  match buildTree s.tr with
  | none => .stuck .arenaCorrupt
  | some t =>
    if t.treeValid then .ok { s with tr := t }
    else .raised (noTreeError s.cmdLatch) { s with tr := t }

/-- The phase BUILD. -/
def execBuild (s : State) : Host.Outcome State Fault Refusal := s.runPhase .build buildBody

end Sys2Proof.Machine
end

