-- ==== Sys2Proof/Machine/HostPort.lean ====
section
/-! DEFINITION. The host's five primitives (20_memory.md R41 to R45). Each is atomic; what a read
returns goes to the front of `seen`. -/

namespace Sys2Proof.Machine

/-- Record what a host read returned; nothing else changes. -/
def State.observe (s : State) (o : Observation) : State := { s with seen := o :: s.seen }

/-- A write of `csr[CMD]` while idle (R90, R91): NOP does nothing, any other word is accepted. -/
def hostWriteCmd (v : Word) (s : State) : Host.Outcome State Fault Refusal :=
  match decodeCommand v with
  | .nop => exec .nop s
  | _ => .next (s.accept v)

/-- `HostWriteCSR(n, v)` (R41): ignored while busy; numbers 1, 4, 5 and from 6 on are ignored always. -/
def hostWriteCsr (n : Nat) (v : Word) (s : State) : Host.Outcome State Fault Refusal :=
  if s.busy then .next s
  else
    match n with
    | 0 => hostWriteCmd v s
    | 2 => .next { s with srcLenLo := v }
    | 3 => .next { s with srcLenHi := v }
    | _ => .next s

/-- The value of `HostReadCSR(n)` (R42). -/
def State.csrValue (s : State) (n : Nat) : Word :=
  match n with
  | 1 => s.statusWord
  | 2 => s.srcLenLo
  | 3 => s.srcLenHi
  | 4 => s.dstLenLo
  | 5 => s.dstLenHi
  | _ => 0

/-- `HostReadCSR(n)` (R42): no side effect. -/
def hostReadCsr (n : Nat) (s : State) : Host.Outcome State Fault Refusal :=
  .next (s.observe (.csr n (s.csrValue n)))

/-- `HostWriteSRC(a, b)` (R43): ignored while busy; refused at or above SRC_CAP. -/
def hostWriteSrc (a : Nat) (b : Byte) (s : State) : Host.Outcome State Fault Refusal :=
  if a < s.cfg.srcCap then
    if s.busy then .next s else .next { s with src := s.src.store a b }
  else .refused (.noSuchSrcByte a)

/-- `HostReadSRC(a)` (R44): at any time; refused at or above SRC_CAP. -/
def hostReadSrc (a : Nat) (s : State) : Host.Outcome State Fault Refusal :=
  match s.readSrc a with
  | some b => .next (s.observe (.src a b))
  | none => .refused (.noSuchSrcByte a)

/-- The defined byte at a DST address: one of the last result's (R17, R45). -/
def State.resultByte (s : State) (a : Nat) : Option Byte :=
  if s.busy = false ∧ a < s.dstLen then s.dst.lookup a else none

/-- `HostReadDST(a)` (R45): a byte of the result, else a draw; refused at or above DST_CAP. -/
def hostReadDst (a : Nat) (s : State) : Host.Outcome State Fault Refusal :=
  if a < s.cfg.dstCap then
    match s.resultByte a with
    | some b => .next (s.observe (.dst a b))
    | none => .next { s.observe (.dst a (Config.dstDraw s.draws)) with draws := s.draws + 1 }
  else .refused (.noSuchDstByte a)

/-- One primitive. -/
def hostOp (o : HostOp) (s : State) : Host.Outcome State Fault Refusal :=
  match o with
  | .writeCsr n v => hostWriteCsr n v s
  | .readCsr n => hostReadCsr n s
  | .writeSrc a b => hostWriteSrc a b s
  | .readSrc a => hostReadSrc a s
  | .readDst a => hostReadDst a s

end Sys2Proof.Machine
end

