-- ==== Sys2Proof/Machine/Script.lean ====
section
/-! DEFINITION. The host-script notation (30_encoding.md R73, R74): each statement as the list of
items it expands to, and the host's move on the first item of its script. -/

namespace Sys2Proof.Machine

/-! ### Statements (R73) -/

/-- `wsrc a, b0 b1 ...`. -/
def wsrc : (a : Nat) → List Byte → List ScriptItem
  | _, [] => []
  | a, b :: bs => .op (.writeSrc a b) :: wsrc (a + 1) bs

/-- `wlen v`. -/
def wlen (v : Nat) : List ScriptItem :=
  [.op (.writeCsr 2 (loHalf v)), .op (.writeCsr 3 (hiHalf v))]

/-- `cmd M`, M a command word. -/
def cmd (word : Word) : List ScriptItem := [.op (.writeCsr 0 word)]

/-- `rstat`. -/
def rstat : List ScriptItem := [.op (.readCsr 1)]

/-- `poll`. -/
def poll : List ScriptItem := [.poll]

/-- `rlen`. -/
def rlen : List ScriptItem := [.op (.readCsr 4), .op (.readCsr 5)]

/-- `rdst a, k`. -/
def rdst (a k : Nat) : List ScriptItem := (List.range k).map fun j => .op (.readDst (a + j))

/-- `rsrc a, k`. -/
def rsrc (a k : Nat) : List ScriptItem := (List.range k).map fun j => .op (.readSrc (a + j))

/-! ### Pseudo-statements (R74) -/

/-- `load b0 b1 ...`. -/
def load (bs : List Byte) : List ScriptItem := wsrc 0 bs ++ wlen bs.length

/-- `run M`. -/
def run (word : Word) : List ScriptItem := cmd word ++ poll

/-- `fetch`. -/
def fetch : List ScriptItem := rlen ++ [.rdstLen]

/-- `copyback`. -/
def copyback : List ScriptItem := fetch ++ [.loadFetched]

/-! ### The host's own work between primitives -/

/-- The result of the `rlen` done last: `hi · 2^32 + lo` of the two newest observations (R73). -/
def lastLength : List Observation → Nat
  | .csr _ hi :: .csr _ lo :: _ => pairNat hi lo
  | _ => 0

/-- The bytes of the run of DST reads done last, oldest first. -/
def fetchedBytes : List Observation → List Byte → List Byte
  | .dst _ b :: os, acc => fetchedBytes os (b :: acc)
  | _, acc => acc

/-- The host's move: the first item of its script. With nothing to do it leaves everything as it is. -/
def hostStep (s : State) : Host.Outcome State Fault Refusal :=
  match s.script with
  | [] => .next s
  | .op o :: rest => hostOp o { s with script := rest }
  | .poll :: rest =>
    hostReadCsr 1 (if (s.csrValue 1).getLsbD 0 then s else { s with script := rest })
  | .rdstLen :: rest => .next { s with script := rdst 0 (lastLength s.seen) ++ rest }
  | .loadFetched :: rest => .next { s with script := load (fetchedBytes s.seen []) ++ rest }

end Sys2Proof.Machine
end

