-- ==== Sys2Proof/Machine/Agents.lean ====
section
/-! DEFINITION. Who moves and what a move is: the engine's fetch from PHASE and CMD_LATCH
(40_commands.md R92, R100), the reset input (70_reset_and_hazards.md R210), and the turns of the two
agents (20_memory.md R50, R51). -/

namespace Sys2Proof.Machine

/-- The control word the engine acts on: the latched command word while PHASE is IDLE (R92), else the
phase code (R19, R69). -/
def State.controlWord (s : State) : ControlWord :=
  if s.phase = .idle then .command s.cmdLatch else .phase s.phase.code

/-- Dispatch's reading of the latched word (R92): like the decoder's, but the zero word, which
acceptance never latches, is illegal here (log 21). -/
def dispatchInstr (v : Word) : Instr := if v = 0 then .illegal v else decodeCommand v

/-- The instruction the engine runs next. -/
def State.engineInstr (s : State) : Instr :=
  match decodePhase s.phase.code with
  | .ok i => i
  | .error _ => dispatchInstr s.cmdLatch

/-- The engine's move: none while BUSY = 0 (R51). -/
def engineStep (s : State) : Host.Outcome State Fault Refusal :=
  if s.busy then exec s.engineInstr s else .next s

/-- Reset from outside, at any time (R210): an operation in progress leaves no trace; the contents of
SRC are a new free epoch. The configuration and the host go on (log 9). -/
def State.resetEvent (s : State) : State :=
  { State.reset with
    cfg := s.cfg, epoch := s.epoch + 1, draws := s.draws, script := s.script, seen := s.seen
    sched := s.sched }

/-- One turn. A turn of an agent that has no move changes nothing. -/
def takeTurn (t : Turn) (s : State) : Host.Outcome State Fault Refusal :=
  match t with
  | .host => hostStep s
  | .engine => engineStep s
  | .reset => .next s.resetEvent

/-- The turn that is due and the state with it taken off the schedule. Past the end of the schedule
the engine moves while BUSY = 1, and the host otherwise (fairness, R222; log 2). -/
def State.nextTurn (s : State) : Turn × State :=
  match s.sched with
  | t :: rest => (t, { s with sched := rest })
  | [] => (if s.busy then .engine else .host, s)

/-- One step of the machine. -/
def machineStep (s : State) : Host.Outcome State Fault Refusal := takeTurn s.nextTurn.1 s.nextTurn.2

/-- The command word whose path holds a phase (R95, R97): DECOMPRESS for PARSE and DECODE, COMPRESS
for the others. -/
def latchForPhase (p : Phase) : Word :=
  match p with
  | .parse => 2#32
  | .decode => 2#32
  | _ => 1#32

/-- The state whose next step runs the instruction of a control word (log 11). A command word other
than NOP has been accepted; NOP, which the engine never sees, is the host's next CMD write; a phase
is the one in progress under a command whose path holds it. A code that runs nothing changes
nothing. -/
def State.placeControlWord (s : State) (cw : ControlWord) : State :=
  match cw with
  | .command v =>
    if v = 0 then
      { s with sched := [], busy := false, phase := .idle, script := [.op (.writeCsr 0 v)] }
    else ({ s with sched := [] }).accept v
  | .phase c =>
    match Phase.ofCode c with
    | none => s
    | some .idle => s
    | some p => { s with sched := [], busy := true, phase := p, cmdLatch := latchForPhase p }

/-- `placeControlWord` on a row of the opcode table. -/
def State.placeTableWord (s : State) (nbits w : Nat) : State :=
  match tableControlWord nbits w with
  | none => s
  | some cw => s.placeControlWord cw

end Sys2Proof.Machine
end

