-- ==== Sys2Proof/Machine/Step.lean ====
section
/-! DEFINITION. The step of the machine, and the placing of an instruction where the next step runs it. -/

namespace Sys2Proof.Machine

/-- One step: one turn of the engine, the host or the reset input (20_memory.md R51). -/
def step (s : State) : Host.Outcome State Fault Refusal := machineStep s

/-- The state whose next step runs the instruction of an opcode-table row (log 10, log 11). -/
def State.withFetchWord (s : State) (nbits w : Nat) : State := s.placeTableWord nbits w

end Sys2Proof.Machine
end

