-- ==== Sys2Proof/Safety.lean ====
section
/-! DEFINITION. The terms claims are stated in: the two operations as functions of bytes
(40_commands.md R101, R102) over trees of their own, independent of the arena; the shape of the arena
(10_state.md R31, 41_tree_builder.md R118); runs of the engine; and the invariants of the machine. -/

namespace Sys2Proof.Machine

/-! ### Input and output of an operation -/

/-- The bytes `SRC[0 .. SRC_LEN-1]` (00_scope.md R2). -/
def State.input (s : State) : List Byte := (List.range s.srcLen).map s.srcByte

/-- `DST[0 .. DST_LEN-1]` are exactly these bytes (10_state.md R17). -/
def State.holdsResult (s : State) (out : List Byte) : Prop :=
  s.dstLen = out.length ∧ ∀ i, i < out.length → s.dst.lookup i = out[i]?

/-- An accepted command that the engine has not dispatched yet (R90, R92). -/
def State.accepted (s : State) (word : Word) : Prop :=
  s.busy = true ∧ s.phase = .idle ∧ s.cmdLatch = word

/-- The engine alone, for at most k steps, until BUSY = 0. -/
def engineRun : (k : Nat) → State → Host.Outcome State Fault Refusal
  | 0, s => .next s
  | k + 1, s =>
    if s.busy then
      match engineStep s with
      | .next t => engineRun k t
      | o => o
    else .next s

/-- The most engine steps one command takes: dispatch and five phases (R95). -/
abbrev maxEngineSteps : Nat := 6

/-- The command ended well, with this result (R96). -/
def State.endedWith (s : State) (out : List Byte) : Prop :=
  s.busy = false ∧ s.done = true ∧ s.fail = false ∧ s.err = none ∧ s.phase = .idle ∧ s.holdsResult out

/-- The command ended with this error, and DST_LEN = 0 (R196). -/
def State.failedWith (s : State) (k : ErrorKind) : Prop :=
  s.busy = false ∧ s.done = true ∧ s.fail = true ∧ s.err = some k ∧ s.phase = .idle ∧ s.dstLen = 0

/-! ### Bits and bytes -/

/-- Eight bits as a byte, the first most significant, missing bits 0. -/
def byteOfBits (bs : List Bool) : Byte :=
  BitVec.ofNat 8 ((List.range 8).foldl (fun acc i => 2 * acc + (bs.getD i false).toNat) 0)

/-- `Pack(bits)` (R101, 30_encoding.md R63). -/
def packBits (bits : List Bool) : List Byte :=
  (List.range (ceil8 bits.length)).map fun j => byteOfBits ((bits.drop (8 * j)).take 8)

/-- The bits of bytes, most significant first in each (R63). -/
def unpackBytes (bs : List Byte) : List Bool :=
  bs.flatMap fun b => (List.range 8).map fun i => b.getLsbD (payloadBitPos i)

/-- A field of a byte string: `le_k` of the k bytes at a. -/
def fieldAt (c : List Byte) (a k : Nat) : Nat := leNat ((c.drop a).take k)

/-! ### Trees -/

/-- A Huffman tree as data. -/
inductive HTree where
  | leaf (sym : Byte)
  | node (left right : HTree)
deriving DecidableEq, Repr

/-- A tree in the queue, with the weight and the number that R112 orders by. -/
structure QItem where
  weight : Nat
  index : Nat
  tree : HTree
deriving DecidableEq, Repr

/-- R112: smaller weight first, then smaller number. -/
def QItem.before (x y : QItem) : Bool :=
  decide (x.weight < y.weight) || (decide (x.weight = y.weight) && decide (x.index < y.index))

/-- Put an item into a queue kept in the order of R112. -/
def enqueue (x : QItem) : List QItem → List QItem
  | [] => [x]
  | y :: q => if x.before y then x :: y :: q else y :: enqueue x q

/-- The symbols a frequency function holds, ascending. -/
def presentSymbols (f : Byte → Nat) : List Byte := allSymbols.filter fun s => f s != 0

/-- The leaves of R111 in a queue, numbered from k. -/
def leafQueue (f : Byte → Nat) : List Byte → (k : Nat) → List QItem
  | [], _ => []
  | s :: rest, k => enqueue ⟨f s, k, .leaf s⟩ (leafQueue f rest (k + 1))

/-- The merging of R113, with the number of the next internal node. -/
def mergeQueue : (fuel : Nat) → (next : Nat) → List QItem → Option HTree
  | _, _, [] => none
  | _, _, [x] => some x.tree
  | 0, _, _ => none
  | fuel + 1, next, x :: y :: q =>
    mergeQueue fuel (next + 1) (enqueue ⟨x.weight + y.weight, next, .node x.tree y.tree⟩ q)

/-- `Build(f)` (R101): none for the empty table (R116). -/
def buildRef (f : Byte → Nat) : Option HTree :=
  let syms := presentSymbols f
  mergeQueue syms.length syms.length (leafQueue f syms 0)

/-- The path to a symbol's leaf: `0` left, `1` right (R121). -/
def HTree.path : HTree → Byte → Option (List Bool)
  | .leaf c, s => if c = s then some [] else none
  | .node l r, s =>
    match l.path s with
    | some p => some (false :: p)
    | none => (r.path s).map (true :: ·)

/-- `GenCode` (R121, R122): the code of a symbol, empty if it has none. -/
def HTree.code (t : HTree) (s : Byte) : List Bool :=
  match t with
  | .leaf c => if c = s then Config.singleCode else []
  | .node _ _ => (t.path s).getD []

/-- The symbols that a string of bits decodes to, walking from `cur` (R172). -/
def HTree.emitFrom (root : HTree) : (cur : HTree) → List Bool → List Byte
  | _, [] => []
  | .leaf _, _ :: _ => []
  | .node l r, b :: bs =>
    match (if b then r else l) with
    | .leaf s => s :: root.emitFrom root bs
    | .node l' r' => root.emitFrom (.node l' r') bs

/-- The symbols that a string of bits decodes to: one a bit if the root is a leaf (R173). -/
def HTree.emit (t : HTree) (bits : List Bool) : List Byte :=
  match t with
  | .leaf s => bits.map fun _ => s
  | .node _ _ => t.emitFrom t bits

/-! ### The two operations (R101, R102) -/

/-- The header and the table of a container (30_encoding.md R61, R62, 45_framer.md R147, R148). -/
def headBytes (len : Nat) (n : Nat) (f : Byte → Nat) : List Byte :=
  leBytes 8 len ++ leBytes 2 n ++ (presentSymbols f).flatMap fun s => s :: leBytes 4 (f s)

/-- The container of a non-empty input under a given tree. -/
def containerBytes (input : List Byte) (t : HTree) : List Byte :=
  let f := fun s => input.count s
  headBytes input.length (presentSymbols f).length f ++ packBits (input.flatMap t.code)

/-- `Compress(B)` (R101). -/
def compressRef (c : Config) (input : List Byte) : Except ErrorKind (List Byte) :=
  if c.srcCap < input.length then .error .badLength
  else if input.length = 0 then .error .emptyInput
  else if allSymbols.any (fun s => decide (2 ^ 32 - 1 < input.count s)) then .error .freqOverflow
  else
    match buildRef (fun s => input.count s) with
    | none => .error .emptyInput
    | some t =>
      if c.dstCap < (containerBytes input t).length then .error .dstOverflow
      else .ok (containerBytes input t)

/-- The table entries of a container (R102). -/
def entriesOf (c : List Byte) (n : Nat) : List (Byte × Nat) :=
  (List.range n).map fun k => (c.getD (entrySymAddr k) 0, fieldAt c (entryFreqAddr k) 4)

/-- The frequency a list of entries gives a symbol. -/
def entryFreq (es : List (Byte × Nat)) (s : Byte) : Nat :=
  ((es.find? fun e => e.1 == s).map (fun e => e.2)).getD 0

/-- The container's entry count field (30_encoding.md R61). -/
def entryCount (c : List Byte) : Nat := fieldAt c 8 2

/-- A container that PARSE accepts (46_parser.md R163). -/
abbrev wellFormedContainer (c : List Byte) : Prop :=
  10 ≤ c.length ∧ (1 ≤ entryCount c ∧ entryCount c ≤ 256) ∧ 10 + 5 * entryCount c ≤ c.length ∧
    (∀ e ∈ entriesOf c (entryCount c), e.2 ≠ 0) ∧
    ((entriesOf c (entryCount c)).map (fun e => e.1)).Nodup

/-- `Decompress(C)` (R102). -/
def decompressRef (c : Config) (input : List Byte) : Except ErrorKind (List Byte) :=
  let count := fieldAt input 0 8
  let n := entryCount input
  if c.srcCap < input.length then .error .badLength
  else if ¬ wellFormedContainer input then .error .malformedContainer
  else if c.dstCap < count then .error .dstOverflow
  else
    match buildRef (entryFreq (entriesOf input n)) with
    | none => .error .malformedContainer
    | some t =>
      let payload := input.drop (10 + 5 * n)
      let out := (t.emit ((unpackBytes payload).take (bitLimit payload.length count))).take count
      if out.length = count then .ok out else .error .sizeMismatch

/-! ### The arena -/

/-- Below index i stands a tree of at most `fuel` levels inside the arena (R118). -/
def Transient.isTree (t : Transient) : (fuel : Nat) → (i : Nat) → Bool
  | 0, _ => false
  | fuel + 1, i =>
    match t.nodeAt i with
    | none => false
    | some n => n.isLeaf || (t.isTree fuel n.left && t.isTree fuel n.right)

/-- The index reached from i by a string of bits: `0` left, `1` right, none past a leaf (R121, R172). -/
def Transient.follow (t : Transient) : (i : Nat) → List Bool → Option Nat
  | i, [] => some i
  | i, b :: bs =>
    match t.nodeAt i with
    | none => none
    | some n => if n.isLeaf then none else t.follow (if b then n.right else n.left) bs

/-- The symbol at the leaf that a string of bits reaches from i. -/
def Transient.leafSymbol (t : Transient) (i : Nat) (p : List Bool) : Option Byte :=
  match t.follow i p with
  | none => none
  | some j =>
    match t.nodeAt j with
    | none => none
    | some n => if n.isLeaf then some n.sym else none

/-- The symbols that a string of bits decodes to in the arena, from index `cur` on (R172). -/
def Transient.walkFrom (t : Transient) : (cur : Nat) → List Bool → List Byte
  | _, [] => []
  | cur, b :: bs =>
    match t.nodeAt cur with
    | none => []
    | some n =>
      let c := if b then n.right else n.left
      match t.nodeAt c with
      | none => []
      | some m => if m.isLeaf then m.sym :: t.walkFrom t.root bs else t.walkFrom c bs

/-- The symbols that a string of bits decodes to in the arena (R172, R173). -/
def Transient.walk (t : Transient) (bits : List Bool) : List Byte :=
  match t.nodeAt t.root with
  | none => []
  | some r => if r.isLeaf then bits.map fun _ => r.sym else t.walkFrom t.root bits

/-- The bits of the payload under the bit limit (R171). -/
def State.payloadBits (s : State) : List Bool :=
  (List.range (bitLimit s.tr.payLen s.tr.origCount.toNat)).map fun i =>
    (s.srcByte (payloadByteAddr s.tr.payBase i)).getLsbD (payloadBitPos i)

/-- The code bits that ENCODE pushes for the input (R136, R139). -/
def State.inputBits (s : State) : List Bool :=
  s.input.flatMap fun b => (s.tr.codeAt b).bits.take (s.tr.codeAt b).len.toNat

/-- The arena of a table with n symbols, as BUILD leaves it (R31, R118): slots 0 .. n-1 are leaves,
slots n .. 2n-2 internal nodes over two different smaller slots with the sum of their weights,
and each slot but the root is a child exactly once. -/
def Transient.arenaInv (t : Transient) (n : Nat) : Prop :=
  1 ≤ n ∧ n ≤ 256 ∧ t.root = 2 * n - 2 ∧
    (∀ i, i < n → ∃ v, t.nodeAt i = some v ∧ v.isLeaf = true ∧ t.freqAt v.sym ≠ 0 ∧
      v.weight = (t.freqAt v.sym).toNat) ∧
    (∀ i j u v, i < j → j < n → t.nodeAt i = some u → t.nodeAt j = some v → u.sym < v.sym) ∧
    (∀ i, n ≤ i → i < 2 * n - 1 → ∃ v l r, t.nodeAt i = some v ∧ v.isLeaf = false ∧
      v.left < i ∧ v.right < i ∧ v.left ≠ v.right ∧ t.nodeAt v.left = some l ∧
      t.nodeAt v.right = some r ∧ v.weight = l.weight + r.weight) ∧
    (∀ c, c < 2 * n - 2 → ∃ i, (n ≤ i ∧ i < 2 * n - 1 ∧
        ∃ v, t.nodeAt i = some v ∧ (v.left = c ∨ v.right = c)) ∧
      ∀ j, (n ≤ j ∧ j < 2 * n - 1 ∧
        ∃ v, t.nodeAt j = some v ∧ (v.left = c ∨ v.right = c)) → j = i)

/-! ### Invariants of the machine -/

/-- Every listed address lies below a capacity. -/
abbrev Memory.below (m : Memory) (cap : Nat) : Prop := ∀ c ∈ m, c.1 < cap

/-- FREQ holds the counts of the input (43_freq_counter.md R131). -/
def State.countsInput (s : State) : Prop := ∀ b, (s.tr.freqAt b).toNat = s.input.count b

/-- The first n bytes of DST have been written. -/
def State.dstWritten (s : State) (n : Nat) : Prop := ∀ i, i < n → (s.dst.lookup i).isSome = true

/-- The queue is empty, as the prologue leaves it (R93). -/
def Transient.queueEmpty (t : Transient) : Prop := ∀ i, t.inqAt i = false

/-- Every code table entry's length is that of its bits (10_state.md R26). -/
def Transient.codesWf (t : Transient) : Prop := ∀ b, (t.codeAt b).len.toNat = (t.codeAt b).bits.length

/-- What PARSE leaves for BUILD and DECODE (46_parser.md R161). -/
def State.payloadFits (s : State) : Prop :=
  s.tr.origCount.toNat ≤ s.cfg.dstCap ∧ s.tr.payBase + s.tr.payLen = s.srcLen

/-- What holds of the transient state when a phase is about to run. -/
def State.phaseInv (s : State) : Prop :=
  match s.phase with
  | .idle => True
  | .count => s.tr = Transient.zero
  | .parse => s.tr = Transient.zero
  | .build =>
    s.tr.queueEmpty ∧ 1 ≤ s.tr.alphabetSize ∧ s.tr.nsym = s.tr.alphabetSize ∧ s.tr.codesWf ∧
      (s.cmdLatch = 1#32 → s.countsInput) ∧ (s.cmdLatch = 2#32 → s.payloadFits)
  | .gencode =>
    s.tr.treeValid = true ∧ s.tr.isTree 256 s.tr.root = true ∧
      s.tr.nsym = s.tr.alphabetSize ∧ s.tr.codesWf ∧ s.countsInput
  | .frame => s.tr.nsym = s.tr.alphabetSize ∧ s.tr.codesWf ∧ s.countsInput
  | .encode => s.tr.wptr + ceil8 s.inputBits.length ≤ s.cfg.dstCap ∧ s.dstWritten s.tr.wptr
  | .decode => s.tr.treeValid = true ∧ s.tr.isTree 256 s.tr.root = true ∧ s.payloadFits

/-- The flags and the length of the result (R12, R14, R17, R19, R21). -/
def State.flagInv (s : State) : Prop :=
  (s.busy = true → s.done = false) ∧ (s.fail = true → s.done = true) ∧
    (s.err.isSome = true ↔ s.fail = true) ∧
    (s.err ≠ some .unreadableFile ∧ s.err ≠ some .unwritableOutput) ∧
    (s.busy = false → s.phase = .idle) ∧ (s.busy = true → s.cmdLatch ≠ 0) ∧
    (s.done = false → s.dstLen = 0) ∧ (s.fail = true → s.dstLen = 0) ∧
    s.dstLen ≤ s.cfg.dstCap ∧ s.dstWritten s.dstLen

/-- A phase in progress lies on the latched command's path, its input inside SRC (R19, R94). -/
def State.pathInv (s : State) : Prop :=
  s.phase ≠ .idle →
    s.phase ∈ phasePath s.cmdLatch ∧ s.srcLen ≤ s.cfg.srcCap ∧ (s.cmdLatch = 1#32 → 1 ≤ s.srcLen)

/-- The invariant of HUFFCORE. -/
structure State.Inv (s : State) : Prop where
  cfg_wf : s.cfg.wf
  src_wf : s.src.wf
  dst_wf : s.dst.wf
  src_below : s.src.below s.cfg.srcCap
  dst_below : s.dst.below s.cfg.dstCap
  flags : s.flagInv
  path : s.pathInv
  phase : s.phaseInv

/-- Every register of the transient state fits the width the spec gives it (R20, R24, R27, R28). -/
structure Transient.WidthsFit (t : Transient) : Prop where
  rptr : t.rptr < 2 ^ 64
  wptr : t.wptr < 2 ^ 64
  bitpos : t.bitpos < 2 ^ 67
  cur : t.cur < 2 ^ 9
  nsym : t.nsym ≤ 256
  nextFree : t.nextFree < 2 ^ 9
  root : t.root < 2 ^ 9
  payBase : t.payBase < 2 ^ 64
  payLen : t.payLen < 2 ^ 64
  limit : t.limit < 2 ^ 67
  emitted : t.emitted < 2 ^ 64
  totalBits : t.totalBits < 2 ^ 67
  accN : t.accN ≤ 8
  node : ∀ i v, t.nodeAt i = some v → v.weight < 2 ^ 40 ∧ v.left < 2 ^ 9 ∧ v.right < 2 ^ 9
  code : ∀ b, (t.codeAt b).bits.length ≤ 255

end Sys2Proof.Machine
end

