-- ==== Sys2Proof/Certificates/Slice0/Obligations.lean ====
section
/-! DEFINITION. The statements about HUFFCORE for the provers. A statement that rests on a choice of
the model, not on a rule of the spec, says so and names the log entry. -/

open Sys2Proof Sys2Proof.Machine

/-! ## Encodings -/

/-- 30_encoding.md section 2 and 3: decoding an encoded well-formed instruction gives it back, for every
operand, and every control word that decodes is the encoding of the well-formed instruction it
decodes to. -/
def Obligations.DecodeAndEncodeAgree : Prop :=
  (∀ i : Instr, i.wellFormed = true → decode (encode i) = .ok i) ∧
    ∀ (cw : ControlWord) (i : Instr), decode cw = .ok i → encode i = cw ∧ i.wellFormed = true

/-- R67: the opcode map, on every 32-bit word. -/
def Obligations.EveryCommandWordDecodes : Prop :=
  ∀ w : Word, decode (.command w) = .ok
    (if w = 0x00000000#32 then .nop
    else if w = 0x00000001#32 then .compress
    else if w = 0x00000002#32 then .decompress
    else if w = 0x00000003#32 then .clear
    else .illegal w)

/-- R67, R69, R71: some words and codes, written out. -/
def Obligations.WrittenOutWordsDecode : Prop :=
  decode (.command 0b00000000000000000000000000000000#32) = .ok .nop ∧
  decode (.command 0b00000000000000000000000000000001#32) = .ok .compress ∧
  decode (.command 0b00000000000000000000000000000010#32) = .ok .decompress ∧
  decode (.command 0b00000000000000000000000000000011#32) = .ok .clear ∧
  decode (.command 0b00000000000000000000000100000000#32) = .ok (.illegal 0x100#32) ∧
  decode (.phase 0b0001#4) = .ok .count ∧ decode (.phase 0b0010#4) = .ok .build ∧
  decode (.phase 0b0011#4) = .ok .gencode ∧ decode (.phase 0b0100#4) = .ok .frame ∧
  decode (.phase 0b0101#4) = .ok .encode ∧ decode (.phase 0b0110#4) = .ok .parse ∧
  decode (.phase 0b0111#4) = .ok .decode ∧
  decode (.phase 0b0000#4) = .error .idlePhase ∧
  decode (.phase 0b1000#4) = .error (.noSuchPhase 0b1000#4)

/-- R68: where the fields of STATUS stand, and which of its bits are zero. -/
def Obligations.StatusWordHoldsTheFields : Prop :=
  ∀ s : State,
    s.statusWord.getLsbD 0 = s.busy ∧ s.statusWord.getLsbD 1 = s.done ∧
    s.statusWord.getLsbD 2 = s.fail ∧ s.statusWord.getLsbD 3 = false ∧
    s.statusWord.extractLsb' 4 4 = errField s.err ∧
    s.statusWord.extractLsb' 8 4 = s.phase.code ∧
    s.statusWord.extractLsb' 12 20 = 0#20

/-! ## Reset -/

/-- 10_state.md section 10 (R30) and R211: after reset STATUS, SRC_LEN, DST_LEN and CMD_LATCH are zero,
no byte of SRC or DST has been written, and the engine has no step. -/
def Obligations.ResetLeavesTheGivenValues : Prop :=
  State.reset.statusWord = 0x00000000#32 ∧ State.reset.phase = .idle ∧ State.reset.srcLen = 0 ∧
    State.reset.dstLen = 0 ∧ State.reset.cmdLatch = 0 ∧
    (∀ a, State.reset.src.lookup a = none ∧ State.reset.dst.lookup a = none) ∧
    engineStep State.reset = .next State.reset

/-- 70_reset_and_hazards.md section 1 (R210): reset may come at any time, also while busy; it puts the
CSRs and the latch at their reset values and abandons the operation. That the capacities, the host's
script and its observations go on is the model's choice (log 9). -/
def Obligations.ResetEventAtAnyTime : Prop :=
  ∀ (s : State) (rest : List Turn), s.sched = .reset :: rest →
    ∃ t, step s = .next t ∧ t.statusWord = 0x00000000#32 ∧ t.phase = .idle ∧ t.srcLen = 0 ∧
      t.dstLen = 0 ∧ t.cmdLatch = 0 ∧ t.src = [] ∧ t.dst = [] ∧ t.epoch = s.epoch + 1 ∧
      t.cfg = s.cfg ∧ t.script = s.script ∧ t.seen = s.seen ∧ t.sched = rest

/-! ## The host's primitives -/

/-- R41: `HostWriteCSR(n, v)`, for every n, busy or not. -/
def Obligations.HostWriteCsrRule : Prop :=
  ∀ (n : Nat) (v : Word) (s : State),
    (s.busy = true → hostWriteCsr n v s = .next s) ∧
    (s.busy = false → n = 0 → v = 0 → hostWriteCsr n v s = .next s) ∧
    (s.busy = false → n = 0 → v ≠ 0 → hostWriteCsr n v s = .next (s.accept v)) ∧
    (s.busy = false → n = 2 → hostWriteCsr n v s = .next { s with srcLenLo := v }) ∧
    (s.busy = false → n = 3 → hostWriteCsr n v s = .next { s with srcLenHi := v }) ∧
    (s.busy = false → (n = 1 ∨ n = 4 ∨ n = 5 ∨ 6 ≤ n) → hostWriteCsr n v s = .next s)

/-- R42: `HostReadCSR(n)` returns the register, busy or not, and changes nothing but what the host has
seen; DST_LEN reads 0 while busy. -/
def Obligations.HostReadCsrRule : Prop :=
  ∀ (n : Nat) (s : State), ∃ v,
    hostReadCsr n s = .next { s with seen := .csr n v :: s.seen } ∧
    (n = 0 → v = 0) ∧ (n = 1 → v = s.statusWord) ∧ (n = 2 → v = s.srcLenLo) ∧
    (n = 3 → v = s.srcLenHi) ∧ (n = 4 → v = s.dstLenLo) ∧ (n = 5 → v = s.dstLenHi) ∧
    (6 ≤ n → v = 0) ∧ (s.Inv → s.busy = true → (n = 4 ∨ n = 5) → v = 0)

/-- R43, R44: `HostWriteSRC` and `HostReadSRC`: a write takes effect exactly when idle, a read returns
what was written last, and an address at or above SRC_CAP is refused. What an unwritten byte reads
as is the free value of log 4. -/
def Obligations.HostSrcAccessRule : Prop :=
  ∀ (a : Nat) (b : Byte) (s : State),
    (s.cfg.srcCap ≤ a → hostWriteSrc a b s = .refused (.noSuchSrcByte a) ∧
      hostReadSrc a s = .refused (.noSuchSrcByte a)) ∧
    (a < s.cfg.srcCap → s.busy = true → hostWriteSrc a b s = .next s) ∧
    (a < s.cfg.srcCap → s.busy = false → ∃ t, hostWriteSrc a b s = .next t ∧
      t = { s with src := t.src } ∧ t.src.lookup a = some b ∧
      ∀ x, x ≠ a → t.src.lookup x = s.src.lookup x) ∧
    (a < s.cfg.srcCap → ∃ v, hostReadSrc a s = .next { s with seen := .src a v :: s.seen } ∧
      ∀ c, s.src.lookup a = some c → v = c)

/-- R45: `HostReadDST(a)` returns a byte of the result when idle and below DST_LEN, a draw otherwise (the
free value of log 5), and is refused at or above DST_CAP. A byte below DST_LEN that nothing has
written, which no run has, is a draw too (log 5). -/
def Obligations.HostReadDstRule : Prop :=
  ∀ (a : Nat) (s : State),
    (s.cfg.dstCap ≤ a → hostReadDst a s = .refused (.noSuchDstByte a)) ∧
    (a < s.cfg.dstCap → s.busy = false → a < s.dstLen → ∀ b, s.dst.lookup a = some b →
      hostReadDst a s = .next { s with seen := .dst a b :: s.seen }) ∧
    (a < s.cfg.dstCap → (s.busy = true ∨ s.dstLen ≤ a) →
      hostReadDst a s = .next
        { s with seen := .dst a (Config.dstDraw s.draws) :: s.seen, draws := s.draws + 1 })

/-- R90: a write of `csr[CMD]` is ignored while busy; otherwise the zero word does nothing, and every
other word is accepted, which leaves everything but the latch, the STATUS fields and DST_LEN alone. -/
def Obligations.AcceptanceRule : Prop :=
  ∀ (v : Word) (s : State),
    (s.busy = true → hostWriteCsr 0 v s = .next s) ∧
    (s.busy = false → v = 0 → hostWriteCsr 0 v s = .next s) ∧
    (s.busy = false → v ≠ 0 →
      ∃ t, hostWriteCsr 0 v s = .next t ∧ t.cmdLatch = v ∧ t.busy = true ∧ t.done = false ∧
        t.fail = false ∧ t.err = none ∧ t.phase = .idle ∧ t.dstLen = 0 ∧
        t.statusWord = 0x00000001#32 ∧
        t = { s with
          cmdLatch := t.cmdLatch, busy := t.busy, done := t.done, fail := t.fail, err := t.err
          phase := t.phase, dstLenLo := t.dstLenLo, dstLenHi := t.dstLenHi })

/-- R74 (`load b0 ... bk-1`): from an idle machine whose schedule is over, k + 2 steps of the host leave
exactly these bytes as the input, and nothing else of HUFFCORE changes. -/
def Obligations.LoadPlacesTheInput : Prop :=
  ∀ (bs : List Byte) (rest : List ScriptItem) (s : State),
    s.busy = false → s.sched = [] → bs.length ≤ s.cfg.srcCap → s.cfg.wf →
    s.script = load bs ++ rest →
    ∃ t, Host.Core.run Sys2Proof.core (bs.length + 2) s = .next t ∧ t.input = bs ∧
      t.script = rest ∧
      t = { s with
        src := t.src, srcLenLo := t.srcLenLo, srcLenHi := t.srcLenHi, script := t.script }

/-! ## Commands -/

/-- R91: NOP changes nothing, neither as an instruction nor as the host's write of the zero word, busy
or not. -/
def Obligations.NopChangesNothing : Prop :=
  ∀ s : State, exec .nop s = .next s ∧ hostWriteCsr 0 0x00000000#32 s = .next s

/-- R92 to R95, R187: dispatch of COMPRESS clears the transient state, tests the length, then for an
empty input, and starts COUNT. -/
def Obligations.CompressDispatches : Prop :=
  ∀ s : State,
    (s.cfg.srcCap < s.srcLen → exec .compress s = .next (s.prologue.raise .badLength)) ∧
    (s.srcLen = 0 → exec .compress s = .next (s.prologue.raise .emptyInput)) ∧
    (1 ≤ s.srcLen → s.srcLen ≤ s.cfg.srcCap →
      exec .compress s = .next { s with tr := Transient.zero, phase := .count })

/-- R92 to R94, R97: dispatch of DECOMPRESS clears the transient state, tests the length, and starts
PARSE. -/
def Obligations.DecompressDispatches : Prop :=
  ∀ s : State,
    (s.cfg.srcCap < s.srcLen → exec .decompress s = .next (s.prologue.raise .badLength)) ∧
    (s.srcLen ≤ s.cfg.srcCap →
      exec .decompress s = .next { s with tr := Transient.zero, phase := .parse })

/-- R99: CLEAR, the word 0x00000003, returns every CSR and all transient state to the reset values and
keeps the bytes of SRC and DST; written while busy it is ignored. -/
def Obligations.ClearRestoresResetValues : Prop :=
  ∀ s : State, (s.accepted 0x00000003#32 → engineStep s = exec .clear s) ∧
    (s.busy = true → hostWriteCsr 0 0x00000003#32 s = .next s) ∧
    ∃ t, exec .clear s = .next t ∧ t.statusWord = 0x00000000#32 ∧ t.srcLen = 0 ∧
    t.dstLen = 0 ∧ t.cmdLatch = 0 ∧ t.tr = Transient.zero ∧
    t = { s with
      srcLenLo := 0, srcLenHi := 0, dstLenLo := 0, dstLenHi := 0, cmdLatch := 0, phase := .idle
      err := none, fail := false, done := false, busy := false, tr := Transient.zero }

/-- R98: every word other than 0x00000000 to 0x00000003 is accepted, and its dispatch raises
IllegalCommand: STATUS 0x00000096; SRC and SRC_LEN are untouched and no phase runs. That the field
`dst` keeps its bytes after the failure is the model's choice (log 23). -/
def Obligations.IllegalWordsFail : Prop :=
  ∀ (w : Word) (s : State), 4 ≤ w.toNat → s.busy = false →
    ∃ t u, hostWriteCsr 0 w s = .next t ∧ t.statusWord = 0x00000001#32 ∧ t.dstLen = 0 ∧
      engineStep t = exec (.illegal w) t ∧ exec (.illegal w) t = .next u ∧
      u.statusWord = 0x00000096#32 ∧ u.failedWith .illegalCommand ∧
      u.src = s.src ∧ u.srcLen = s.srcLen ∧ u.dst = s.dst

/-- R98, R196 on any state: ILLEGAL takes the IllegalCommand error after the prologue, and writes nothing
else. That the field `dst` keeps its bytes after the failure is the model's choice (log 23). -/
def Obligations.IllegalTakesTheError : Prop :=
  ∀ (w : Word) (s : State), exec (.illegal w) s = .next
    { s with
      tr := Transient.zero, dstLenLo := 0, dstLenHi := 0, err := some .illegalCommand
      phase := .idle, fail := true, done := true, busy := false }

/-- R196: `raise` ends the operation, with the kind's code in ERR, and saves nothing; the STATUS words
are those of R186's codes. That the field `dst` and the transient state stay is the model's choice
(log 23). -/
def Obligations.RaiseIsTheFailureEpilogue : Prop :=
  ∀ (k : ErrorKind) (s : State),
    (s.raise k).failedWith k ∧
    s.raise k = { s with
      dstLenLo := 0, dstLenHi := 0, err := some k, phase := .idle, fail := true, done := true
      busy := false } ∧
    (s.raise .emptyInput).statusWord = 0x00000016#32 ∧
    (s.raise .malformedContainer).statusWord = 0x00000046#32 ∧
    (s.raise .sizeMismatch).statusWord = 0x00000056#32 ∧
    (s.raise .freqOverflow).statusWord = 0x00000066#32 ∧
    (s.raise .dstOverflow).statusWord = 0x00000076#32 ∧
    (s.raise .badLength).statusWord = 0x00000086#32 ∧
    (s.raise .illegalCommand).statusWord = 0x00000096#32

/-- R96: the success epilogue with a length that fits the 64-bit DST_LEN. That the field `dst` keeps its
bytes at n and above, and the transient state stays, is the model's choice (log 23); a host read at n
and above is a draw (log 5). -/
def Obligations.SuccessEpilogueRule : Prop :=
  ∀ (n : Nat) (s : State), n < 2 ^ 64 →
    (s.succeed n).dstLen = n ∧ (s.succeed n).statusWord = 0x00000002#32 ∧
    s.succeed n = { s with
      dstLenLo := (s.succeed n).dstLenLo, dstLenHi := (s.succeed n).dstLenHi, phase := .idle
      err := none, fail := false, done := true, busy := false }

/-! ## Phases: results -/

/-- R130 to R132: COUNT counts the bytes of the input into FREQ and the distinct ones into NSYM. -/
def Obligations.CountCountsTheInput : Prop :=
  ∀ s : State, s.cmdLatch = 1#32 → s.srcLen ≤ s.cfg.srcCap →
    s.tr.freq = Vector.replicate 256 0 → (∀ b, s.input.count b < 2 ^ 32) →
    ∃ t, exec .count s = .next t ∧
      t = { s with
        phase := .build
        tr := { s.tr with freq := t.tr.freq, nsym := s.input.dedup.length, rptr := s.srcLen } } ∧
      ∀ b, (t.tr.freqAt b).toNat = s.input.count b

/-- R131: COUNT never wraps a counter; a count that does not fit in 32 bits ends the command with
FreqOverflow. That the field `dst` keeps its bytes after the failure is the model's choice (log 23). -/
def Obligations.CountOverflowFails : Prop :=
  ∀ s : State, s.cmdLatch = 1#32 → s.srcLen ≤ s.cfg.srcCap →
    (∃ b, 2 ^ 32 ≤ (s.tr.freqAt b).toNat + s.input.count b) →
    ∃ t, exec .count s = .next t ∧ t.failedWith .freqOverflow ∧ t.statusWord = 0x00000066#32 ∧
      t.src = s.src ∧ t.dst = s.dst ∧ t.srcLen = s.srcLen

/-- R112: PopMin takes out of the queue its least element in the order of R112, and answers unless the
queue is empty. -/
def Obligations.PopMinTakesTheLeast : Prop :=
  ∀ t : Transient,
    (t.popMin = none ↔ t.queueEmpty) ∧
    ∀ i t', t.popMin = some (i, t') →
      t.inqAt i = true ∧ t' = t.setInq i false ∧
      ∀ j, t.inqAt j = true → j ≠ i →
        t.weightAt i < t.weightAt j ∨ (t.weightAt i = t.weightAt j ∧ i < j)

/-- 41_tree_builder.md R110, R111, R113, R114 and 10_state.md R31: BUILD of a non-empty table completes
from an empty queue, leaves the root alone in the queue, and the arena in the shape of R31. -/
def Obligations.BuildMakesTheTree : Prop :=
  ∀ s : State, (s.cmdLatch = 1#32 ∨ s.cmdLatch = 2#32) → s.tr.alphabetSize ≠ 0 →
    s.tr.queueEmpty →
    ∃ t, exec .build s = .next t ∧
      t = { s with
        phase := if s.cmdLatch = 1#32 then .gencode else .decode
        tr := { s.tr with
          node := t.tr.node, inq := t.tr.inq, nextFree := 2 * s.tr.alphabetSize - 1
          root := 2 * s.tr.alphabetSize - 2, treeValid := true } } ∧
      t.tr.arenaInv s.tr.alphabetSize ∧
      (∀ i, t.tr.inqAt i = true ↔ i = t.tr.root) ∧
      (∀ i, 2 * s.tr.alphabetSize - 1 ≤ i → t.tr.nodeAt i = s.tr.nodeAt i) ∧
      t.tr.weightAt t.tr.root = (s.tr.entries.map fun e => e.2.toNat).sum

/-- 41_tree_builder.md R113: of two children the left one, popped first, is not heavier, and of two
equally heavy ones it has the smaller index. -/
def Obligations.BuildPutsTheLighterLeft : Prop :=
  ∀ t t' : Transient, t.queueEmpty → buildTree t = some t' →
    ∀ i v, t.alphabetSize ≤ i → i < 2 * t.alphabetSize - 1 → t'.nodeAt i = some v →
      t'.weightAt v.left < t'.weightAt v.right ∨
        (t'.weightAt v.left = t'.weightAt v.right ∧ v.left < v.right)

/-- R115: BUILD is a function of FREQ alone: from an empty queue, equal tables give equal nodes and an
equal root. -/
def Obligations.BuildDependsOnFreqAlone : Prop :=
  ∀ t u : Transient, t.freq = u.freq → t.queueEmpty → u.queueEmpty → t.alphabetSize ≠ 0 →
    ∃ t' u', buildTree t = some t' ∧ buildTree u = some u' ∧ t'.root = u'.root ∧
      ∀ i, i < 2 * t.alphabetSize - 1 → t'.nodeAt i = u'.nodeAt i

/-- 41_tree_builder.md R117: every weight BUILD makes fits the 40-bit field: the exact sums never wrap. -/
def Obligations.BuildWeightsFitTheirField : Prop :=
  ∀ t t' : Transient, t.queueEmpty → t.alphabetSize ≠ 0 → buildTree t = some t' →
    ∀ i, i < 2 * t.alphabetSize - 1 → t'.weightAt i < 2 ^ 40

/-- 41_tree_builder.md R116: with an empty table BUILD makes no tree, and the sequencer reports EmptyInput
in COMPRESS and MalformedContainer in DECOMPRESS. -/
def Obligations.EmptyTableMakesNoTree : Prop :=
  ∀ s : State, s.tr.alphabetSize = 0 →
    (s.cmdLatch = 1#32 → exec .build s = .next
      (({ s with tr := { s.tr with treeValid := false } }).raise .emptyInput)) ∧
    (s.cmdLatch = 2#32 → exec .build s = .next
      (({ s with tr := { s.tr with treeValid := false } }).raise .malformedContainer))

/-- R121: GENCODE over a tree with an internal root gives every leaf's symbol the path to that leaf, of
1 to 255 bits, and leaves the entry of every other symbol alone. -/
def Obligations.GencodeAssignsThePaths : Prop :=
  ∀ s : State, s.cmdLatch = 1#32 → s.tr.treeValid = true → s.tr.isTree 256 s.tr.root = true →
    s.tr.rootIsLeaf = false →
    (∀ p q c, s.tr.leafSymbol s.tr.root p = some c → s.tr.leafSymbol s.tr.root q = some c → p = q) →
    ∃ t, exec .gencode s = .next t ∧
      t = { s with phase := .frame, tr := { s.tr with code := t.tr.code } } ∧
      (∀ p c, s.tr.leafSymbol s.tr.root p = some c →
        1 ≤ p.length ∧ p.length ≤ 255 ∧ t.tr.codeAt c = ⟨BitVec.ofNat 8 p.length, p⟩) ∧
      ∀ c, (∀ p, s.tr.leafSymbol s.tr.root p ≠ some c) → t.tr.codeAt c = s.tr.codeAt c

/-- R122, R125: a lone leaf gets the one-bit code 0, and without a tree nothing is written. -/
def Obligations.GencodeWithoutAnInternalRoot : Prop :=
  ∀ s : State, s.cmdLatch = 1#32 →
    (∀ v, s.tr.treeValid = true → s.tr.nodeAt s.tr.root = some v → v.isLeaf = true →
      ∃ t, exec .gencode s = .next t ∧
        t = { s with phase := .frame, tr := { s.tr with code := t.tr.code } } ∧
        t.tr.codeAt v.sym = ⟨1, [false]⟩ ∧
        ∀ c, c ≠ v.sym → t.tr.codeAt c = s.tr.codeAt c) ∧
    (s.tr.treeValid = false → exec .gencode s = .next { s with phase := .frame })

/-- 42_code_generator.md R123: BUILD and GENCODE from cleared codes and an empty queue give every present
symbol a non-empty code of at most max(1, n-1) bits, no present symbol's code a prefix of another's,
and no code to an absent symbol. -/
def Obligations.CodesAreAPrefixCode : Prop :=
  ∀ t : Transient, t.queueEmpty → t.alphabetSize ≠ 0 → (∀ c, t.codeAt c = Code.empty) →
    ∃ t1 t2, buildTree t = some t1 ∧ generateCodes t1 = some t2 ∧
      (∀ c, t.freqAt c ≠ 0 → (t2.codeAt c).len.toNat = (t2.codeAt c).bits.length ∧
        1 ≤ (t2.codeAt c).bits.length ∧
        (t2.codeAt c).bits.length ≤ max 1 (t.alphabetSize - 1)) ∧
      (∀ c d, t.freqAt c ≠ 0 → t.freqAt d ≠ 0 → c ≠ d →
        ¬ (t2.codeAt c).bits <+: (t2.codeAt d).bits) ∧
      ∀ c, t.freqAt c = 0 → t2.codeAt c = Code.empty

/-- 42_code_generator.md R123: for two or more symbols the code is complete: every endless string of
bits begins with the code of exactly one present symbol, so the decoder never meets a bit that leads
nowhere. -/
def Obligations.CodesAreComplete : Prop :=
  ∀ t t1 t2 : Transient, t.queueEmpty → 2 ≤ t.alphabetSize →
    buildTree t = some t1 → generateCodes t1 = some t2 →
    ∀ f : Nat → Bool, ∃ c, (t.freqAt c ≠ 0 ∧
        (t2.codeAt c).bits = (List.range (t2.codeAt c).bits.length).map f) ∧
      ∀ d, t.freqAt d ≠ 0 → (t2.codeAt d).bits = (List.range (t2.codeAt d).bits.length).map f → d = c

/-- R145 to R148: FRAME of a container that fits writes the header and the table, ascending, to DST from
address 0, and no other byte. -/
def Obligations.FrameWritesHeaderAndTable : Prop :=
  ∀ s : State, s.cmdLatch = 1#32 → s.tr.nsym = s.tr.alphabetSize →
    10 + 5 * s.tr.nsym + ceil8 s.tr.codeBits ≤ s.cfg.dstCap →
    ∃ t, exec .frame s = .next t ∧
      t = { s with
        phase := .encode, dst := t.dst
        tr := { s.tr with totalBits := s.tr.codeBits, wptr := 10 + 5 * s.tr.nsym } } ∧
      ∀ a, t.dst.lookup a =
        if a < 10 + 5 * s.tr.nsym then
          (headBytes s.srcLen s.tr.nsym fun b => (s.tr.freqAt b).toNat)[a]?
        else s.dst.lookup a

/-- R146: a container that does not fit fails with DstOverflow before any byte is written. -/
def Obligations.FrameTooLargeFails : Prop :=
  ∀ s : State, s.cmdLatch = 1#32 → s.cfg.dstCap < 10 + 5 * s.tr.nsym + ceil8 s.tr.codeBits →
    ∃ t, exec .frame s = .next t ∧ t.failedWith .dstOverflow ∧ t.statusWord = 0x00000076#32 ∧
      t.dst = s.dst ∧ t.src = s.src ∧ t.srcLen = s.srcLen

/-- R135 to R139 and R96: ENCODE writes the codes of the input bytes in order, packed most significant
bit first and padded with zero bits, to DST from WPTR on, writes no other byte, and ends the command
with length WPTR. -/
def Obligations.EncodePacksTheCodes : Prop :=
  ∀ s : State, s.cmdLatch = 1#32 → s.srcLen ≤ s.cfg.srcCap → s.cfg.wf →
    s.tr.wptr + ceil8 s.inputBits.length ≤ s.cfg.dstCap →
    ∃ t, exec .encode s = .next t ∧ t.statusWord = 0x00000002#32 ∧
      t.dstLen = s.tr.wptr + ceil8 s.inputBits.length ∧
      t = { s with
        dst := t.dst, dstLenLo := t.dstLenLo, dstLenHi := t.dstLenHi, phase := .idle, err := none
        fail := false, done := true, busy := false
        tr := { s.tr with
          rptr := s.srcLen, wptr := s.tr.wptr + ceil8 s.inputBits.length, acc := 0, accN := 0 } } ∧
      ∀ a, t.dst.lookup a =
        if s.tr.wptr ≤ a ∧ a < s.tr.wptr + ceil8 s.inputBits.length then
          (packBits s.inputBits)[a - s.tr.wptr]?
        else s.dst.lookup a

/-- R155 to R163: PARSE accepts exactly the well-formed containers; it then fails with DstOverflow if the
declared count exceeds DST_CAP, and otherwise fills the header registers, FREQ and the payload's
bounds. It writes no buffer. -/
def Obligations.ParseAcceptsWellFormedContainers : Prop :=
  ∀ s : State, s.cmdLatch = 2#32 → s.srcLen ≤ s.cfg.srcCap →
    s.tr.freq = Vector.replicate 256 0 →
    (¬ wellFormedContainer s.input →
      ∃ t, exec .parse s = .next t ∧ t.failedWith .malformedContainer ∧ t.dst = s.dst) ∧
    (wellFormedContainer s.input → s.cfg.dstCap < fieldAt s.input 0 8 →
      ∃ t, exec .parse s = .next t ∧ t.failedWith .dstOverflow ∧ t.dst = s.dst) ∧
    (wellFormedContainer s.input → fieldAt s.input 0 8 ≤ s.cfg.dstCap →
      ∃ t, exec .parse s = .next t ∧
        t = { s with
          phase := .build
          tr := { s.tr with
            origCount := t.tr.origCount, tableN := t.tr.tableN, freq := t.tr.freq
            nsym := entryCount s.input, payBase := 10 + 5 * entryCount s.input
            payLen := s.srcLen - (10 + 5 * entryCount s.input)
            rptr := 10 + 5 * entryCount s.input } } ∧
        t.tr.origCount.toNat = fieldAt s.input 0 8 ∧ t.tr.tableN.toNat = entryCount s.input ∧
        ∀ b, (t.tr.freqAt b).toNat = entryFreq (entriesOf s.input (entryCount s.input)) b)

/-- R170 to R176 and R96: DECODE over a tree walks the payload bits under the limit, and writes the first
ORIG_COUNT symbols to DST from address 0 and no other byte; with fewer symbols than ORIG_COUNT it
fails with SizeMismatch. -/
def Obligations.DecodeWalksTheTree : Prop :=
  ∀ s : State, s.cmdLatch = 2#32 → s.tr.treeValid = true → s.tr.isTree 256 s.tr.root = true →
    s.tr.origCount.toNat ≤ s.cfg.dstCap → s.tr.payBase + s.tr.payLen ≤ s.cfg.srcCap →
    ∀ out, out = (s.tr.walk s.payloadBits).take s.tr.origCount.toNat →
    (out.length = s.tr.origCount.toNat →
      ∃ t, exec .decode s = .next t ∧ t.statusWord = 0x00000002#32 ∧ t.dstLen = out.length ∧
        t = { s with
          dst := t.dst, dstLenLo := t.dstLenLo, dstLenHi := t.dstLenHi, phase := .idle, err := none
          fail := false, done := true, busy := false
          tr := { s.tr with
            limit := bitLimit s.tr.payLen s.tr.origCount.toNat, bitpos := t.tr.bitpos
            cur := s.tr.root, emitted := s.tr.origCount.toNat, wptr := s.tr.origCount.toNat } } ∧
        ∀ a, t.dst.lookup a = if a < out.length then out[a]? else s.dst.lookup a) ∧
    (out.length ≠ s.tr.origCount.toNat →
      ∃ t, exec .decode s = .next t ∧ t.failedWith .sizeMismatch ∧ t.src = s.src ∧
        ∀ a, out.length ≤ a → t.dst.lookup a = s.dst.lookup a)

/-! ## Frames -/

/-- 10_state.md R13, R16, R18, R55 and 60_exceptions.md R197: no instruction changes SRC, the
configuration or anything of the host's, and none but CLEAR changes SRC_LEN or CMD_LATCH. -/
def Obligations.InstructionsKeepInputAndHost : Prop :=
  ∀ (i : Instr) (s t : State), exec i s = .next t →
    t.cfg = s.cfg ∧ t.src = s.src ∧ t.epoch = s.epoch ∧ t.draws = s.draws ∧
    t.script = s.script ∧ t.seen = s.seen ∧ t.sched = s.sched ∧
    (i ≠ .clear → t.srcLenLo = s.srcLenLo ∧ t.srcLenHi = s.srcLenHi ∧ t.cmdLatch = s.cmdLatch)

/-- 10_state.md R14 and R21: an instruction leaves the flags and DST_LEN alone, or ends the command in
failure with DST_LEN = 0, or is a last phase ending in success, or is CLEAR. -/
def Obligations.FlagsChangeOnlyInEpilogues : Prop :=
  ∀ (i : Instr) (s t : State), exec i s = .next t →
    (t.busy = s.busy ∧ t.done = s.done ∧ t.fail = s.fail ∧ t.err = s.err ∧
      t.dstLenLo = s.dstLenLo ∧ t.dstLenHi = s.dstLenHi) ∨
    (∃ k, t.failedWith k) ∨
    ((i = .encode ∨ i = .decode) ∧ t.busy = false ∧ t.done = true ∧ t.fail = false ∧ t.err = none ∧
      t.phase = .idle ∧ t.dstLenLo = loHalf t.tr.wptr ∧ t.dstLenHi = hiHalf t.tr.wptr) ∨
    (i = .clear ∧ t.statusWord = 0x00000000#32 ∧ t.dstLen = 0)

/-- 10_state.md R20 and R28, column "written by": each phase writes, of the transient state, only the
registers and arrays its rule names, however it ends. -/
def Obligations.PhasesWriteOnlyTheirRegisters : Prop :=
  ∀ s t : State,
    (exec .count s = .next t →
      t.tr = { s.tr with freq := t.tr.freq, nsym := t.tr.nsym, rptr := t.tr.rptr }) ∧
    (exec .build s = .next t →
      t.tr = { s.tr with
        node := t.tr.node, inq := t.tr.inq, nextFree := t.tr.nextFree, root := t.tr.root
        treeValid := t.tr.treeValid }) ∧
    (exec .gencode s = .next t → t.tr = { s.tr with code := t.tr.code }) ∧
    (exec .frame s = .next t →
      t.tr = { s.tr with totalBits := t.tr.totalBits, wptr := t.tr.wptr }) ∧
    (exec .encode s = .next t →
      t.tr = { s.tr with
        rptr := t.tr.rptr, wptr := t.tr.wptr, acc := t.tr.acc, accN := t.tr.accN }) ∧
    (exec .parse s = .next t →
      t.tr = { s.tr with
        origCount := t.tr.origCount, tableN := t.tr.tableN, freq := t.tr.freq, nsym := t.tr.nsym
        payBase := t.tr.payBase, payLen := t.tr.payLen, rptr := t.tr.rptr }) ∧
    (exec .decode s = .next t →
      t.tr = { s.tr with
        wptr := t.tr.wptr, bitpos := t.tr.bitpos, cur := t.tr.cur, emitted := t.tr.emitted
        limit := t.tr.limit })

/-- 20_memory.md R55: which bytes of DST an instruction leaves alone, however it ends: all of them for
every instruction but FRAME, ENCODE and DECODE; for FRAME those past the table (all of them on an
error); for ENCODE those below the WPTR it starts at and from the WPTR it ends at; for DECODE those
from the WPTR it ends at. -/
def Obligations.DstBytesOutsideTheStreamStay : Prop :=
  ∀ (i : Instr) (s t : State), exec i s = .next t → ∀ a,
    (i ≠ .frame → i ≠ .encode → i ≠ .decode → t.dst.lookup a = s.dst.lookup a) ∧
    (i = .frame → (10 + 5 * s.tr.alphabetSize ≤ a ∨ t.err = some .dstOverflow ∧ t.busy = false) →
      s.busy = true → t.dst.lookup a = s.dst.lookup a) ∧
    (i = .encode → (a < s.tr.wptr ∨ t.tr.wptr ≤ a) → t.dst.lookup a = s.dst.lookup a) ∧
    (i = .decode → t.tr.wptr ≤ a → t.dst.lookup a = s.dst.lookup a)

/-! ## The step -/

/-- R92, R100: when the control word the engine acts on decodes to i, the engine's turn is exec of i;
past the end of the schedule it is the engine's turn while busy (that the schedule is a list in the
state is the model's choice, log 2). NOP runs at the host's write of the zero word. -/
def Obligations.StepRunsTheDecodedInstruction : Prop :=
  ∀ (s : State) (i : Instr) (rest : List Turn) (more : List ScriptItem),
    (s.busy = true → s.cmdLatch ≠ 0 → decode s.controlWord = .ok i →
      (s.sched = [] → step s = exec i s) ∧
      (s.sched = .engine :: rest → step s = exec i { s with sched := rest })) ∧
    (s.busy = false → s.script = .op (.writeCsr 0 0) :: more →
      (s.sched = [] → step s = exec .nop { s with script := more }) ∧
      (s.sched = .host :: rest → step s = exec .nop { s with sched := rest, script := more }))

/-- The placing of an opcode-table row (log 11): the next step runs the instruction the row decodes to,
and nothing of the host's, of SRC or of the configuration is changed by the placing, but that for
NOP the host's script is the one write of the zero word, which the step takes off. -/
def Obligations.PlacedWordRunsNext : Prop :=
  ∀ (s : State) (nbits w : Nat) (i : Instr), decodeTableWord nbits w = some i →
    (s.withFetchWord nbits w).src = s.src ∧ (s.withFetchWord nbits w).cfg = s.cfg ∧
    (s.withFetchWord nbits w).srcLen = s.srcLen ∧
    step (s.withFetchWord nbits w) = exec i
      { s.withFetchWord nbits w with script := if i = .nop then [] else s.script }

/-- R19, R95, R97: PHASE advances only along the path of the latched command, from IDLE to its first
phase, or drops to IDLE. -/
def Obligations.PhaseAdvancesAlongThePath : Prop :=
  ∀ s t : State, s.busy = true → engineStep s = .next t →
    t.phase = .idle ∨
    (s.phase = .idle ∧ (phasePath s.cmdLatch).head? = some t.phase) ∨
    phaseAfter s.phase (phasePath s.cmdLatch) = some (some t.phase)

/-- 20_memory.md R50, R52: a move of the host while BUSY = 1 changes nothing of what the engine does
next. -/
def Obligations.BusyHostMovesDoNotDisturbTheEngine : Prop :=
  ∀ s t s' : State, s.busy = true → hostStep s = .next t → engineStep s = .next s' →
    engineStep t = .next { s' with script := t.script, seen := t.seen, draws := t.draws }

/-- 20_memory.md R55: the engine never reads DST: with other bytes there it does the same, DST apart, and
each byte of DST is then the same in both cases or has been left alone in both. -/
def Obligations.EngineNeverReadsDst : Prop :=
  ∀ (s t : State) (m : Memory), engineStep s = .next t →
    ∃ m', engineStep { s with dst := m } = .next { t with dst := m' } ∧
      ∀ a, m'.lookup a = t.dst.lookup a ∨
        (m'.lookup a = m.lookup a ∧ t.dst.lookup a = s.dst.lookup a)

/-! ## Invariants -/

/-- The invariant holds at reset (10_state.md R30), whatever the capacities. -/
def Obligations.InvariantAtReset : Prop := State.reset.Inv ∧ State.reset.tr.WidthsFit

/-- 10_state.md R12, R14, R16, R17, R19, R21, R31: from every state that meets the invariant, every step,
of the engine, of the host or of reset, leads to one that does. -/
def Obligations.EveryStepKeepsTheInvariant : Prop :=
  ∀ s t : State, s.Inv → step s = .next t → t.Inv

/-- 10_state.md R20, R24, R28: no register of the engine outgrows the width the spec gives it. -/
def Obligations.EveryStepKeepsTheWidths : Prop :=
  ∀ s t : State, s.Inv → s.tr.WidthsFit → step s = .next t → t.tr.WidthsFit

/-- 70_reset_and_hazards.md R222 and 93_implementation_defined.md ("Nothing in HUFFCORE is stuck"): from a
state that meets the invariant no step faults, and only a host access at or above a capacity is
refused. -/
def Obligations.NoStepIsStuck : Prop :=
  ∀ s : State, s.Inv →
    (∃ t, step s = .next t) ∨ (∃ a, step s = .refused (.noSuchSrcByte a) ∧ s.cfg.srcCap ≤ a) ∨
      (∃ a, step s = .refused (.noSuchDstByte a) ∧ s.cfg.dstCap ≤ a)

/-- 70_reset_and_hazards.md R222: every accepted command ends, within six steps of the engine at the
model's grain (log 1), from wherever it stands. -/
def Obligations.EveryCommandEnds : Prop :=
  ∀ s : State, s.Inv → ∃ t, engineRun maxEngineSteps s = .next t ∧ t.busy = false

/-! ## The operations -/

/-- R101 with R192: from acceptance to its end COMPRESS is the function `Compress` of the input bytes: the
same container in DST, or the same error. -/
def Obligations.CompressIsItsFunction : Prop :=
  ∀ s : State, s.accepted 1#32 → s.cfg.wf →
    ∃ t, engineRun maxEngineSteps s = .next t ∧ t.src = s.src ∧ t.srcLen = s.srcLen ∧
      (∀ out, compressRef s.cfg s.input = .ok out → t.endedWith out) ∧
      ∀ k, compressRef s.cfg s.input = .error k → t.failedWith k

/-- R102 with R192: from acceptance to its end DECOMPRESS is the function `Decompress` of the container's
bytes. -/
def Obligations.DecompressIsItsFunction : Prop :=
  ∀ s : State, s.accepted 2#32 → s.cfg.wf →
    ∃ t, engineRun maxEngineSteps s = .next t ∧ t.src = s.src ∧ t.srcLen = s.srcLen ∧
      (∀ out, decompressRef s.cfg s.input = .ok out → t.endedWith out) ∧
      ∀ k, decompressRef s.cfg s.input = .error k → t.failedWith k

/-- 47_decoder.md R177: the round-trip law. If COMPRESS of s's input ends well with a container, then
DECOMPRESS of that container, where the input fits DST, ends well with the input. -/
def Obligations.RoundTrip : Prop :=
  ∀ (s t u : State) (container : List Byte), s.accepted 1#32 → s.cfg.wf →
    engineRun maxEngineSteps s = .next t → t.endedWith container →
    u.accepted 2#32 → u.cfg.wf → u.input = container → container.length ≤ u.cfg.srcCap →
    s.srcLen ≤ u.cfg.dstCap →
    ∃ v, engineRun maxEngineSteps u = .next v ∧ v.endedWith s.input

/-- 47_decoder.md R178: a container that COMPRESS made, cut short by one byte or more, is never
decompressed: SizeMismatch if the header and the table are left, MalformedContainer otherwise. -/
def Obligations.TruncationIsDetected : Prop :=
  ∀ (s t u : State) (container : List Byte) (j : Nat), s.accepted 1#32 → s.cfg.wf →
    engineRun maxEngineSteps s = .next t → t.endedWith container →
    1 ≤ j → j ≤ container.length →
    u.accepted 2#32 → u.cfg.wf → u.input = container.take (container.length - j) →
    container.length ≤ u.cfg.srcCap → s.srcLen ≤ u.cfg.dstCap →
    ∃ v, engineRun maxEngineSteps u = .next v ∧
      v.failedWith
        (if 10 + 5 * s.input.dedup.length ≤ container.length - j then .sizeMismatch
        else .malformedContainer)

/-- 40_commands.md R101, the functions `Build` and `GenCode`: the codes they give spend at most 8 bits for
each symbol of the input (47_decoder.md R171: T ≤ 8 · ORIG_COUNT). It speaks of the reference
functions; the machine's own trees and containers are in CompressPayloadIsNoLongerThanTheInput. -/
def Obligations.BuildAndGenCodeSpendAtMostEightBits : Prop :=
  ∀ (f : Byte → Nat) (t : HTree), buildRef f = some t →
    (allSymbols.map fun c => f c * (t.code c).length).sum ≤ 8 * (allSymbols.map f).sum

/-- R2: what COMPRESS and DECOMPRESS leave for the host depends on the command and the bytes
`SRC[0 .. SRC_LEN-1]` alone, whatever else the states hold. -/
def Obligations.OperationsArePure : Prop :=
  ∀ (s u : State) (w : Word), (w = 1#32 ∨ w = 2#32) → s.accepted w → u.accepted w →
    s.cfg = u.cfg → s.cfg.wf → s.input = u.input →
    ∃ t v, engineRun maxEngineSteps s = .next t ∧ engineRun maxEngineSteps u = .next v ∧
      t.statusWord = v.statusWord ∧ t.dstLen = v.dstLen ∧
      ∀ a, a < t.dstLen → t.dst.lookup a = v.dst.lookup a

/-- 47_decoder.md R171, 00_scope.md section 3: what BUILD and GENCODE make of a frequency table spends at
most 8 bits for each counted symbol, and the payload of a container that COMPRESS makes, the part after
its header and table, has at most as many bytes as the input. -/
def Obligations.CompressPayloadIsNoLongerThanTheInput : Prop :=
  (∀ t t1 t2 : Transient, t.queueEmpty → buildTree t = some t1 → generateCodes t1 = some t2 →
    t2.codeBits ≤ 8 * (t.entries.map fun e => e.2.toNat).sum) ∧
  ∀ (s t : State) (container : List Byte), s.accepted 1#32 → s.cfg.wf →
    engineRun maxEngineSteps s = .next t → t.endedWith container →
    container.length ≤ 10 + 5 * s.input.dedup.length + s.srcLen
end

