-- ==== Sys2Proof/Laws/State.lean ====
section
/-! SUPPORT. One lemma per field per update of the state, each true by computation, so that no later
proof unfolds a record update. -/

namespace Sys2Proof.Machine

/-! ### State.withTr -/

@[simp] theorem State.withTr_cfg (s : State) (f : Transient → Transient) : (s.withTr f).cfg = s.cfg := rfl
@[simp] theorem State.withTr_srcLenLo (s : State) (f : Transient → Transient) : (s.withTr f).srcLenLo = s.srcLenLo := rfl
@[simp] theorem State.withTr_srcLenHi (s : State) (f : Transient → Transient) : (s.withTr f).srcLenHi = s.srcLenHi := rfl
@[simp] theorem State.withTr_dstLenLo (s : State) (f : Transient → Transient) : (s.withTr f).dstLenLo = s.dstLenLo := rfl
@[simp] theorem State.withTr_dstLenHi (s : State) (f : Transient → Transient) : (s.withTr f).dstLenHi = s.dstLenHi := rfl
@[simp] theorem State.withTr_src (s : State) (f : Transient → Transient) : (s.withTr f).src = s.src := rfl
@[simp] theorem State.withTr_dst (s : State) (f : Transient → Transient) : (s.withTr f).dst = s.dst := rfl
@[simp] theorem State.withTr_cmdLatch (s : State) (f : Transient → Transient) : (s.withTr f).cmdLatch = s.cmdLatch := rfl
@[simp] theorem State.withTr_phase (s : State) (f : Transient → Transient) : (s.withTr f).phase = s.phase := rfl
@[simp] theorem State.withTr_busy (s : State) (f : Transient → Transient) : (s.withTr f).busy = s.busy := rfl
@[simp] theorem State.withTr_done (s : State) (f : Transient → Transient) : (s.withTr f).done = s.done := rfl
@[simp] theorem State.withTr_fail (s : State) (f : Transient → Transient) : (s.withTr f).fail = s.fail := rfl
@[simp] theorem State.withTr_err (s : State) (f : Transient → Transient) : (s.withTr f).err = s.err := rfl
@[simp] theorem State.withTr_tr (s : State) (f : Transient → Transient) : (s.withTr f).tr = f s.tr := rfl
@[simp] theorem State.withTr_epoch (s : State) (f : Transient → Transient) : (s.withTr f).epoch = s.epoch := rfl
@[simp] theorem State.withTr_draws (s : State) (f : Transient → Transient) : (s.withTr f).draws = s.draws := rfl
@[simp] theorem State.withTr_script (s : State) (f : Transient → Transient) : (s.withTr f).script = s.script := rfl
@[simp] theorem State.withTr_seen (s : State) (f : Transient → Transient) : (s.withTr f).seen = s.seen := rfl
@[simp] theorem State.withTr_sched (s : State) (f : Transient → Transient) : (s.withTr f).sched = s.sched := rfl

/-! ### State.setDstLen -/

@[simp] theorem State.setDstLen_cfg (s : State) (n : Nat) : (s.setDstLen n).cfg = s.cfg := rfl
@[simp] theorem State.setDstLen_srcLenLo (s : State) (n : Nat) : (s.setDstLen n).srcLenLo = s.srcLenLo := rfl
@[simp] theorem State.setDstLen_srcLenHi (s : State) (n : Nat) : (s.setDstLen n).srcLenHi = s.srcLenHi := rfl
@[simp] theorem State.setDstLen_dstLenLo (s : State) (n : Nat) : (s.setDstLen n).dstLenLo = loHalf n := rfl
@[simp] theorem State.setDstLen_dstLenHi (s : State) (n : Nat) : (s.setDstLen n).dstLenHi = hiHalf n := rfl
@[simp] theorem State.setDstLen_src (s : State) (n : Nat) : (s.setDstLen n).src = s.src := rfl
@[simp] theorem State.setDstLen_dst (s : State) (n : Nat) : (s.setDstLen n).dst = s.dst := rfl
@[simp] theorem State.setDstLen_cmdLatch (s : State) (n : Nat) : (s.setDstLen n).cmdLatch = s.cmdLatch := rfl
@[simp] theorem State.setDstLen_phase (s : State) (n : Nat) : (s.setDstLen n).phase = s.phase := rfl
@[simp] theorem State.setDstLen_busy (s : State) (n : Nat) : (s.setDstLen n).busy = s.busy := rfl
@[simp] theorem State.setDstLen_done (s : State) (n : Nat) : (s.setDstLen n).done = s.done := rfl
@[simp] theorem State.setDstLen_fail (s : State) (n : Nat) : (s.setDstLen n).fail = s.fail := rfl
@[simp] theorem State.setDstLen_err (s : State) (n : Nat) : (s.setDstLen n).err = s.err := rfl
@[simp] theorem State.setDstLen_tr (s : State) (n : Nat) : (s.setDstLen n).tr = s.tr := rfl
@[simp] theorem State.setDstLen_epoch (s : State) (n : Nat) : (s.setDstLen n).epoch = s.epoch := rfl
@[simp] theorem State.setDstLen_draws (s : State) (n : Nat) : (s.setDstLen n).draws = s.draws := rfl
@[simp] theorem State.setDstLen_script (s : State) (n : Nat) : (s.setDstLen n).script = s.script := rfl
@[simp] theorem State.setDstLen_seen (s : State) (n : Nat) : (s.setDstLen n).seen = s.seen := rfl
@[simp] theorem State.setDstLen_sched (s : State) (n : Nat) : (s.setDstLen n).sched = s.sched := rfl

/-! ### State.accept -/

@[simp] theorem State.accept_cfg (s : State) (v : Word) : (s.accept v).cfg = s.cfg := rfl
@[simp] theorem State.accept_srcLenLo (s : State) (v : Word) : (s.accept v).srcLenLo = s.srcLenLo := rfl
@[simp] theorem State.accept_srcLenHi (s : State) (v : Word) : (s.accept v).srcLenHi = s.srcLenHi := rfl
@[simp] theorem State.accept_dstLenLo (s : State) (v : Word) : (s.accept v).dstLenLo = 0 := rfl
@[simp] theorem State.accept_dstLenHi (s : State) (v : Word) : (s.accept v).dstLenHi = 0 := rfl
@[simp] theorem State.accept_src (s : State) (v : Word) : (s.accept v).src = s.src := rfl
@[simp] theorem State.accept_dst (s : State) (v : Word) : (s.accept v).dst = s.dst := rfl
@[simp] theorem State.accept_cmdLatch (s : State) (v : Word) : (s.accept v).cmdLatch = v := rfl
@[simp] theorem State.accept_phase (s : State) (v : Word) : (s.accept v).phase = .idle := rfl
@[simp] theorem State.accept_busy (s : State) (v : Word) : (s.accept v).busy = true := rfl
@[simp] theorem State.accept_done (s : State) (v : Word) : (s.accept v).done = false := rfl
@[simp] theorem State.accept_fail (s : State) (v : Word) : (s.accept v).fail = false := rfl
@[simp] theorem State.accept_err (s : State) (v : Word) : (s.accept v).err = none := rfl
@[simp] theorem State.accept_tr (s : State) (v : Word) : (s.accept v).tr = s.tr := rfl
@[simp] theorem State.accept_epoch (s : State) (v : Word) : (s.accept v).epoch = s.epoch := rfl
@[simp] theorem State.accept_draws (s : State) (v : Word) : (s.accept v).draws = s.draws := rfl
@[simp] theorem State.accept_script (s : State) (v : Word) : (s.accept v).script = s.script := rfl
@[simp] theorem State.accept_seen (s : State) (v : Word) : (s.accept v).seen = s.seen := rfl
@[simp] theorem State.accept_sched (s : State) (v : Word) : (s.accept v).sched = s.sched := rfl

/-! ### State.prologue -/

@[simp] theorem State.prologue_cfg (s : State) : (s.prologue).cfg = s.cfg := rfl
@[simp] theorem State.prologue_srcLenLo (s : State) : (s.prologue).srcLenLo = s.srcLenLo := rfl
@[simp] theorem State.prologue_srcLenHi (s : State) : (s.prologue).srcLenHi = s.srcLenHi := rfl
@[simp] theorem State.prologue_dstLenLo (s : State) : (s.prologue).dstLenLo = s.dstLenLo := rfl
@[simp] theorem State.prologue_dstLenHi (s : State) : (s.prologue).dstLenHi = s.dstLenHi := rfl
@[simp] theorem State.prologue_src (s : State) : (s.prologue).src = s.src := rfl
@[simp] theorem State.prologue_dst (s : State) : (s.prologue).dst = s.dst := rfl
@[simp] theorem State.prologue_cmdLatch (s : State) : (s.prologue).cmdLatch = s.cmdLatch := rfl
@[simp] theorem State.prologue_phase (s : State) : (s.prologue).phase = s.phase := rfl
@[simp] theorem State.prologue_busy (s : State) : (s.prologue).busy = s.busy := rfl
@[simp] theorem State.prologue_done (s : State) : (s.prologue).done = s.done := rfl
@[simp] theorem State.prologue_fail (s : State) : (s.prologue).fail = s.fail := rfl
@[simp] theorem State.prologue_err (s : State) : (s.prologue).err = s.err := rfl
@[simp] theorem State.prologue_tr (s : State) : (s.prologue).tr = Transient.zero := rfl
@[simp] theorem State.prologue_epoch (s : State) : (s.prologue).epoch = s.epoch := rfl
@[simp] theorem State.prologue_draws (s : State) : (s.prologue).draws = s.draws := rfl
@[simp] theorem State.prologue_script (s : State) : (s.prologue).script = s.script := rfl
@[simp] theorem State.prologue_seen (s : State) : (s.prologue).seen = s.seen := rfl
@[simp] theorem State.prologue_sched (s : State) : (s.prologue).sched = s.sched := rfl

/-! ### State.raise -/

@[simp] theorem State.raise_cfg (s : State) (k : ErrorKind) : (s.raise k).cfg = s.cfg := rfl
@[simp] theorem State.raise_srcLenLo (s : State) (k : ErrorKind) : (s.raise k).srcLenLo = s.srcLenLo := rfl
@[simp] theorem State.raise_srcLenHi (s : State) (k : ErrorKind) : (s.raise k).srcLenHi = s.srcLenHi := rfl
@[simp] theorem State.raise_dstLenLo (s : State) (k : ErrorKind) : (s.raise k).dstLenLo = 0 := rfl
@[simp] theorem State.raise_dstLenHi (s : State) (k : ErrorKind) : (s.raise k).dstLenHi = 0 := rfl
@[simp] theorem State.raise_src (s : State) (k : ErrorKind) : (s.raise k).src = s.src := rfl
@[simp] theorem State.raise_dst (s : State) (k : ErrorKind) : (s.raise k).dst = s.dst := rfl
@[simp] theorem State.raise_cmdLatch (s : State) (k : ErrorKind) : (s.raise k).cmdLatch = s.cmdLatch := rfl
@[simp] theorem State.raise_phase (s : State) (k : ErrorKind) : (s.raise k).phase = .idle := rfl
@[simp] theorem State.raise_busy (s : State) (k : ErrorKind) : (s.raise k).busy = false := rfl
@[simp] theorem State.raise_done (s : State) (k : ErrorKind) : (s.raise k).done = true := rfl
@[simp] theorem State.raise_fail (s : State) (k : ErrorKind) : (s.raise k).fail = true := rfl
@[simp] theorem State.raise_err (s : State) (k : ErrorKind) : (s.raise k).err = some k := rfl
@[simp] theorem State.raise_tr (s : State) (k : ErrorKind) : (s.raise k).tr = s.tr := rfl
@[simp] theorem State.raise_epoch (s : State) (k : ErrorKind) : (s.raise k).epoch = s.epoch := rfl
@[simp] theorem State.raise_draws (s : State) (k : ErrorKind) : (s.raise k).draws = s.draws := rfl
@[simp] theorem State.raise_script (s : State) (k : ErrorKind) : (s.raise k).script = s.script := rfl
@[simp] theorem State.raise_seen (s : State) (k : ErrorKind) : (s.raise k).seen = s.seen := rfl
@[simp] theorem State.raise_sched (s : State) (k : ErrorKind) : (s.raise k).sched = s.sched := rfl

/-! ### State.succeed -/

@[simp] theorem State.succeed_cfg (s : State) (n : Nat) : (s.succeed n).cfg = s.cfg := rfl
@[simp] theorem State.succeed_srcLenLo (s : State) (n : Nat) : (s.succeed n).srcLenLo = s.srcLenLo := rfl
@[simp] theorem State.succeed_srcLenHi (s : State) (n : Nat) : (s.succeed n).srcLenHi = s.srcLenHi := rfl
@[simp] theorem State.succeed_dstLenLo (s : State) (n : Nat) : (s.succeed n).dstLenLo = loHalf n := rfl
@[simp] theorem State.succeed_dstLenHi (s : State) (n : Nat) : (s.succeed n).dstLenHi = hiHalf n := rfl
@[simp] theorem State.succeed_src (s : State) (n : Nat) : (s.succeed n).src = s.src := rfl
@[simp] theorem State.succeed_dst (s : State) (n : Nat) : (s.succeed n).dst = s.dst := rfl
@[simp] theorem State.succeed_cmdLatch (s : State) (n : Nat) : (s.succeed n).cmdLatch = s.cmdLatch := rfl
@[simp] theorem State.succeed_phase (s : State) (n : Nat) : (s.succeed n).phase = .idle := rfl
@[simp] theorem State.succeed_busy (s : State) (n : Nat) : (s.succeed n).busy = false := rfl
@[simp] theorem State.succeed_done (s : State) (n : Nat) : (s.succeed n).done = true := rfl
@[simp] theorem State.succeed_fail (s : State) (n : Nat) : (s.succeed n).fail = false := rfl
@[simp] theorem State.succeed_err (s : State) (n : Nat) : (s.succeed n).err = none := rfl
@[simp] theorem State.succeed_tr (s : State) (n : Nat) : (s.succeed n).tr = s.tr := rfl
@[simp] theorem State.succeed_epoch (s : State) (n : Nat) : (s.succeed n).epoch = s.epoch := rfl
@[simp] theorem State.succeed_draws (s : State) (n : Nat) : (s.succeed n).draws = s.draws := rfl
@[simp] theorem State.succeed_script (s : State) (n : Nat) : (s.succeed n).script = s.script := rfl
@[simp] theorem State.succeed_seen (s : State) (n : Nat) : (s.succeed n).seen = s.seen := rfl
@[simp] theorem State.succeed_sched (s : State) (n : Nat) : (s.succeed n).sched = s.sched := rfl

/-! ### State.observe -/

@[simp] theorem State.observe_cfg (s : State) (o : Observation) : (s.observe o).cfg = s.cfg := rfl
@[simp] theorem State.observe_srcLenLo (s : State) (o : Observation) : (s.observe o).srcLenLo = s.srcLenLo := rfl
@[simp] theorem State.observe_srcLenHi (s : State) (o : Observation) : (s.observe o).srcLenHi = s.srcLenHi := rfl
@[simp] theorem State.observe_dstLenLo (s : State) (o : Observation) : (s.observe o).dstLenLo = s.dstLenLo := rfl
@[simp] theorem State.observe_dstLenHi (s : State) (o : Observation) : (s.observe o).dstLenHi = s.dstLenHi := rfl
@[simp] theorem State.observe_src (s : State) (o : Observation) : (s.observe o).src = s.src := rfl
@[simp] theorem State.observe_dst (s : State) (o : Observation) : (s.observe o).dst = s.dst := rfl
@[simp] theorem State.observe_cmdLatch (s : State) (o : Observation) : (s.observe o).cmdLatch = s.cmdLatch := rfl
@[simp] theorem State.observe_phase (s : State) (o : Observation) : (s.observe o).phase = s.phase := rfl
@[simp] theorem State.observe_busy (s : State) (o : Observation) : (s.observe o).busy = s.busy := rfl
@[simp] theorem State.observe_done (s : State) (o : Observation) : (s.observe o).done = s.done := rfl
@[simp] theorem State.observe_fail (s : State) (o : Observation) : (s.observe o).fail = s.fail := rfl
@[simp] theorem State.observe_err (s : State) (o : Observation) : (s.observe o).err = s.err := rfl
@[simp] theorem State.observe_tr (s : State) (o : Observation) : (s.observe o).tr = s.tr := rfl
@[simp] theorem State.observe_epoch (s : State) (o : Observation) : (s.observe o).epoch = s.epoch := rfl
@[simp] theorem State.observe_draws (s : State) (o : Observation) : (s.observe o).draws = s.draws := rfl
@[simp] theorem State.observe_script (s : State) (o : Observation) : (s.observe o).script = s.script := rfl
@[simp] theorem State.observe_seen (s : State) (o : Observation) : (s.observe o).seen = o :: s.seen := rfl
@[simp] theorem State.observe_sched (s : State) (o : Observation) : (s.observe o).sched = s.sched := rfl

/-! ### State.resetEvent -/

@[simp] theorem State.resetEvent_cfg (s : State) : (s.resetEvent).cfg = s.cfg := rfl
@[simp] theorem State.resetEvent_srcLenLo (s : State) : (s.resetEvent).srcLenLo = State.reset.srcLenLo := rfl
@[simp] theorem State.resetEvent_srcLenHi (s : State) : (s.resetEvent).srcLenHi = State.reset.srcLenHi := rfl
@[simp] theorem State.resetEvent_dstLenLo (s : State) : (s.resetEvent).dstLenLo = State.reset.dstLenLo := rfl
@[simp] theorem State.resetEvent_dstLenHi (s : State) : (s.resetEvent).dstLenHi = State.reset.dstLenHi := rfl
@[simp] theorem State.resetEvent_src (s : State) : (s.resetEvent).src = State.reset.src := rfl
@[simp] theorem State.resetEvent_dst (s : State) : (s.resetEvent).dst = State.reset.dst := rfl
@[simp] theorem State.resetEvent_cmdLatch (s : State) : (s.resetEvent).cmdLatch = State.reset.cmdLatch := rfl
@[simp] theorem State.resetEvent_phase (s : State) : (s.resetEvent).phase = State.reset.phase := rfl
@[simp] theorem State.resetEvent_busy (s : State) : (s.resetEvent).busy = State.reset.busy := rfl
@[simp] theorem State.resetEvent_done (s : State) : (s.resetEvent).done = State.reset.done := rfl
@[simp] theorem State.resetEvent_fail (s : State) : (s.resetEvent).fail = State.reset.fail := rfl
@[simp] theorem State.resetEvent_err (s : State) : (s.resetEvent).err = State.reset.err := rfl
@[simp] theorem State.resetEvent_tr (s : State) : (s.resetEvent).tr = State.reset.tr := rfl
@[simp] theorem State.resetEvent_epoch (s : State) : (s.resetEvent).epoch = s.epoch + 1 := rfl
@[simp] theorem State.resetEvent_draws (s : State) : (s.resetEvent).draws = s.draws := rfl
@[simp] theorem State.resetEvent_script (s : State) : (s.resetEvent).script = s.script := rfl
@[simp] theorem State.resetEvent_seen (s : State) : (s.resetEvent).seen = s.seen := rfl
@[simp] theorem State.resetEvent_sched (s : State) : (s.resetEvent).sched = s.sched := rfl

/-! ### Array writes -/

@[simp] theorem Transient.setFreq_rptr (t : Transient) (c : Byte) (v : BitVec 32) : (t.setFreq c v).rptr = t.rptr := rfl
@[simp] theorem Transient.setFreq_wptr (t : Transient) (c : Byte) (v : BitVec 32) : (t.setFreq c v).wptr = t.wptr := rfl
@[simp] theorem Transient.setFreq_bitpos (t : Transient) (c : Byte) (v : BitVec 32) : (t.setFreq c v).bitpos = t.bitpos := rfl
@[simp] theorem Transient.setFreq_cur (t : Transient) (c : Byte) (v : BitVec 32) : (t.setFreq c v).cur = t.cur := rfl
@[simp] theorem Transient.setFreq_treeValid (t : Transient) (c : Byte) (v : BitVec 32) : (t.setFreq c v).treeValid = t.treeValid := rfl
@[simp] theorem Transient.setFreq_origCount (t : Transient) (c : Byte) (v : BitVec 32) : (t.setFreq c v).origCount = t.origCount := rfl
@[simp] theorem Transient.setFreq_tableN (t : Transient) (c : Byte) (v : BitVec 32) : (t.setFreq c v).tableN = t.tableN := rfl
@[simp] theorem Transient.setFreq_nsym (t : Transient) (c : Byte) (v : BitVec 32) : (t.setFreq c v).nsym = t.nsym := rfl
@[simp] theorem Transient.setFreq_nextFree (t : Transient) (c : Byte) (v : BitVec 32) : (t.setFreq c v).nextFree = t.nextFree := rfl
@[simp] theorem Transient.setFreq_root (t : Transient) (c : Byte) (v : BitVec 32) : (t.setFreq c v).root = t.root := rfl
@[simp] theorem Transient.setFreq_payBase (t : Transient) (c : Byte) (v : BitVec 32) : (t.setFreq c v).payBase = t.payBase := rfl
@[simp] theorem Transient.setFreq_payLen (t : Transient) (c : Byte) (v : BitVec 32) : (t.setFreq c v).payLen = t.payLen := rfl
@[simp] theorem Transient.setFreq_limit (t : Transient) (c : Byte) (v : BitVec 32) : (t.setFreq c v).limit = t.limit := rfl
@[simp] theorem Transient.setFreq_emitted (t : Transient) (c : Byte) (v : BitVec 32) : (t.setFreq c v).emitted = t.emitted := rfl
@[simp] theorem Transient.setFreq_totalBits (t : Transient) (c : Byte) (v : BitVec 32) : (t.setFreq c v).totalBits = t.totalBits := rfl
@[simp] theorem Transient.setFreq_acc (t : Transient) (c : Byte) (v : BitVec 32) : (t.setFreq c v).acc = t.acc := rfl
@[simp] theorem Transient.setFreq_accN (t : Transient) (c : Byte) (v : BitVec 32) : (t.setFreq c v).accN = t.accN := rfl
@[simp] theorem Transient.setFreq_node (t : Transient) (c : Byte) (v : BitVec 32) : (t.setFreq c v).node = t.node := rfl
@[simp] theorem Transient.setFreq_inq (t : Transient) (c : Byte) (v : BitVec 32) : (t.setFreq c v).inq = t.inq := rfl
@[simp] theorem Transient.setFreq_code (t : Transient) (c : Byte) (v : BitVec 32) : (t.setFreq c v).code = t.code := rfl

@[simp] theorem Transient.setCode_rptr (t : Transient) (c : Byte) (p : List Bool) : (t.setCode c p).rptr = t.rptr := rfl
@[simp] theorem Transient.setCode_wptr (t : Transient) (c : Byte) (p : List Bool) : (t.setCode c p).wptr = t.wptr := rfl
@[simp] theorem Transient.setCode_bitpos (t : Transient) (c : Byte) (p : List Bool) : (t.setCode c p).bitpos = t.bitpos := rfl
@[simp] theorem Transient.setCode_cur (t : Transient) (c : Byte) (p : List Bool) : (t.setCode c p).cur = t.cur := rfl
@[simp] theorem Transient.setCode_treeValid (t : Transient) (c : Byte) (p : List Bool) : (t.setCode c p).treeValid = t.treeValid := rfl
@[simp] theorem Transient.setCode_origCount (t : Transient) (c : Byte) (p : List Bool) : (t.setCode c p).origCount = t.origCount := rfl
@[simp] theorem Transient.setCode_tableN (t : Transient) (c : Byte) (p : List Bool) : (t.setCode c p).tableN = t.tableN := rfl
@[simp] theorem Transient.setCode_nsym (t : Transient) (c : Byte) (p : List Bool) : (t.setCode c p).nsym = t.nsym := rfl
@[simp] theorem Transient.setCode_nextFree (t : Transient) (c : Byte) (p : List Bool) : (t.setCode c p).nextFree = t.nextFree := rfl
@[simp] theorem Transient.setCode_root (t : Transient) (c : Byte) (p : List Bool) : (t.setCode c p).root = t.root := rfl
@[simp] theorem Transient.setCode_payBase (t : Transient) (c : Byte) (p : List Bool) : (t.setCode c p).payBase = t.payBase := rfl
@[simp] theorem Transient.setCode_payLen (t : Transient) (c : Byte) (p : List Bool) : (t.setCode c p).payLen = t.payLen := rfl
@[simp] theorem Transient.setCode_limit (t : Transient) (c : Byte) (p : List Bool) : (t.setCode c p).limit = t.limit := rfl
@[simp] theorem Transient.setCode_emitted (t : Transient) (c : Byte) (p : List Bool) : (t.setCode c p).emitted = t.emitted := rfl
@[simp] theorem Transient.setCode_totalBits (t : Transient) (c : Byte) (p : List Bool) : (t.setCode c p).totalBits = t.totalBits := rfl
@[simp] theorem Transient.setCode_acc (t : Transient) (c : Byte) (p : List Bool) : (t.setCode c p).acc = t.acc := rfl
@[simp] theorem Transient.setCode_accN (t : Transient) (c : Byte) (p : List Bool) : (t.setCode c p).accN = t.accN := rfl
@[simp] theorem Transient.setCode_freq (t : Transient) (c : Byte) (p : List Bool) : (t.setCode c p).freq = t.freq := rfl
@[simp] theorem Transient.setCode_node (t : Transient) (c : Byte) (p : List Bool) : (t.setCode c p).node = t.node := rfl
@[simp] theorem Transient.setCode_inq (t : Transient) (c : Byte) (p : List Bool) : (t.setCode c p).inq = t.inq := rfl

@[simp] theorem Transient.setNode_rptr (t : Transient) (i : Nat) (v : Node) : (t.setNode i v).rptr = t.rptr := rfl
@[simp] theorem Transient.setNode_wptr (t : Transient) (i : Nat) (v : Node) : (t.setNode i v).wptr = t.wptr := rfl
@[simp] theorem Transient.setNode_bitpos (t : Transient) (i : Nat) (v : Node) : (t.setNode i v).bitpos = t.bitpos := rfl
@[simp] theorem Transient.setNode_cur (t : Transient) (i : Nat) (v : Node) : (t.setNode i v).cur = t.cur := rfl
@[simp] theorem Transient.setNode_treeValid (t : Transient) (i : Nat) (v : Node) : (t.setNode i v).treeValid = t.treeValid := rfl
@[simp] theorem Transient.setNode_origCount (t : Transient) (i : Nat) (v : Node) : (t.setNode i v).origCount = t.origCount := rfl
@[simp] theorem Transient.setNode_tableN (t : Transient) (i : Nat) (v : Node) : (t.setNode i v).tableN = t.tableN := rfl
@[simp] theorem Transient.setNode_nsym (t : Transient) (i : Nat) (v : Node) : (t.setNode i v).nsym = t.nsym := rfl
@[simp] theorem Transient.setNode_nextFree (t : Transient) (i : Nat) (v : Node) : (t.setNode i v).nextFree = t.nextFree := rfl
@[simp] theorem Transient.setNode_root (t : Transient) (i : Nat) (v : Node) : (t.setNode i v).root = t.root := rfl
@[simp] theorem Transient.setNode_payBase (t : Transient) (i : Nat) (v : Node) : (t.setNode i v).payBase = t.payBase := rfl
@[simp] theorem Transient.setNode_payLen (t : Transient) (i : Nat) (v : Node) : (t.setNode i v).payLen = t.payLen := rfl
@[simp] theorem Transient.setNode_limit (t : Transient) (i : Nat) (v : Node) : (t.setNode i v).limit = t.limit := rfl
@[simp] theorem Transient.setNode_emitted (t : Transient) (i : Nat) (v : Node) : (t.setNode i v).emitted = t.emitted := rfl
@[simp] theorem Transient.setNode_totalBits (t : Transient) (i : Nat) (v : Node) : (t.setNode i v).totalBits = t.totalBits := rfl
@[simp] theorem Transient.setNode_acc (t : Transient) (i : Nat) (v : Node) : (t.setNode i v).acc = t.acc := rfl
@[simp] theorem Transient.setNode_accN (t : Transient) (i : Nat) (v : Node) : (t.setNode i v).accN = t.accN := rfl
@[simp] theorem Transient.setNode_freq (t : Transient) (i : Nat) (v : Node) : (t.setNode i v).freq = t.freq := rfl
@[simp] theorem Transient.setNode_inq (t : Transient) (i : Nat) (v : Node) : (t.setNode i v).inq = t.inq := rfl
@[simp] theorem Transient.setNode_code (t : Transient) (i : Nat) (v : Node) : (t.setNode i v).code = t.code := rfl

@[simp] theorem Transient.setInq_rptr (t : Transient) (i : Nat) (v : Bool) : (t.setInq i v).rptr = t.rptr := rfl
@[simp] theorem Transient.setInq_wptr (t : Transient) (i : Nat) (v : Bool) : (t.setInq i v).wptr = t.wptr := rfl
@[simp] theorem Transient.setInq_bitpos (t : Transient) (i : Nat) (v : Bool) : (t.setInq i v).bitpos = t.bitpos := rfl
@[simp] theorem Transient.setInq_cur (t : Transient) (i : Nat) (v : Bool) : (t.setInq i v).cur = t.cur := rfl
@[simp] theorem Transient.setInq_treeValid (t : Transient) (i : Nat) (v : Bool) : (t.setInq i v).treeValid = t.treeValid := rfl
@[simp] theorem Transient.setInq_origCount (t : Transient) (i : Nat) (v : Bool) : (t.setInq i v).origCount = t.origCount := rfl
@[simp] theorem Transient.setInq_tableN (t : Transient) (i : Nat) (v : Bool) : (t.setInq i v).tableN = t.tableN := rfl
@[simp] theorem Transient.setInq_nsym (t : Transient) (i : Nat) (v : Bool) : (t.setInq i v).nsym = t.nsym := rfl
@[simp] theorem Transient.setInq_nextFree (t : Transient) (i : Nat) (v : Bool) : (t.setInq i v).nextFree = t.nextFree := rfl
@[simp] theorem Transient.setInq_root (t : Transient) (i : Nat) (v : Bool) : (t.setInq i v).root = t.root := rfl
@[simp] theorem Transient.setInq_payBase (t : Transient) (i : Nat) (v : Bool) : (t.setInq i v).payBase = t.payBase := rfl
@[simp] theorem Transient.setInq_payLen (t : Transient) (i : Nat) (v : Bool) : (t.setInq i v).payLen = t.payLen := rfl
@[simp] theorem Transient.setInq_limit (t : Transient) (i : Nat) (v : Bool) : (t.setInq i v).limit = t.limit := rfl
@[simp] theorem Transient.setInq_emitted (t : Transient) (i : Nat) (v : Bool) : (t.setInq i v).emitted = t.emitted := rfl
@[simp] theorem Transient.setInq_totalBits (t : Transient) (i : Nat) (v : Bool) : (t.setInq i v).totalBits = t.totalBits := rfl
@[simp] theorem Transient.setInq_acc (t : Transient) (i : Nat) (v : Bool) : (t.setInq i v).acc = t.acc := rfl
@[simp] theorem Transient.setInq_accN (t : Transient) (i : Nat) (v : Bool) : (t.setInq i v).accN = t.accN := rfl
@[simp] theorem Transient.setInq_freq (t : Transient) (i : Nat) (v : Bool) : (t.setInq i v).freq = t.freq := rfl
@[simp] theorem Transient.setInq_node (t : Transient) (i : Nat) (v : Bool) : (t.setInq i v).node = t.node := rfl
@[simp] theorem Transient.setInq_code (t : Transient) (i : Nat) (v : Bool) : (t.setInq i v).code = t.code := rfl

/-! ### Derived views -/

@[simp] theorem State.withTr_srcLen (s : State) (f : Transient → Transient) : (s.withTr f).srcLen = s.srcLen := rfl
@[simp] theorem State.prologue_srcLen (s : State) : s.prologue.srcLen = s.srcLen := rfl
@[simp] theorem State.accept_srcLen (s : State) (v : Word) : (s.accept v).srcLen = s.srcLen := rfl
@[simp] theorem State.raise_srcLen (s : State) (k : ErrorKind) : (s.raise k).srcLen = s.srcLen := rfl
@[simp] theorem State.succeed_srcLen (s : State) (n : Nat) : (s.succeed n).srcLen = s.srcLen := rfl
@[simp] theorem State.raise_dstLen (s : State) (k : ErrorKind) : (s.raise k).dstLen = 0 := by simp [State.dstLen, pairNat]
@[simp] theorem State.accept_dstLen (s : State) (v : Word) : (s.accept v).dstLen = 0 := by simp [State.dstLen, pairNat]
@[simp] theorem State.withTr_srcByte (s : State) (f : Transient → Transient) (a : Nat) : (s.withTr f).srcByte a = s.srcByte a := rfl
@[simp] theorem State.withTr_readSrc (s : State) (f : Transient → Transient) (a : Nat) : (s.withTr f).readSrc a = s.readSrc a := rfl

end Sys2Proof.Machine
end

