-- ==== Sys2Proof/Laws/Arrays.lean ====
section
/-! SUPPORT. The laws of the four arrays (10_state.md R23 to R26): an element reads back as written,
every other element stays, and the entries and the queue hold what the bits say. -/

namespace Sys2Proof.Machine

/-! ### FREQ and CODE -/

theorem Transient.freqAt_setFreq (t : Transient) (c d : Byte) (v : BitVec 32) :
    (t.setFreq c v).freqAt d = if d = c then v else t.freqAt d := by
  unfold Transient.freqAt Transient.setFreq
  by_cases h : d = c
  · subst h; simp
  · have : c.toNat ≠ d.toNat := fun e => h (BitVec.eq_of_toNat_eq e.symm)
    simp [h, this]

theorem Transient.codeAt_setCode (t : Transient) (c d : Byte) (p : List Bool) :
    (t.setCode c p).codeAt d = if d = c then ⟨BitVec.ofNat 8 p.length, p⟩ else t.codeAt d := by
  unfold Transient.codeAt Transient.setCode
  by_cases h : d = c
  · subst h; simp
  · have : c.toNat ≠ d.toNat := fun e => h (BitVec.eq_of_toNat_eq e.symm)
    simp [h, this]

@[simp] theorem Transient.freqAt_zero (c : Byte) : Transient.zero.freqAt c = 0 := by
  simp [Transient.freqAt, Transient.zero]

@[simp] theorem Transient.codeAt_zero (c : Byte) : Transient.zero.codeAt c = Code.empty := by
  simp [Transient.codeAt, Transient.zero]

/-! ### NODE and INQ -/

theorem Transient.nodeAt_setNode (t : Transient) (i j : Nat) (v : Node) :
    (t.setNode i v).nodeAt j = if i = j ∧ i < 511 then some v else t.nodeAt j := by
  unfold Transient.nodeAt Transient.setNode
  rw [Vector.getElem?_setIfInBounds]
  by_cases h : i = j
  · subst h
    by_cases hi : i < 511
    · simp [hi]
    · simp [hi]
  · simp [h]

theorem Transient.inqAt_setInq (t : Transient) (i j : Nat) (v : Bool) :
    (t.setInq i v).inqAt j = if i = j ∧ i < 511 then v else t.inqAt j := by
  unfold Transient.inqAt Transient.setInq
  rw [Vector.getElem?_setIfInBounds]
  by_cases h : i = j
  · subst h
    by_cases hi : i < 511
    · cases v <;> simp [hi]
    · simp [hi]
  · simp [h]

@[simp] theorem Transient.nodeAt_setInq (t : Transient) (i j : Nat) (v : Bool) :
    (t.setInq i v).nodeAt j = t.nodeAt j := rfl

@[simp] theorem Transient.inqAt_setNode (t : Transient) (i j : Nat) (v : Node) :
    (t.setNode i v).inqAt j = t.inqAt j := rfl

@[simp] theorem Transient.freqAt_setNode (t : Transient) (i : Nat) (v : Node) (c : Byte) :
    (t.setNode i v).freqAt c = t.freqAt c := rfl

@[simp] theorem Transient.freqAt_setInq (t : Transient) (i : Nat) (v : Bool) (c : Byte) :
    (t.setInq i v).freqAt c = t.freqAt c := rfl

@[simp] theorem Transient.freqAt_setCode (t : Transient) (p : List Bool) (c d : Byte) :
    (t.setCode c p).freqAt d = t.freqAt d := rfl

@[simp] theorem Transient.nodeAt_setCode (t : Transient) (p : List Bool) (c : Byte) (i : Nat) :
    (t.setCode c p).nodeAt i = t.nodeAt i := rfl

@[simp] theorem Transient.inqAt_zero (i : Nat) : Transient.zero.inqAt i = false := by
  simp only [Transient.inqAt, Transient.zero]
  by_cases h : i < 511 <;> simp [h]

/-! ### The queue -/

theorem mem_onesFrom {bs : List Bool} {i k : Nat} :
    k ∈ onesFrom i bs ↔ i ≤ k ∧ bs[k - i]? = some true := by
  induction bs generalizing i with
  | nil => simp [onesFrom]
  | cons b bs ih =>
    have step : k ∈ onesFrom (i + 1) bs ↔ i + 1 ≤ k ∧ bs[k - (i + 1)]? = some true := ih
    have shift : ∀ _ : i + 1 ≤ k, (b :: bs)[k - i]? = bs[k - (i + 1)]? := fun h => by
      obtain ⟨d, rfl⟩ := Nat.exists_eq_add_of_le h
      have : i + 1 + d - i = d + 1 := by omega
      simp [this]
    have here : (b :: bs)[i - i]? = some b := by simp
    cases b with
    | false =>
      simp only [onesFrom, Bool.false_eq_true, if_false, step]
      constructor
      · rintro ⟨h1, h2⟩; exact ⟨by omega, by rw [shift h1]; exact h2⟩
      · rintro ⟨h1, h2⟩
        rcases Nat.eq_or_lt_of_le h1 with rfl | h1
        · simp at h2
        · exact ⟨h1, by rw [← shift h1]; exact h2⟩
    | true =>
      simp only [onesFrom, if_true, List.mem_cons, step]
      constructor
      · rintro (rfl | ⟨h1, h2⟩)
        · exact ⟨le_refl _, here⟩
        · exact ⟨by omega, by rw [shift h1]; exact h2⟩
      · rintro ⟨h1, h2⟩
        rcases Nat.eq_or_lt_of_le h1 with rfl | h1
        · exact .inl rfl
        · exact .inr ⟨h1, by rw [← shift h1]; exact h2⟩

/-- The queue is the set of indices whose INQ bit is 1 (R25). -/
theorem Transient.mem_queue {t : Transient} {i : Nat} : i ∈ t.queue ↔ t.inqAt i = true := by
  simp [Transient.queue, mem_onesFrom, Transient.inqAt]

theorem onesFrom_pairwise (bs : List Bool) (i : Nat) : (onesFrom i bs).Pairwise (· < ·) := by
  induction bs generalizing i with
  | nil => simp [onesFrom]
  | cons b bs ih =>
    cases b with
    | false => simpa [onesFrom] using ih (i + 1)
    | true =>
      simp only [onesFrom, if_true]
      exact List.pairwise_cons.2 ⟨fun k hk => (mem_onesFrom.1 hk).1, ih (i + 1)⟩

/-- The queue's indices ascend, so none is in it twice. -/
theorem Transient.queue_pairwise (t : Transient) : t.queue.Pairwise (· < ·) :=
  onesFrom_pairwise _ _

/-! ### The frequency table's entries -/

@[simp] theorem allSymbols_length : allSymbols.length = 256 := by simp [allSymbols]

theorem allSymbols_getElem? (i : Nat) (h : i < 256) :
    allSymbols[i]? = some (BitVec.ofNat 8 i) := by
  simp [allSymbols, h]

@[simp] theorem mem_allSymbols (c : Byte) : c ∈ allSymbols :=
  List.mem_map.2 ⟨c.toNat, List.mem_range.2 c.isLt, by simp⟩

theorem allSymbols_pairwise : allSymbols.Pairwise (· < ·) := by decide +kernel

/-- An entry is a symbol with its non-zero frequency (R23). -/
theorem Transient.mem_entries {t : Transient} {c : Byte} {v : BitVec 32} :
    (c, v) ∈ t.entries ↔ v = t.freqAt c ∧ v ≠ 0 := by
  simp only [Transient.entries, List.mem_filter, bne_iff_ne, ne_eq]
  refine and_congr_left fun _ => ?_
  rw [List.mem_iff_getElem?]
  constructor
  · rintro ⟨i, hi⟩
    rw [List.getElem?_zip_eq_some] at hi
    obtain ⟨h1, h2⟩ := hi
    have hlt : i < 256 := by
      have := (List.getElem?_eq_some_iff.1 h1).1
      simpa using this
    rw [allSymbols_getElem? i hlt] at h1
    obtain rfl := Option.some.inj h1
    have hmod : i % 256 = i := Nat.mod_eq_of_lt hlt
    simp [Transient.freqAt, hmod]
    have h3 := (List.getElem?_eq_some_iff.1 h2).2
    simpa using h3.symm
  · rintro rfl
    refine ⟨c.toNat, ?_⟩
    rw [List.getElem?_zip_eq_some]
    have hc : c.toNat < 256 := c.isLt
    refine ⟨by rw [allSymbols_getElem? _ hc]; simp, ?_⟩
    rw [List.getElem?_eq_some_iff]
    exact ⟨by simpa using hc, by simp [Transient.freqAt]⟩

/-- The entries stand in ascending symbol order, so no symbol stands twice (R23, R148). -/
theorem Transient.entries_pairwise (t : Transient) :
    t.entries.Pairwise (fun d e => d.1 < e.1) := by
  have h : (allSymbols.zip t.freq.toList).map Prod.fst = allSymbols := by
    rw [List.map_fst_zip]; simp
  have h2 : (allSymbols.zip t.freq.toList).Pairwise (fun d e => d.1 < e.1) := by
    rw [← List.pairwise_map (f := Prod.fst) (R := (· < ·)), h]; exact allSymbols_pairwise
  exact h2.filter _

end Sys2Proof.Machine
end

