-- ==== Sys2Proof/Laws/Bytes.lean ====
section
/-! SUPPORT. The laws of little-endian fields and of the 64-bit register pairs. -/

namespace Sys2Proof.Machine

@[simp] theorem leBytes_length (k v : Nat) : (leBytes k v).length = k := by
  induction k generalizing v with
  | zero => rfl
  | succ k ih => simp [leBytes, ih]

/-- A field that fits its bytes reads back as it was written. -/
theorem leNat_leBytes (k v : Nat) (h : v < 256 ^ k) : leNat (leBytes k v) = v := by
  induction k generalizing v with
  | zero =>
    have : v = 0 := by simpa using h
    simp [leBytes, leNat, this]
  | succ k ih =>
    have : v / 256 < 256 ^ k := by
      rw [pow_succ] at h; exact Nat.div_lt_of_lt_mul (by omega)
    simp only [leBytes, leNat, ih _ this, BitVec.toNat_ofNat]
    omega

/-- A field of k bytes is below 256^k, so it never needs truncating (30_encoding.md R65). -/
theorem leNat_lt (bs : List Byte) : leNat bs < 256 ^ bs.length := by
  induction bs with
  | nil => simp [leNat]
  | cons b bs ih =>
    have hb : b.toNat < 256 := b.isLt
    simp only [leNat, List.length_cons, pow_succ]
    omega

/-- The two halves hold a value that fits in 64 bits. -/
theorem pairNat_halves (n : Nat) (h : n < 2 ^ 64) : pairNat (hiHalf n) (loHalf n) = n := by
  simp only [pairNat, hiHalf, loHalf, BitVec.toNat_ofNat]
  omega

theorem pairNat_lt (hi lo : Word) : pairNat hi lo < 2 ^ 64 := by
  have h1 := hi.isLt
  have h2 := lo.isLt
  simp only [pairNat]
  omega

theorem State.srcLen_lt (s : State) : s.srcLen < 2 ^ 64 := pairNat_lt _ _

theorem State.dstLen_lt (s : State) : s.dstLen < 2 ^ 64 := pairNat_lt _ _

theorem State.dstLen_succeed (s : State) (n : Nat) (h : n < 2 ^ 64) : (s.succeed n).dstLen = n :=
  pairNat_halves n h

theorem State.dstLen_setDstLen (s : State) (n : Nat) (h : n < 2 ^ 64) :
    (s.setDstLen n).dstLen = n := pairNat_halves n h

end Sys2Proof.Machine
end

