-- ==== Sys2Proof/Laws/Decode.lean ====
section
/-! SUPPORT. The fields of a command word as numbers, and which words the opcode map claims
(30_encoding.md R66, R67). -/

namespace Sys2Proof

theorem opcField_toNat (w : Word) : (opcField w).toNat = w.toNat % 256 := by
  simp [opcField, BitVec.extractLsb'_toNat]

theorem rsvField_toNat (w : Word) : (rsvField w).toNat = w.toNat / 256 := by
  have h := w.isLt
  simp only [rsvField, BitVec.extractLsb'_toNat, Nat.shiftRight_eq_div_pow]
  omega

/-- Only the zero word is NOP (R67, R71). -/
theorem decodeCommand_eq_nop {w : Word} (h : decodeCommand w = .nop) : w = 0 := by
  unfold decodeCommand at h
  split at h
  · next hr =>
    split at h <;> try cases h
    next ho =>
    have h1 : (rsvField w).toNat = 0 := by rw [hr]; rfl
    have h2 := opcField_toNat w
    have h3 := rsvField_toNat w
    have h4 : w.toNat = 0 := by omega
    exact BitVec.eq_of_toNat_eq h4
  · cases h

end Sys2Proof
end

