-- ==== Sys2Proof/Laws/Memory.lean ====
section
/-! SUPPORT. The laws of a byte buffer: reading after writing, the canonical form, and that equal
contents in canonical form are equal data. -/

namespace Sys2Proof.Machine

@[simp] theorem Memory.lookup_nil (a : Nat) : Memory.lookup a [] = none := rfl

/-- Reading the address just written gives the byte written. -/
@[simp] theorem Memory.lookup_store_same (a : Nat) (b : Byte) (m : Memory) :
    (m.store a b).lookup a = some b := by
  induction m with
  | nil => simp [Memory.store, Memory.lookup]
  | cons c m ih =>
    unfold Memory.store
    split
    · simp [Memory.lookup]
    · split
      · simp [Memory.lookup]
      · simp_all [Memory.lookup]

/-- A write leaves every other address alone. -/
theorem Memory.lookup_store_other {x a : Nat} (b : Byte) (m : Memory) (h : x ≠ a) :
    (m.store a b).lookup x = m.lookup x := by
  induction m with
  | nil => simp [Memory.store, Memory.lookup, h]
  | cons c m ih =>
    unfold Memory.store
    split
    · simp [Memory.lookup, h]
    · split
      · next hc => subst hc; simp [Memory.lookup, h]
      · simp [Memory.lookup, ih]

/-- The two laws in one. -/
theorem Memory.lookup_store (x a : Nat) (b : Byte) (m : Memory) :
    (m.store a b).lookup x = if x = a then some b else m.lookup x := by
  split
  · next h => subst h; simp
  · next h => exact Memory.lookup_store_other b m h

/-- A listed address after a write is the written one or was listed before. -/
theorem Memory.mem_store {c : Host.Cell} {a : Nat} {b : Byte} {m : Memory}
    (h : c ∈ m.store a b) : c = (a, b) ∨ c ∈ m := by
  induction m with
  | nil => simpa [Memory.store] using h
  | cons d m ih =>
    unfold Memory.store at h
    split at h
    · simpa using h
    · split at h
      · rcases List.mem_cons.1 h with h | h
        · exact .inl h
        · exact .inr (List.mem_cons_of_mem _ h)
      · rcases List.mem_cons.1 h with h | h
        · exact .inr (h ▸ List.mem_cons_self ..)
        · exact (ih h).imp id (List.mem_cons_of_mem _)

/-- A write keeps the canonical form. -/
theorem Memory.store_wf {a : Nat} {b : Byte} {m : Memory} (h : m.wf) : (m.store a b).wf := by
  induction m with
  | nil => simp [Memory.store]
  | cons c m ih =>
    have hc := List.pairwise_cons.1 h
    unfold Memory.store
    split
    · next hlt =>
      refine List.pairwise_cons.2 ⟨fun d hd => ?_, h⟩
      rcases List.mem_cons.1 hd with rfl | hd
      · exact hlt
      · exact lt_trans hlt (hc.1 d hd)
    · split
      · next heq => exact List.pairwise_cons.2 ⟨fun d hd => by simpa [heq] using hc.1 d hd, hc.2⟩
      · next hlt hne =>
        refine List.pairwise_cons.2 ⟨fun d hd => ?_, ih hc.2⟩
        rcases Memory.mem_store hd with rfl | hd
        · simp only; omega
        · exact hc.1 d hd

/-- A write below a capacity keeps every listed address below it. -/
theorem Memory.store_below {a cap : Nat} {b : Byte} {m : Memory} (h : m.below cap) (ha : a < cap) :
    (m.store a b).below cap := fun c hc => by
  rcases Memory.mem_store hc with rfl | hc
  · exact ha
  · exact h c hc

/-- An address below every listed one is not listed. -/
theorem Memory.lookup_eq_none {a : Nat} {m : Memory} (h : ∀ c ∈ m, a < c.1) : m.lookup a = none := by
  induction m with
  | nil => rfl
  | cons c m ih =>
    have hc := h c (List.mem_cons_self ..)
    simp only [Memory.lookup]
    rw [if_neg (by omega)]
    exact ih fun d hd => h d (List.mem_cons_of_mem _ hd)

/-- In canonical form the contents determine the list. -/
theorem Memory.ext_of_wf {m n : Memory} (hm : m.wf) (hn : n.wf)
    (h : ∀ a, m.lookup a = n.lookup a) : m = n := by
  induction m generalizing n with
  | nil =>
    cases n with
    | nil => rfl
    | cons d n => have := h d.1; simp [Memory.lookup] at this
  | cons c m ih =>
    have hcm := List.pairwise_cons.1 hm
    cases n with
    | nil => have := h c.1; simp [Memory.lookup] at this
    | cons d n =>
      have hdn := List.pairwise_cons.1 hn
      have key : c.1 = d.1 := by
        by_contra hne
        rcases Nat.lt_or_gt_of_ne hne with hlt | hlt
        · have h1 := h c.1
          rw [Memory.lookup_eq_none (m := d :: n)] at h1
          · simp [Memory.lookup] at h1
          · intro e he
            rcases List.mem_cons.1 he with rfl | he
            · exact hlt
            · exact lt_trans hlt (hdn.1 e he)
        · have h1 := h d.1
          rw [Memory.lookup_eq_none (m := c :: m)] at h1
          · simp [Memory.lookup] at h1
          · intro e he
            rcases List.mem_cons.1 he with rfl | he
            · exact hlt
            · exact lt_trans hlt (hcm.1 e he)
      have hval : c.2 = d.2 := by
        have h1 := h c.1
        simpa [Memory.lookup, key] using h1
      have hcd : c = d := Prod.ext key hval
      subst hcd
      refine congrArg (c :: ·) (ih hcm.2 hdn.2 fun a => ?_)
      by_cases ha : a = c.1
      · subst ha
        rw [Memory.lookup_eq_none hcm.1, Memory.lookup_eq_none hdn.1]
      · simpa [Memory.lookup, ha] using h a

/-- The buffers are in canonical form at reset. -/
theorem State.reset_buffers_wf : State.reset.src.wf ∧ State.reset.dst.wf := ⟨.nil, .nil⟩

end Sys2Proof.Machine
end

