-- ==== Sys2Proof/Laws/Ops.lean ====
section
/-! SUPPORT. What each shared operation can do, said once: the course of a phase, reads of SRC,
writes of DST, and the transfer of control. -/

namespace Sys2Proof.Machine

/-! ### The course of a phase -/

@[simp] theorem Run.andThen_ok (s : State) (f : State → Run) : (Run.ok s).andThen f = f s := rfl
@[simp] theorem Run.andThen_raised (k : ErrorKind) (s : State) (f : State → Run) :
    (Run.raised k s).andThen f = .raised k s := rfl
@[simp] theorem Run.andThen_stuck (e : Fault) (f : State → Run) :
    (Run.stuck e).andThen f = .stuck e := rfl

theorem Run.andThen_assoc (r : Run) (f g : State → Run) :
    (r.andThen f).andThen g = r.andThen fun s => (f s).andThen g := by
  cases r <;> rfl

/-- A sequence goes on only if both its parts do. -/
theorem Run.andThen_eq_ok {r : Run} {f : State → Run} {t : State} :
    r.andThen f = .ok t ↔ ∃ s, r = .ok s ∧ f s = .ok t := by
  cases r <;> simp

/-- A sequence raises if its first part does, or its second after the first went on. -/
theorem Run.andThen_eq_raised {r : Run} {f : State → Run} {k : ErrorKind} {t : State} :
    r.andThen f = .raised k t ↔ r = .raised k t ∨ ∃ s, r = .ok s ∧ f s = .raised k t := by
  cases r <;> simp

/-- A sequence is stuck if its first part is, or its second after the first went on. -/
theorem Run.andThen_eq_stuck {r : Run} {f : State → Run} {e : Fault} :
    r.andThen f = .stuck e ↔ r = .stuck e ∨ ∃ s, r = .ok s ∧ f s = .stuck e := by
  cases r <;> simp

/-! ### Reads of SRC -/

theorem State.readSrc_of_lt {s : State} {a : Nat} (h : a < s.cfg.srcCap) :
    s.readSrc a = some (s.srcByte a) := by simp [State.readSrc, h]

/-- A read of SRC answers exactly below SRC_CAP (20_memory.md R40). -/
theorem State.readSrc_eq_some {s : State} {a : Nat} {b : Byte} :
    s.readSrc a = some b ↔ a < s.cfg.srcCap ∧ s.srcByte a = b := by
  unfold State.readSrc; split <;> simp [*]

theorem State.withSrc_of_lt {s : State} {a : Nat} (h : a < s.cfg.srcCap) (f : Byte → Run) :
    s.withSrc a f = f (s.srcByte a) := by simp [State.withSrc, State.readSrc_of_lt h]

/-- A multi-byte read is k single reads (R48). -/
theorem State.readSrcBytes_of_le {s : State} {a k : Nat} (h : a + k ≤ s.cfg.srcCap) :
    s.readSrcBytes a k = some ((List.range k).map fun i => s.srcByte (a + i)) := by
  induction k generalizing a with
  | zero => rfl
  | succ k ih =>
    have h1 : a < s.cfg.srcCap := by omega
    have h2 : (a + 1) + k ≤ s.cfg.srcCap := by omega
    simp only [State.readSrcBytes, State.readSrc_of_lt h1, ih h2, List.range_succ_eq_map,
      List.map_cons, List.map_map]
    simp only [Option.bind_eq_bind, Option.bind_some, Option.pure_def, Nat.add_zero]
    refine congrArg some (congrArg _ (List.map_congr_left fun i _ => ?_))
    simp only [Function.comp_apply]
    congr 1
    omega

theorem State.withSrcLe_of_le {s : State} {a k : Nat} (h : a + k ≤ s.cfg.srcCap) (f : Nat → Run) :
    s.withSrcLe a k f = f (leNat ((List.range k).map fun i => s.srcByte (a + i))) := by
  simp [State.withSrcLe, State.readSrcLe, State.readSrcBytes_of_le h]

/-! ### Writes of DST -/

/-- Bytes stored one after another from an address upwards. -/
def Memory.storeAll : (a : Nat) → List Byte → Memory → Memory
  | _, [], m => m
  | a, b :: bs, m => Memory.storeAll (a + 1) bs (m.store a b)

theorem Memory.lookup_storeAll (x a : Nat) (bs : List Byte) (m : Memory) :
    (Memory.storeAll a bs m).lookup x =
      if a ≤ x ∧ x < a + bs.length then bs[x - a]? else m.lookup x := by
  induction bs generalizing a m with
  | nil => simp only [Memory.storeAll, List.length_nil]; rw [if_neg (by omega)]
  | cons b bs ih =>
    rw [Memory.storeAll, ih, Memory.lookup_store, List.length_cons]
    by_cases hx : x = a
    · subst hx
      rw [if_neg (by omega), if_pos rfl, if_pos (by omega)]
      simp
    · by_cases h : a + 1 ≤ x ∧ x < a + 1 + bs.length
      · rw [if_pos h, if_pos (by omega)]
        obtain ⟨d, rfl⟩ := Nat.exists_eq_add_of_le h.1
        have h1 : a + 1 + d - a = d + 1 := by omega
        have h2 : a + 1 + d - (a + 1) = d := by omega
        rw [h1, h2, List.getElem?_cons_succ]
      · rw [if_neg h, if_neg hx, if_neg (by omega)]

theorem Memory.storeAll_wf {a : Nat} {bs : List Byte} {m : Memory} (h : m.wf) :
    (Memory.storeAll a bs m).wf := by
  induction bs generalizing a m with
  | nil => exact h
  | cons b bs ih => exact ih (Memory.store_wf h)

/-- A write of DST below DST_CAP changes that byte and nothing else. -/
theorem State.writeDst_of_lt {s : State} {a : Nat} (h : a < s.cfg.dstCap) (b : Byte) :
    s.writeDst a b = .ok { s with dst := s.dst.store a b } := by simp [State.writeDst, h]

theorem State.writeDst_eq_ok {s t : State} {a : Nat} {b : Byte} :
    s.writeDst a b = .ok t ↔ a < s.cfg.dstCap ∧ t = { s with dst := s.dst.store a b } := by
  unfold State.writeDst
  split
  · simp [*, eq_comm]
  · simp [*]

theorem State.writeDst_ne_raised {s t : State} {a : Nat} {b : Byte} {k : ErrorKind} :
    s.writeDst a b ≠ .raised k t := by unfold State.writeDst; split <;> simp

/-- A write of several bytes that fits changes those bytes and nothing else (R48). -/
theorem State.writeDstBytes_of_le {s : State} {a : Nat} {bs : List Byte}
    (h : a + bs.length ≤ s.cfg.dstCap) :
    s.writeDstBytes a bs = .ok { s with dst := Memory.storeAll a bs s.dst } := by
  induction bs generalizing a s with
  | nil => rfl
  | cons b bs ih =>
    simp only [List.length_cons] at h
    rw [State.writeDstBytes, State.writeDst_of_lt (by omega), Run.andThen_ok, ih (by simp only; omega)]
    rfl

/-- A byte at WPTR, and WPTR moves on by one (R56). -/
theorem State.emitByte_of_lt {s : State} (h : s.tr.wptr < s.cfg.dstCap) (b : Byte) :
    s.emitByte b = .ok { s with
      dst := s.dst.store s.tr.wptr b, tr := { s.tr with wptr := s.tr.wptr + 1 } } := by
  simp [State.emitByte, State.writeDst_of_lt h, State.withTr]

/-! ### Transfer of control -/

/-- Everything a phase can answer (R95, R97, R100, R196): the failure epilogue after a `raise`, the
next phase of the path, or the success epilogue with length WPTR after the last. -/
theorem State.runPhase_next {s t : State} {p : Phase} {body : State → Run}
    (h : s.runPhase p body = .next t) :
    (∃ k s', body s = .raised k s' ∧ t = s'.raise k) ∨
    (∃ q s', body s = .ok s' ∧ phaseAfter p (phasePath s.cmdLatch) = some (some q) ∧
      t = { s' with phase := q }) ∨
    (∃ s', body s = .ok s' ∧ phaseAfter p (phasePath s.cmdLatch) = some none ∧
      t = s'.succeed s'.tr.wptr) := by
  unfold State.runPhase at h
  split at h
  · cases h
  · next after hafter =>
    split at h
    · cases h
    · next k s' hb => cases h; exact .inl ⟨k, s', hb, rfl⟩
    · next s' hb =>
      split at h
      · next q => cases h; exact .inr (.inl ⟨q, s', hb, hafter, rfl⟩)
      · cases h; exact .inr (.inr ⟨s', hb, hafter, rfl⟩)

theorem State.runPhase_not_refused {s : State} {p : Phase} {body : State → Run} {r : Refusal} :
    s.runPhase p body ≠ .refused r := by
  unfold State.runPhase
  split
  · simp
  · split
    · simp
    · simp
    · split <;> simp

/-- The paths of the two commands (R95, R97). -/
theorem phasePath_compress : phasePath 1#32 = [.count, .build, .gencode, .frame, .encode] := rfl
theorem phasePath_decompress : phasePath 2#32 = [.parse, .build, .decode] := rfl

/-- Only the words of COMPRESS and DECOMPRESS have phases. -/
theorem phasePath_ne_nil {v : Word} (h : phasePath v ≠ []) : v = 1#32 ∨ v = 2#32 := by
  unfold phasePath at h
  split at h
  · next hv => exact .inl (BitVec.eq_of_toNat_eq hv)
  · next hv => exact .inr (BitVec.eq_of_toNat_eq hv)
  · exact absurd rfl h

end Sys2Proof.Machine
end

