-- ==== Sys2Proof/Laws/Frame.lean ====
section
/-! SUPPORT. What a phase leaves alone, for each body once: besides DST and the transient state a
phase body changes nothing, and which of these two it may change. -/

namespace Sys2Proof.Machine

/-- However a piece of a phase ends, only DST and the transient state differ from s. -/
def Run.onlyDstTr (s : State) : Run → Prop
  | .ok t => t = { s with dst := t.dst, tr := t.tr }
  | .raised _ t => t = { s with dst := t.dst, tr := t.tr }
  | .stuck _ => True

/-- However a piece of a phase ends, only the transient state differs from s. -/
def Run.onlyTr (s : State) : Run → Prop
  | .ok t => t = { s with tr := t.tr }
  | .raised _ t => t = { s with tr := t.tr }
  | .stuck _ => True

theorem Run.onlyTr.toDstTr {s : State} {r : Run} (h : r.onlyTr s) : r.onlyDstTr s := by
  cases r with
  | ok t => have : t = _ := h; rw [this]; rfl
  | raised k t => have : t = _ := h; rw [this]; rfl
  | stuck _ => trivial

theorem Run.onlyTr_andThen {s : State} {r : Run} {f : State → Run} (h : r.onlyTr s)
    (hf : ∀ t, (f t).onlyTr t) : (r.andThen f).onlyTr s := by
  cases r with
  | stuck _ => trivial
  | raised k t => exact h
  | ok t =>
    have ht : t = { s with tr := t.tr } := h
    have h2 := hf t
    simp only [Run.andThen_ok]
    cases hft : f t with
    | stuck _ => trivial
    | ok u =>
      rw [hft] at h2
      have hu : u = { t with tr := u.tr } := h2
      show u = _
      rw [hu, ht]
    | raised k u =>
      rw [hft] at h2
      have hu : u = { t with tr := u.tr } := h2
      show u = _
      rw [hu, ht]

theorem Run.onlyDstTr_andThen {s : State} {r : Run} {f : State → Run} (h : r.onlyDstTr s)
    (hf : ∀ t, (f t).onlyDstTr t) : (r.andThen f).onlyDstTr s := by
  cases r with
  | stuck _ => trivial
  | raised k t => exact h
  | ok t =>
    have ht : t = { s with dst := t.dst, tr := t.tr } := h
    have h2 := hf t
    simp only [Run.andThen_ok]
    cases hft : f t with
    | stuck _ => trivial
    | ok u =>
      rw [hft] at h2
      have hu : u = { t with dst := u.dst, tr := u.tr } := h2
      show u = _
      rw [hu, ht]
    | raised k u =>
      rw [hft] at h2
      have hu : u = { t with dst := u.dst, tr := u.tr } := h2
      show u = _
      rw [hu, ht]

/-- A piece that starts after a change of the transient state only. -/
theorem Run.onlyTr_from_withTr {s : State} {f : Transient → Transient} {r : Run}
    (h : r.onlyTr (s.withTr f)) : r.onlyTr s := by
  cases r <;> exact h

theorem Run.onlyDstTr_from_withTr {s : State} {f : Transient → Transient} {r : Run}
    (h : r.onlyDstTr (s.withTr f)) : r.onlyDstTr s := by
  cases r <;> exact h

theorem State.withSrc_onlyTr {s : State} {a : Nat} {f : Byte → Run} (h : ∀ b, (f b).onlyTr s) :
    (s.withSrc a f).onlyTr s := by
  unfold State.withSrc; split
  · exact h _
  · trivial

theorem State.withSrcLe_onlyTr {s : State} {a k : Nat} {f : Nat → Run} (h : ∀ v, (f v).onlyTr s) :
    (s.withSrcLe a k f).onlyTr s := by
  unfold State.withSrcLe; split
  · exact h _
  · trivial

theorem State.withSrc_onlyDstTr {s : State} {a : Nat} {f : Byte → Run}
    (h : ∀ b, (f b).onlyDstTr s) : (s.withSrc a f).onlyDstTr s := by
  unfold State.withSrc; split
  · exact h _
  · trivial

theorem State.writeDst_onlyDstTr (s : State) (a : Nat) (b : Byte) :
    (s.writeDst a b).onlyDstTr s := by
  unfold State.writeDst; split <;> trivial

theorem State.writeDstBytes_onlyDstTr (s : State) (a : Nat) (bs : List Byte) :
    (s.writeDstBytes a bs).onlyDstTr s := by
  induction bs generalizing s a with
  | nil => rfl
  | cons b bs ih => exact Run.onlyDstTr_andThen (s.writeDst_onlyDstTr a b) fun t => ih t (a + 1)

theorem State.emitByte_onlyDstTr (s : State) (b : Byte) : (s.emitByte b).onlyDstTr s :=
  Run.onlyDstTr_andThen (s.writeDst_onlyDstTr _ b) fun _ => rfl

/-! ### The bodies -/

theorem countLoop_onlyTr (n : Nat) (s : State) : (countLoop n s).onlyTr s := by
  induction n generalizing s with
  | zero => rfl
  | succ n ih =>
    refine State.withSrc_onlyTr fun b => Run.onlyTr_andThen ?_ fun t => ?_
    · unfold State.increment; split <;> rfl
    · exact Run.onlyTr_from_withTr (ih _)

theorem countBody_onlyTr (s : State) : (countBody s).onlyTr s :=
  Run.onlyTr_andThen (Run.onlyTr_from_withTr (countLoop_onlyTr _ _)) fun _ => rfl

theorem buildBody_onlyTr (s : State) : (buildBody s).onlyTr s := by
  unfold buildBody; split
  · trivial
  · split <;> rfl

theorem gencodeBody_onlyTr (s : State) : (gencodeBody s).onlyTr s := by
  unfold gencodeBody; split
  · trivial
  · rfl

theorem parseEntries_onlyTr (n k : Nat) (s : State) : (parseEntries n k s).onlyTr s := by
  induction n generalizing k s with
  | zero => rfl
  | succ n ih =>
    refine Run.onlyTr_andThen ?_ fun t => ih (k + 1) t
    refine State.withSrc_onlyTr fun b => State.withSrcLe_onlyTr fun v => ?_
    split
    · rfl
    · split <;> rfl

theorem parseBody_onlyTr (s : State) : (parseBody s).onlyTr s := by
  unfold parseBody
  split
  · rfl
  refine Run.onlyTr_andThen (State.withSrcLe_onlyTr fun _ => State.withSrcLe_onlyTr fun _ => rfl)
    fun t => ?_
  split
  · rfl
  split
  · rfl
  refine Run.onlyTr_andThen (parseEntries_onlyTr _ _ _) fun u => ?_
  simp only
  split <;> rfl

theorem writeTable_onlyDstTr (es : List (Byte × BitVec 32)) (s : State) :
    (writeTable es s).onlyDstTr s := by
  induction es generalizing s with
  | nil => rfl
  | cons e es ih =>
    refine Run.onlyDstTr_andThen ?_ fun t => ih t
    exact Run.onlyDstTr_andThen (s.writeDst_onlyDstTr _ _) fun t =>
      Run.onlyDstTr_andThen (t.writeDstBytes_onlyDstTr _ _) fun _ => rfl

theorem writeHeader_onlyDstTr (s : State) : (writeHeader s).onlyDstTr s :=
  Run.onlyDstTr_andThen (State.writeDstBytes_onlyDstTr _ _ _) fun t =>
    Run.onlyDstTr_andThen (t.writeDstBytes_onlyDstTr _ _) fun _ => rfl

theorem frameBody_onlyDstTr (s : State) : (frameBody s).onlyDstTr s := by
  unfold frameBody
  simp only
  split
  · rfl
  · refine Run.onlyDstTr_andThen ?_ fun t => writeTable_onlyDstTr _ t
    exact Run.onlyDstTr_from_withTr (Run.onlyDstTr_from_withTr (writeHeader_onlyDstTr _))

theorem pushBit_onlyDstTr (s : State) (b : Bool) : (pushBit s b).onlyDstTr s := by
  unfold pushBit
  simp only
  split
  · exact Run.onlyDstTr_from_withTr
      (Run.onlyDstTr_andThen (State.emitByte_onlyDstTr _ _) fun _ => rfl)
  · rfl

theorem pushBits_onlyDstTr (bs : List Bool) (s : State) : (pushBits bs s).onlyDstTr s := by
  induction bs generalizing s with
  | nil => rfl
  | cons b bs ih => exact Run.onlyDstTr_andThen (pushBit_onlyDstTr s b) fun t => ih t

theorem encodeLoop_onlyDstTr (n : Nat) (s : State) : (encodeLoop n s).onlyDstTr s := by
  induction n generalizing s with
  | zero => rfl
  | succ n ih =>
    exact State.withSrc_onlyDstTr fun b => Run.onlyDstTr_andThen (pushBits_onlyDstTr _ _) fun t =>
      Run.onlyDstTr_from_withTr (ih _)

theorem encodeBody_onlyDstTr (s : State) : (encodeBody s).onlyDstTr s := by
  refine Run.onlyDstTr_andThen (Run.onlyDstTr_from_withTr (encodeLoop_onlyDstTr _ _)) fun t => ?_
  unfold flush
  split
  · rfl
  · exact Run.onlyDstTr_andThen (t.emitByte_onlyDstTr _) fun _ => rfl

theorem emitSymbol_onlyDstTr (s : State) (c : Byte) : (emitSymbol s c).onlyDstTr s :=
  Run.onlyDstTr_andThen (s.emitByte_onlyDstTr c) fun _ => rfl

theorem stepBit_onlyDstTr (s : State) (b : Bool) : (stepBit s b).onlyDstTr s := by
  unfold stepBit
  split
  · unfold stepLeafRoot
    split
    · trivial
    · exact emitSymbol_onlyDstTr _ _
  · unfold stepWalk
    split
    · trivial
    · simp only
      split
      · trivial
      · split
        · exact Run.onlyDstTr_andThen (Run.onlyDstTr_from_withTr (emitSymbol_onlyDstTr _ _))
            fun _ => rfl
        · rfl

theorem decodeLoop_onlyDstTr (n : Nat) (s : State) : (decodeLoop n s).onlyDstTr s := by
  induction n generalizing s with
  | zero => rfl
  | succ n ih =>
    unfold decodeLoop
    split
    · split
      · trivial
      · exact Run.onlyDstTr_andThen (Run.onlyDstTr_from_withTr (stepBit_onlyDstTr _ _))
          fun t => ih t
    · rfl

theorem decodeBody_onlyDstTr (s : State) : (decodeBody s).onlyDstTr s := by
  refine Run.onlyDstTr_andThen (Run.onlyDstTr_from_withTr (decodeLoop_onlyDstTr _ _)) fun t => ?_
  split <;> rfl

end Sys2Proof.Machine
end

