-- ==== Sys2Proof/Laws/PerInstr.lean ====
section
/-! SUPPORT. Facts about every instruction as syntax, one lemma per constructor. Family `Coding`: an
instruction is coded as the opcode table's format says, a command by a 32-bit word and a phase by
a code from 1 to 7 (30_encoding.md R66, R69). -/

namespace Sys2Proof.Laws.Coding

/-- The control word is of the row's format, and a phase's code is one that is taken. -/
def Statement (i : Instr) : Prop :=
  match encode i with
  | .command w => decodeCommand w = i ∨ i.wellFormed = false
  | .phase c => 1 ≤ c.toNat ∧ c.toNat ≤ 7

theorem nop : Statement .nop := .inl rfl
theorem compress : Statement .compress := .inl rfl
theorem decompress : Statement .decompress := .inl rfl
theorem clear : Statement .clear := .inl rfl
theorem illegal (word : Word) : Statement (.illegal word) := by
  show decodeCommand word = .illegal word ∨ decide (4 ≤ word.toNat) = false
  by_cases h : 4 ≤ word.toNat
  · left
    unfold decodeCommand
    split
    · next hr =>
      have h1 : (rsvField word).toNat = 0 := by rw [hr]; rfl
      have h2 := opcField_toNat word
      have h3 := rsvField_toNat word
      have h4 := word.isLt
      split <;> first | rfl | omega
    · rfl
  · right; simpa using h
theorem count : Statement .count := ⟨by decide, by decide⟩
theorem build : Statement .build := ⟨by decide, by decide⟩
theorem gencode : Statement .gencode := ⟨by decide, by decide⟩
theorem frame : Statement .frame := ⟨by decide, by decide⟩
theorem encode : Statement .encode := ⟨by decide, by decide⟩
theorem parse : Statement .parse := ⟨by decide, by decide⟩
theorem decode : Statement .decode := ⟨by decide, by decide⟩

end Sys2Proof.Laws.Coding
end

