-- ==== Sys2Proof/Laws/Step.lean ====
section
/-! SUPPORT. What a step can do: whose turn it is, the engine's fetch, and the host's moves. -/

namespace Sys2Proof.Machine

/-- A step is the turn that heads the schedule. -/
theorem step_cons {s : State} {t : Turn} {rest : List Turn} (h : s.sched = t :: rest) :
    step s = takeTurn t { s with sched := rest } := by
  simp [step, machineStep, State.nextTurn, h]

/-- Past the end of the schedule the engine moves while busy. -/
theorem step_nil_busy {s : State} (h : s.sched = []) (hb : s.busy = true) :
    step s = engineStep s := by
  simp [step, machineStep, State.nextTurn, h, hb, takeTurn]

/-- Past the end of the schedule the host moves while idle. -/
theorem step_nil_idle {s : State} (h : s.sched = []) (hb : s.busy = false) :
    step s = hostStep s := by
  simp [step, machineStep, State.nextTurn, h, hb, takeTurn]

/-- Everything a step can be. -/
theorem step_cases (s : State) :
    ∃ s', (s' = s ∨ ∃ rest, s' = { s with sched := rest }) ∧
      (step s = engineStep s' ∨ step s = hostStep s' ∨ step s = .next s'.resetEvent) := by
  cases h : s.sched with
  | nil =>
    cases hb : s.busy with
    | true => exact ⟨s, .inl rfl, .inl (step_nil_busy h hb)⟩
    | false => exact ⟨s, .inl rfl, .inr (.inl (step_nil_idle h hb))⟩
  | cons t rest =>
    refine ⟨{ s with sched := rest }, .inr ⟨rest, rfl⟩, ?_⟩
    rw [step_cons h]
    cases t with
    | host => exact .inr (.inl rfl)
    | engine => exact .inl rfl
    | reset => exact .inr (.inr rfl)

/-- The engine has no step while BUSY = 0 (20_memory.md R51). -/
theorem engineStep_idle {s : State} (h : s.busy = false) : engineStep s = .next s := by
  simp [engineStep, h]

theorem engineStep_busy {s : State} (h : s.busy = true) : engineStep s = exec s.engineInstr s := by
  simp [engineStep, h]

/-- The phase in progress selects the instruction (R19, R69). -/
theorem engineInstr_of_phase {s : State} :
    s.engineInstr = match s.phase with
      | .idle => dispatchInstr s.cmdLatch
      | .count => .count
      | .build => .build
      | .gencode => .gencode
      | .frame => .frame
      | .encode => .encode
      | .parse => .parse
      | .decode => .decode := by
  unfold State.engineInstr
  cases s.phase <;> rfl

/-- While BUSY = 1 a host move changes only the host's own fields (20_memory.md R50). -/
theorem hostStep_busy {s t : State} (hb : s.busy = true) (h : hostStep s = .next t) :
    t = { s with script := t.script, seen := t.seen, draws := t.draws } := by
  unfold hostStep at h
  split at h
  · cases h; rfl
  · next o rest hs =>
    cases o with
    | writeCsr n v =>
      rw [show hostOp (.writeCsr n v) { s with script := rest } = .next { s with script := rest }
        from if_pos hb] at h
      cases h; rfl
    | readCsr n => cases h; rfl
    | writeSrc a b =>
      simp only [hostOp, hostWriteSrc] at h
      split at h
      · cases h; rfl
      · cases h
    | readSrc a =>
      simp only [hostOp, hostReadSrc] at h
      split at h
      · cases h; rfl
      · cases h
    | readDst a =>
      simp only [hostOp, hostReadDst] at h
      split at h
      · split at h <;> (cases h; rfl)
      · cases h
  · next rest hs =>
    unfold hostReadCsr at h
    split at h <;> (cases h; rfl)
  · cases h; rfl
  · cases h; rfl

end Sys2Proof.Machine
end

