-- ==== Sys2Proof/Tests/Slice0.lean ====
section
/-! SUPPORT. Tests of the model, with expected results from the spec (95_test_vectors.md and the rules'
own examples), and for every statement of Obligations.lean that has hypotheses a witness that meets them. -/

namespace Sys2Proof.Tests

set_option Elab.async false

open Sys2Proof Sys2Proof.Machine

/-! ## WellFormed: the one check and a term it refuses (R71) -/

theorem test_wellFormed_refuses_a_named_word : (Instr.illegal 3#32).wellFormed = false := by decide
theorem test_wellFormed_refuses_the_zero_word : (Instr.illegal 0#32).wellFormed = false := by decide
theorem test_wellFormed_accepts_the_first_illegal_word : (Instr.illegal 4#32).wellFormed = true := by decide

/-! ## Decoding: words written out from R67, R69, R71 -/

theorem test_decode_nop : decode (.command 0b00000000000000000000000000000000#32) = .ok .nop := by decide
theorem test_decode_compress : decode (.command 0b00000000000000000000000000000001#32) = .ok .compress := by decide
theorem test_decode_decompress : decode (.command 0b00000000000000000000000000000010#32) = .ok .decompress := by decide
theorem test_decode_clear : decode (.command 0b00000000000000000000000000000011#32) = .ok .clear := by decide
theorem test_decode_illegal_opcode :
    decode (.command 0b00000000000000000000000000000100#32) = .ok (.illegal 4#32) := by decide
theorem test_decode_illegal_reserved_bit :
    decode (.command 0b10000000000000000000000000000001#32) = .ok (.illegal 0x80000001#32) := by decide
theorem test_decode_count : decode (.phase 0b0001#4) = .ok .count := by decide
theorem test_decode_build : decode (.phase 0b0010#4) = .ok .build := by decide
theorem test_decode_gencode : decode (.phase 0b0011#4) = .ok .gencode := by decide
theorem test_decode_frame : decode (.phase 0b0100#4) = .ok .frame := by decide
theorem test_decode_encode : decode (.phase 0b0101#4) = .ok .encode := by decide
theorem test_decode_parse : decode (.phase 0b0110#4) = .ok .parse := by decide
theorem test_decode_decode : decode (.phase 0b0111#4) = .ok .decode := by decide
theorem test_decode_rejects_idle : decode (.phase 0b0000#4) = .error .idlePhase := by decide
theorem test_decode_rejects_code_eight : decode (.phase 0b1000#4) = .error (.noSuchPhase 8#4) := by decide
theorem test_decode_rejects_code_fifteen : decode (.phase 0b1111#4) = .error (.noSuchPhase 15#4) := by decide
theorem test_table_word_command : decodeTableWord 32 2 = some .decompress := by decide
theorem test_table_word_phase : decodeTableWord 8 2 = some .build := by decide
theorem test_encode_words : encode .clear = .command 3#32 ∧ encode .parse = .phase 6#4 := by decide

/-! ## States to test on -/

/-- The next state of an outcome, if it is one. -/
def asNext (o : Host.Outcome State Fault Refusal) : Option State :=
  match o with
  | .next s => some s
  | _ => none

/-- An outcome whose next state passes a check has a next state with the checked property. -/
theorem exists_next {o : Host.Outcome State Fault Refusal} {p : State → Prop} [DecidablePred p]
    (h : (asNext o).any (fun s => decide (p s)) = true) : ∃ t, o = .next t ∧ p t := by
  cases o with
  | next s => exact ⟨s, rfl, by simpa [asNext] using h⟩
  | fault f => simp [asNext] at h
  | refused r => simp [asNext] at h

/-- The bytes from address 0 on. -/
def cells (bs : List Byte) : Memory := (List.range bs.length).zip bs

/-- An idle machine with 64-byte buffers and an input. -/
def idleWith (bs : List Byte) : State :=
  { State.reset with cfg := ⟨64, 64⟩, src := cells bs, srcLenLo := BitVec.ofNat 32 bs.length }

/-- The same with a command accepted. -/
def acceptedWith (bs : List Byte) (w : Word) : State := (idleWith bs).accept w

/-- The same in a given phase, with given transient state. -/
def inPhase (bs : List Byte) (w : Word) (p : Phase) (t : Transient) : State :=
  { acceptedWith bs w with phase := p, tr := t }

/-- The input `aaab` of vector V1. -/
def aaab : List Byte := [0x61, 0x61, 0x61, 0x62]

/-- Its container (95_test_vectors.md, V1; 45_framer.md). -/
def aaabContainer : List Byte :=
  [0x04, 0, 0, 0, 0, 0, 0, 0, 0x02, 0, 0x61, 0x03, 0, 0, 0, 0x62, 0x01, 0, 0, 0, 0xE0]

/-- The counts of `aaab`. -/
def freqT : Transient := { (Transient.zero.setFreq 0x61 3).setFreq 0x62 1 with nsym := 2 }

/-- The tree of `aaab` (41_tree_builder.md, example): leaves 0 and 1, root 2 over 1 and 0. -/
def treeT : Transient :=
  { ((freqT.setNode 0 ⟨3, true, 0x61, 0, 0⟩).setNode 1 ⟨1, true, 0x62, 0, 0⟩).setNode 2
      ⟨4, false, 0, 1, 0⟩ with
    root := 2, nextFree := 3, treeValid := true }

/-- The tree of a lone symbol. -/
def loneT : Transient :=
  { (Transient.zero.setFreq 0x61 4).setNode 0 ⟨4, true, 0x61, 0, 0⟩ with
    nsym := 1, nextFree := 1, treeValid := true }

/-- The codes of `aaab`. -/
def codeT : Transient := (treeT.setCode 0x61 [true]).setCode 0x62 [false]

/-- What PARSE leaves for the container of `aaab`, with the tree of BUILD. -/
def decodeT : Transient :=
  { treeT with origCount := 4, tableN := 2, payBase := 20, payLen := 1, rptr := 20 }

/-- `aaab` decompressed and readable. -/
def idleWithResult : State :=
  { idleWith aaabContainer with dst := cells aaab, dstLenLo := 4, done := true }

/-! ## Instructions -/

/-- R91's example: STATUS 0x56 stays. -/
theorem test_nop : (asNext (hostWriteCsr 0 0#32 ((idleWith aaab).raise .sizeMismatch))).map
    (fun s => (s.statusWord, s.busy)) = some (0x56#32, false) := by decide +kernel

/-- R95: on to COUNT. -/
theorem test_compress : (asNext (engineStep (acceptedWith aaab 1))).map (fun s => s.statusWord) =
    some 0x101#32 := by decide +kernel

/-- R187. -/
theorem test_compress_empty : (asNext (engineStep (acceptedWith [] 1))).map (fun s => s.statusWord) =
    some 0x16#32 := by decide +kernel

/-- R97: on to PARSE. -/
theorem test_decompress : (asNext (engineStep (acceptedWith [] 2))).map (fun s => s.statusWord) =
    some 0x601#32 := by decide +kernel

/-- R94: SRC_LEN one above SRC_CAP. -/
theorem test_decompress_length : (asNext (exec .decompress
    { acceptedWith [] 2 with srcLenLo := 65 })).map (fun s => s.statusWord) =
    some 0x86#32 := by decide +kernel

/-- R99's example. -/
theorem test_clear : (asNext (engineStep (acceptedWith aaab 3))).map
    (fun s => (s.statusWord, s.srcLen, s.cmdLatch, s.src)) =
    some (0#32, 0, 0#32, cells aaab) := by decide +kernel

/-- R98's example. -/
theorem test_illegal : (asNext (engineStep (acceptedWith aaab 4))).map
    (fun s => (s.statusWord, s.srcLen)) = some (0x96#32, 4) := by decide +kernel

/-- R130's example. -/
theorem test_count : (asNext (exec .count (inPhase aaab 1 .count Transient.zero))).map
    (fun s => (s.tr.freqAt 0x61, s.tr.freqAt 0x62, s.tr.freqAt 0, s.tr.nsym, s.phase)) =
    some (3, 1, 0, 2, .build) := by decide +kernel

/-- R131: the counter at its maximum. -/
theorem test_count_overflow : (asNext (exec .count
    (inPhase aaab 1 .count (Transient.zero.setFreq 0x62 0xFFFFFFFF)))).map
    (fun s => (s.statusWord, s.tr.freqAt 0x62)) = some (0x66#32, 0xFFFFFFFF) := by decide +kernel

/-- R111, R113, R114: the lighter leaf 1 is popped first and stands left. -/
theorem test_build : (asNext (exec .build (inPhase aaab 1 .build freqT))).map
    (fun s => (s.tr.nodeAt 1, s.tr.nodeAt 2, s.tr.root, s.phase)) =
    some (some ⟨1, true, 0x62, 0, 0⟩, some ⟨4, false, 0, 1, 0⟩, 2, .gencode) := by decide +kernel

/-- R112: of equal weights the smaller index first, the leaves 0 and 1 before the others. -/
theorem test_build_tie : (asNext (exec .build (inPhase [] 2 .build
    (((Transient.zero.setFreq 9 1).setFreq 7 1).setFreq 8 1)))).map
    (fun s => (s.tr.nodeAt 3, s.tr.nodeAt 4, s.phase)) =
    some (some ⟨2, false, 0, 0, 1⟩, some ⟨3, false, 0, 2, 3⟩, .decode) := by decide +kernel

/-- R121. -/
theorem test_gencode : (asNext (exec .gencode (inPhase aaab 1 .gencode treeT))).map
    (fun s => (s.tr.codeAt 0x61, s.tr.codeAt 0x62, (s.tr.codeAt 0).len, s.phase)) =
    some (⟨1, [true]⟩, ⟨1, [false]⟩, 0, .frame) := by decide +kernel

/-- R122. -/
theorem test_gencode_lone : (asNext (exec .gencode (inPhase aaab 1 .gencode loneT))).map
    (fun s => s.tr.codeAt 0x61) = some ⟨1, [false]⟩ := by decide +kernel

/-- R147, R148: header and table of V1. -/
theorem test_frame : (asNext (exec .frame (inPhase aaab 1 .frame codeT))).map
    (fun s => (s.dst, s.tr.wptr, s.tr.totalBits, s.phase)) =
    some (cells (aaabContainer.take 20), 20, 4, .encode) := by decide +kernel

/-- R146: one byte too few. -/
theorem test_frame_too_large : (asNext (exec .frame
    { inPhase aaab 1 .frame codeT with cfg := ⟨64, 20⟩ })).map
    (fun s => (s.statusWord, s.dst)) = some (0x76#32, []) := by decide +kernel

/-- R135 to R139: `1 1 1 0` and four bits of padding. -/
theorem test_encode : (asNext (exec .encode
    (inPhase aaab 1 .encode { codeT with wptr := 20 }))).map
    (fun s => (s.dst, s.dstLen, s.statusWord)) = some ([(20, 0xE0)], 21, 2#32) := by decide +kernel

/-- R122: each byte of a lone symbol costs one zero bit. -/
theorem test_encode_lone : (asNext (exec .encode
    (inPhase [0x61, 0x61, 0x61, 0x61] 1 .encode { loneT.setCode 0x61 [false] with wptr := 15 }))).map
    (fun s => (s.dst, s.dstLen)) = some ([(15, 0)], 16) := by decide +kernel

/-- R157 to R161 on V1's container. -/
theorem test_parse : (asNext (exec .parse (inPhase aaabContainer 2 .parse Transient.zero))).map
    (fun s => (s.tr.origCount, s.tr.nsym, s.tr.freqAt 0x61, s.tr.payBase, s.tr.payLen, s.phase)) =
    some (4, 2, 3, 20, 1, .build) := by decide +kernel

/-- R159: the symbol of the second entry is that of the first. -/
theorem test_parse_duplicate : (asNext (exec .parse
    (inPhase (aaabContainer.set 15 0x61) 2 .parse Transient.zero))).map
    (fun s => s.statusWord) = some 0x46#32 := by decide +kernel

/-- R172, R174 on V1's container. -/
theorem test_decode : (asNext (exec .decode (inPhase aaabContainer 2 .decode decodeT))).map
    (fun s => (s.dst, s.dstLen, s.statusWord)) = some (cells aaab, 4, 2#32) := by decide +kernel

/-- R174: the payload is missing. -/
theorem test_decode_mismatch : (asNext (exec .decode
    (inPhase (aaabContainer.take 20) 2 .decode { decodeT with payLen := 0 }))).map
    (fun s => (s.statusWord, s.dstLen)) = some (0x56#32, 0) := by decide +kernel

/-! ## The whole machine -/

/-- V1: the script `load aaab; run COMPRESS` up to the acceptance, then the command alone. -/
theorem test_compress_command : (asNext (engineRun maxEngineSteps (acceptedWith aaab 1))).map
    (fun s => (s.statusWord, s.dstLen, s.dst)) =
    some (2#32, 21, cells aaabContainer) := by decide +kernel

/-- R41, R43, R45: writes while busy are ignored; an address at the capacity is refused. -/
theorem test_host_port :
    hostWriteCsr 2 9#32 (acceptedWith aaab 1) = .next (acceptedWith aaab 1) ∧
    hostWriteSrc 64 0 (idleWith aaab) = .refused (.noSuchSrcByte 64) ∧
    hostReadDst 64 (idleWith aaab) = .refused (.noSuchDstByte 64) := ⟨rfl, rfl, rfl⟩

/-- R42, R73: a poll that sees BUSY = 1 stays in the script. -/
theorem test_poll : (asNext (hostStep { acceptedWith aaab 1 with script := poll })).map
    (fun s => (s.script, s.seen)) = some ([.poll], [.csr 1 1#32]) := by decide +kernel

/-- From reset: the placed word runs next. The capacity is a free value, and SRC_LEN = 0 lies below it. -/
theorem test_placed_words :
    (asNext (step (State.reset.withFetchWord 32 1))).map (fun s => s.statusWord) = some 0x16#32 ∧
    (asNext (step (State.reset.withFetchWord 8 5))).map (fun s => s.statusWord) = some 0x2#32 := by
  decide +kernel

/-! ## Witnesses: states and operands that meet the hypotheses of the statements -/

/-- The invariant holds while COMPRESS waits for its dispatch. -/
theorem accepted_inv : (acceptedWith aaab 1).Inv := by
  refine ⟨by decide +kernel, by decide +kernel, by decide +kernel, by decide +kernel,
    by decide +kernel, ?_, ?_, trivial⟩
  · unfold State.flagInv State.dstWritten
    decide +kernel
  · unfold State.pathInv
    decide +kernel

/-- The invariant holds in COUNT. -/
theorem count_inv : (inPhase aaab 1 .count Transient.zero).Inv := by
  refine ⟨by decide +kernel, by decide +kernel, by decide +kernel, by decide +kernel,
    by decide +kernel, ?_, ?_, rfl⟩
  · unfold State.flagInv State.dstWritten
    decide +kernel
  · unfold State.pathInv
    decide +kernel

/-- The invariant holds of a finished command's state, with a result in DST. -/
theorem idleWithResult_inv : idleWithResult.Inv := by
  refine ⟨by decide +kernel, by decide +kernel, by decide +kernel, by decide +kernel,
    by decide +kernel, ?_, ?_, trivial⟩
  · unfold State.flagInv State.dstWritten
    decide +kernel
  · unfold State.pathInv
    decide +kernel

/-- The cleared transient state fits its widths. -/
theorem zero_widths : Transient.zero.WidthsFit := by
  constructor
  case node =>
    intro i v hv
    by_cases h : i < 511
    · simp [Transient.nodeAt, Transient.zero, h] at hv
      subst hv
      simp [Node.zero]
    · simp [Transient.nodeAt, Transient.zero, h] at hv
  case code => simp [Code.empty]
  all_goals decide

/-- The queue of a table without nodes is empty. -/
theorem freqT_queueEmpty : freqT.queueEmpty := fun i => Transient.inqAt_zero i

/-- An idle queue beside other rests of an operation. -/
theorem loneT_queueEmpty : loneT.queueEmpty := fun i => Transient.inqAt_zero i

theorem witness_DecodeAndEncodeAgree :
    (Instr.illegal 4#32).wellFormed = true ∧
      decode (.command 0xFFFFFFFF#32) = .ok (.illegal 0xFFFFFFFF#32) ∧
      decode (.phase 7#4) = .ok .decode := by decide

theorem witness_ResetEventAtAnyTime :
    ∃ (s : State) (rest : List Turn), s.sched = .reset :: rest ∧ s.busy = true :=
  ⟨{ acceptedWith aaab 1 with sched := [.reset, .host] }, [.host], rfl, rfl⟩

theorem witness_HostWriteCsrRule :
    (acceptedWith aaab 1).busy = true ∧ (idleWith aaab).busy = false ∧ (1#32 ≠ 0#32) ∧
      (∀ n, n = 5 ∨ n = 6 → (n = 1 ∨ n = 4 ∨ n = 5 ∨ 6 ≤ n)) := by
  refine ⟨rfl, rfl, by decide, by omega⟩

theorem witness_HostReadCsrRule :
    ∃ s : State, s.Inv ∧ s.busy = true := ⟨_, accepted_inv, rfl⟩

theorem witness_HostSrcAccessRule :
    (idleWith aaab).cfg.srcCap ≤ 64 ∧ 63 < (acceptedWith aaab 1).cfg.srcCap ∧
      (acceptedWith aaab 1).busy = true ∧ (idleWith aaab).busy = false ∧
      (idleWith aaab).src.lookup 3 = some 0x62 := by decide +kernel

theorem witness_HostReadDstRule :
    idleWithResult.cfg.dstCap ≤ 64 ∧ idleWithResult.busy = false ∧
      3 < idleWithResult.dstLen ∧ idleWithResult.dst.lookup 3 = some 0x62 ∧
      idleWithResult.dstLen ≤ 4 ∧ 63 < idleWithResult.cfg.dstCap ∧
      (acceptedWith aaab 1).busy = true := by decide +kernel

theorem witness_AcceptanceRule :
    (acceptedWith aaab 1).busy = true ∧ (idleWith aaab).busy = false ∧
      (0xFFFFFFFF#32 ≠ 0#32) := ⟨rfl, rfl, by decide⟩

/-- The input may fill the buffer. -/
theorem witness_LoadPlacesTheInput :
    let s := { idleWith [] with cfg := ⟨4, 64⟩, script := load aaab ++ poll }
    s.busy = false ∧ s.sched = [] ∧ aaab.length ≤ s.cfg.srcCap ∧ s.cfg.wf ∧
      s.script = load aaab ++ poll := by decide +kernel

theorem witness_CompressDispatches :
    let long := { acceptedWith [] 1 with srcLenLo := 65 }
    let full := { acceptedWith [] 1 with srcLenLo := 64 }
    long.cfg.srcCap < long.srcLen ∧ (acceptedWith [] 1).srcLen = 0 ∧
      1 ≤ full.srcLen ∧ full.srcLen ≤ full.cfg.srcCap := by decide +kernel

theorem witness_DecompressDispatches :
    let long := { acceptedWith [] 2 with srcLenLo := 65 }
    let full := { acceptedWith [] 2 with srcLenLo := 64 }
    long.cfg.srcCap < long.srcLen ∧ full.srcLen ≤ full.cfg.srcCap := by decide +kernel

theorem witness_ClearRestoresResetValues :
    (acceptedWith aaab 3).accepted 3#32 ∧ (acceptedWith aaab 1).busy = true :=
  ⟨⟨rfl, rfl, rfl⟩, rfl⟩

theorem witness_IllegalWordsFail :
    4 ≤ (4#32).toNat ∧ 4 ≤ (0x80000001#32).toNat ∧ (idleWith aaab).busy = false := by
  decide +kernel

theorem witness_SuccessEpilogueRule : (2 ^ 64 - 1 : Nat) < 2 ^ 64 := by decide

theorem witness_CountCountsTheInput :
    let s := inPhase aaab 1 .count Transient.zero
    s.cmdLatch = 1#32 ∧ s.srcLen ≤ s.cfg.srcCap ∧ s.tr.freq = Vector.replicate 256 0 ∧
      ∀ b, s.input.count b < 2 ^ 32 := by
  refine ⟨rfl, by decide +kernel, rfl, ?_⟩
  intro b
  have h := List.count_le_length (a := b) (l := (inPhase aaab 1 .count Transient.zero).input)
  have h4 : (inPhase aaab 1 .count Transient.zero).input.length = 4 := by decide +kernel
  omega

theorem witness_CountOverflowFails :
    let s := inPhase aaab 1 .count (Transient.zero.setFreq 0x62 0xFFFFFFFF)
    s.cmdLatch = 1#32 ∧ s.srcLen ≤ s.cfg.srcCap ∧
      2 ^ 32 ≤ (s.tr.freqAt 0x62).toNat + s.input.count 0x62 := by decide +kernel

theorem witness_PopMinTakesTheLeast :
    (((treeT.setInq 0 true).setInq 1 true).popMin.map fun r => r.1) = some 1 ∧
      freqT.queueEmpty := ⟨by decide +kernel, freqT_queueEmpty⟩

theorem witness_BuildMakesTheTree :
    let s := inPhase aaab 1 .build freqT
    let u := inPhase aaabContainer 2 .build loneT
    (s.cmdLatch = 1#32 ∧ s.tr.alphabetSize ≠ 0 ∧ s.tr.queueEmpty) ∧
      (u.cmdLatch = 2#32 ∧ u.tr.alphabetSize ≠ 0 ∧ u.tr.queueEmpty) :=
  ⟨⟨rfl, by decide +kernel, freqT_queueEmpty⟩, ⟨rfl, by decide +kernel, loneT_queueEmpty⟩⟩

theorem witness_BuildPutsTheLighterLeft :
    freqT.queueEmpty ∧ ((buildTree freqT).map fun t => t.nodeAt 2) =
      some (some ⟨4, false, 0, 1, 0⟩) ∧ freqT.alphabetSize ≤ 2 ∧ 2 < 2 * freqT.alphabetSize - 1 :=
  ⟨freqT_queueEmpty, by decide +kernel, by decide +kernel, by decide +kernel⟩

theorem witness_BuildDependsOnFreqAlone :
    freqT.freq = treeT.freq ∧ freqT.queueEmpty ∧ treeT.queueEmpty ∧ freqT.alphabetSize ≠ 0 ∧
      freqT ≠ treeT :=
  ⟨rfl, freqT_queueEmpty, fun i => Transient.inqAt_zero i, by decide +kernel, by decide +kernel⟩

theorem witness_BuildWeightsFitTheirField :
    freqT.queueEmpty ∧ freqT.alphabetSize ≠ 0 ∧ (buildTree freqT).isSome = true :=
  ⟨freqT_queueEmpty, by decide +kernel, by decide +kernel⟩

theorem witness_EmptyTableMakesNoTree :
    let s := inPhase aaab 1 .build Transient.zero
    let u := inPhase aaab 2 .build Transient.zero
    (s.tr.alphabetSize = 0 ∧ s.cmdLatch = 1#32) ∧ (u.tr.alphabetSize = 0 ∧ u.cmdLatch = 2#32) := by
  decide +kernel

/-- In the tree of `aaab` only the one-bit paths lead to leaves. -/
theorem treeT_leafSymbol {p : List Bool} {c : Byte} (h : treeT.leafSymbol 2 p = some c) :
    (p = [false] ∧ c = 0x62) ∨ (p = [true] ∧ c = 0x61) := by
  have h0 : treeT.nodeAt 0 = some ⟨3, true, 0x61, 0, 0⟩ := by decide +kernel
  have h1 : treeT.nodeAt 1 = some ⟨1, true, 0x62, 0, 0⟩ := by decide +kernel
  have h2 : treeT.nodeAt 2 = some ⟨4, false, 0, 1, 0⟩ := by decide +kernel
  rcases p with _ | ⟨b, _ | ⟨d, q⟩⟩
  · simp [Transient.leafSymbol, Transient.follow, h2] at h
  · cases b
    · simp [Transient.leafSymbol, Transient.follow, h2, h1] at h
      exact .inl ⟨rfl, h.symm⟩
    · simp [Transient.leafSymbol, Transient.follow, h2, h0] at h
      exact .inr ⟨rfl, h.symm⟩
  · cases b <;> simp [Transient.leafSymbol, Transient.follow, h2, h1, h0] at h

theorem witness_GencodeAssignsThePaths :
    let s := inPhase aaab 1 .gencode treeT
    s.cmdLatch = 1#32 ∧ s.tr.treeValid = true ∧ s.tr.isTree 256 s.tr.root = true ∧
      s.tr.rootIsLeaf = false ∧
      ∀ p q c, s.tr.leafSymbol s.tr.root p = some c → s.tr.leafSymbol s.tr.root q = some c → p = q := by
  refine ⟨rfl, rfl, by decide +kernel, by decide +kernel, ?_⟩
  intro p q c hp hq
  rcases treeT_leafSymbol hp with ⟨rfl, rfl⟩ | ⟨rfl, rfl⟩ <;>
    rcases treeT_leafSymbol hq with ⟨rfl, h⟩ | ⟨rfl, h⟩ <;> first | rfl | exact absurd h (by decide)

theorem witness_GencodeWithoutAnInternalRoot :
    let s := inPhase aaab 1 .gencode loneT
    (s.cmdLatch = 1#32 ∧ s.tr.treeValid = true ∧
      s.tr.nodeAt s.tr.root = some ⟨4, true, 0x61, 0, 0⟩) ∧
      (inPhase aaab 1 .gencode freqT).tr.treeValid = false := by decide +kernel

theorem witness_CodesAreAPrefixCode :
    freqT.queueEmpty ∧ freqT.alphabetSize ≠ 0 ∧ ∀ c, freqT.codeAt c = Code.empty :=
  ⟨freqT_queueEmpty, by decide +kernel, fun c => Transient.codeAt_zero c⟩

theorem witness_CodesAreComplete :
    freqT.queueEmpty ∧ 2 ≤ freqT.alphabetSize ∧
      ∃ t1 t2, buildTree freqT = some t1 ∧ generateCodes t1 = some t2 := by
  refine ⟨freqT_queueEmpty, by decide +kernel, ?_⟩
  have h : ((buildTree freqT).bind generateCodes).isSome = true := by decide +kernel
  obtain ⟨t2, h2⟩ := Option.isSome_iff_exists.mp h
  obtain ⟨t1, h1, h1'⟩ := Option.bind_eq_some_iff.mp h2
  exact ⟨t1, t2, h1, h1'⟩

/-- The container fits to the byte, and is too large for one byte less. -/
theorem witness_FrameWritesHeaderAndTable :
    let s := { inPhase aaab 1 .frame codeT with cfg := ⟨64, 21⟩ }
    s.cmdLatch = 1#32 ∧ s.tr.nsym = s.tr.alphabetSize ∧
      10 + 5 * s.tr.nsym + ceil8 s.tr.codeBits ≤ s.cfg.dstCap := by decide +kernel

theorem witness_FrameTooLargeFails :
    let s := { inPhase aaab 1 .frame codeT with cfg := ⟨64, 20⟩ }
    s.cmdLatch = 1#32 ∧ s.cfg.dstCap < 10 + 5 * s.tr.nsym + ceil8 s.tr.codeBits := by decide +kernel

theorem witness_EncodePacksTheCodes :
    let s := { inPhase aaab 1 .encode { codeT with wptr := 20 } with cfg := ⟨4, 21⟩ }
    s.cmdLatch = 1#32 ∧ s.srcLen ≤ s.cfg.srcCap ∧ s.cfg.wf ∧
      s.tr.wptr + ceil8 s.inputBits.length ≤ s.cfg.dstCap := by decide +kernel

theorem witness_ParseAcceptsWellFormedContainers :
    let s := inPhase aaabContainer 2 .parse Transient.zero
    let bad := inPhase (aaabContainer.take 19) 2 .parse Transient.zero
    (s.cmdLatch = 2#32 ∧ s.srcLen ≤ s.cfg.srcCap ∧ s.tr.freq = Vector.replicate 256 0 ∧
      wellFormedContainer s.input ∧ fieldAt s.input 0 8 ≤ s.cfg.dstCap) ∧
      ({ s with cfg := ⟨64, 3⟩ } : State).cfg.dstCap < fieldAt s.input 0 8 ∧
      (bad.cmdLatch = 2#32 ∧ bad.srcLen ≤ bad.cfg.srcCap ∧
        bad.tr.freq = Vector.replicate 256 0 ∧ ¬ wellFormedContainer bad.input) :=
  ⟨⟨rfl, by decide +kernel, rfl, by decide +kernel, by decide +kernel⟩, by decide +kernel,
    rfl, by decide +kernel, rfl, by decide +kernel⟩

theorem witness_DecodeWalksTheTree :
    let s := inPhase aaabContainer 2 .decode decodeT
    let short := inPhase aaabContainer 2 .decode { decodeT with payLen := 0 }
    let out := fun s : State => (s.tr.walk s.payloadBits).take s.tr.origCount.toNat
    (s.cmdLatch = 2#32 ∧ s.tr.treeValid = true ∧ s.tr.isTree 256 s.tr.root = true ∧
      s.tr.origCount.toNat ≤ s.cfg.dstCap ∧ s.tr.payBase + s.tr.payLen ≤ s.cfg.srcCap ∧
      (out s).length = s.tr.origCount.toNat) ∧
      (short.cmdLatch = 2#32 ∧ short.tr.treeValid = true ∧
        short.tr.isTree 256 short.tr.root = true ∧ short.tr.origCount.toNat ≤ short.cfg.dstCap ∧
        short.tr.payBase + short.tr.payLen ≤ short.cfg.srcCap ∧
        (out short).length ≠ short.tr.origCount.toNat) := by decide +kernel

theorem witness_InstructionsKeepInputAndHost :
    (∃ t, exec .count (inPhase aaab 1 .count Transient.zero) = .next t ∧ t.tr.nsym = 2) ∧
      Instr.count ≠ .clear :=
  ⟨exists_next (by decide +kernel), by decide⟩

theorem witness_FlagsChangeOnlyInEpilogues :
    (∃ t, exec .count (inPhase aaab 1 .count Transient.zero) = .next t ∧ t.busy = true) ∧
      (∃ t, exec (.illegal 4) (acceptedWith aaab 4) = .next t ∧ t.fail = true) ∧
      (∃ t, exec .decode (inPhase aaabContainer 2 .decode decodeT) = .next t ∧
        t.done = true ∧ t.fail = false) ∧
      ∃ t, exec .clear (acceptedWith aaab 3) = .next t ∧ t.done = false :=
  ⟨exists_next (by decide +kernel), exists_next (by decide +kernel),
    exists_next (by decide +kernel), exists_next (by decide +kernel)⟩

theorem witness_PhasesWriteOnlyTheirRegisters :
    (∃ t, exec .count (inPhase aaab 1 .count Transient.zero) = .next t ∧ t.phase = .build) ∧
    (∃ t, exec .build (inPhase aaab 1 .build freqT) = .next t ∧ t.phase = .gencode) ∧
    (∃ t, exec .gencode (inPhase aaab 1 .gencode treeT) = .next t ∧ t.phase = .frame) ∧
    (∃ t, exec .frame (inPhase aaab 1 .frame codeT) = .next t ∧ t.phase = .encode) ∧
    (∃ t, exec .encode (inPhase aaab 1 .encode { codeT with wptr := 20 }) = .next t ∧
      t.phase = .idle) ∧
    (∃ t, exec .parse (inPhase aaabContainer 2 .parse Transient.zero) = .next t ∧
      t.phase = .build) ∧
    ∃ t, exec .decode (inPhase aaabContainer 2 .decode decodeT) = .next t ∧ t.phase = .idle :=
  ⟨exists_next (by decide +kernel), exists_next (by decide +kernel),
    exists_next (by decide +kernel), exists_next (by decide +kernel),
    exists_next (by decide +kernel), exists_next (by decide +kernel),
    exists_next (by decide +kernel)⟩

/-- One clause each: FRAME past its table and on its error, ENCODE on both sides of its stream,
DECODE past its output. -/
theorem witness_DstBytesOutsideTheStreamStay :
    (∃ t, exec .frame (inPhase aaab 1 .frame codeT) = .next t ∧
      10 + 5 * codeT.alphabetSize ≤ 20) ∧
    (∃ t, exec .frame { inPhase aaab 1 .frame codeT with cfg := ⟨64, 20⟩ } = .next t ∧
      t.err = some .dstOverflow ∧ t.busy = false) ∧
    (∃ t, exec .encode (inPhase aaab 1 .encode { codeT with wptr := 20 }) = .next t ∧
      19 < 20 ∧ t.tr.wptr ≤ 21) ∧
    ∃ t, exec .decode (inPhase aaabContainer 2 .decode decodeT) = .next t ∧ t.tr.wptr ≤ 4 :=
  ⟨exists_next (by decide +kernel), exists_next (by decide +kernel),
    exists_next (by decide +kernel), exists_next (by decide +kernel)⟩

theorem witness_StepRunsTheDecodedInstruction :
    let s := acceptedWith aaab 1
    let p := { inPhase aaab 1 .build freqT with sched := [.engine, .host] }
    let n := { idleWith aaab with script := cmd 0 ++ poll }
    (s.busy = true ∧ s.cmdLatch ≠ 0 ∧ decode s.controlWord = .ok .compress ∧ s.sched = []) ∧
      (p.busy = true ∧ p.cmdLatch ≠ 0 ∧ decode p.controlWord = .ok .build ∧
        p.sched = [.engine, .host]) ∧
      (n.busy = false ∧ n.script = .op (.writeCsr 0 0) :: poll ∧ n.sched = [] ∧
        ({ n with sched := [.host, .engine] } : State).sched = [.host, .engine]) := by
  decide +kernel

theorem witness_PlacedWordRunsNext :
    decodeTableWord 32 0 = some .nop ∧ decodeTableWord 32 0xFFFFFFFF = some (.illegal 0xFFFFFFFF#32) ∧
      decodeTableWord 8 7 = some .decode := by decide

theorem witness_PhaseAdvancesAlongThePath :
    (acceptedWith aaab 1).busy = true ∧
      ∃ t, engineStep (acceptedWith aaab 1) = .next t ∧ t.phase = .count :=
  ⟨rfl, exists_next (by decide +kernel)⟩

theorem witness_BusyHostMovesDoNotDisturbTheEngine :
    let s := { acceptedWith aaab 1 with script := wlen 9 }
    s.busy = true ∧ (∃ t, hostStep s = .next t ∧ t.srcLen = 4) ∧
      ∃ t, engineStep s = .next t ∧ t.phase = .count :=
  ⟨rfl, exists_next (by decide +kernel), exists_next (by decide +kernel)⟩

theorem witness_EngineNeverReadsDst :
    ∃ t, engineStep (inPhase aaab 1 .frame codeT) = .next t ∧ t.phase = .encode :=
  exists_next (by decide +kernel)

theorem witness_EveryStepKeepsTheInvariant :
    (acceptedWith aaab 1).Inv ∧ (∃ t, step (acceptedWith aaab 1) = .next t ∧ t.phase = .count) ∧
    (inPhase aaab 1 .count Transient.zero).Inv ∧
      (∃ t, step (inPhase aaab 1 .count Transient.zero) = .next t ∧ t.phase = .build) ∧
    idleWithResult.Inv ∧ ∃ t, step idleWithResult = .next t ∧ t.done = true :=
  ⟨accepted_inv, exists_next (by decide +kernel), count_inv, exists_next (by decide +kernel),
    idleWithResult_inv, exists_next (by decide +kernel)⟩

theorem witness_EveryStepKeepsTheWidths :
    (inPhase aaab 1 .count Transient.zero).Inv ∧
      (inPhase aaab 1 .count Transient.zero).tr.WidthsFit ∧
      ∃ t, step (inPhase aaab 1 .count Transient.zero) = .next t ∧ t.tr.nsym = 2 :=
  ⟨count_inv, zero_widths, exists_next (by decide +kernel)⟩

theorem witness_NoStepIsStuck : ∃ s : State, s.Inv ∧ s.busy = true := ⟨_, count_inv, rfl⟩

theorem witness_EveryCommandEnds : ∃ s : State, s.Inv ∧ s.busy = true := ⟨_, accepted_inv, rfl⟩

theorem witness_CompressIsItsFunction :
    (acceptedWith aaab 1).accepted 1#32 ∧ (acceptedWith aaab 1).cfg.wf ∧
      compressRef (acceptedWith aaab 1).cfg (acceptedWith aaab 1).input = .ok aaabContainer ∧
      (acceptedWith [] 1).accepted 1#32 ∧
      compressRef (acceptedWith [] 1).cfg (acceptedWith [] 1).input = .error .emptyInput := by
  refine ⟨⟨rfl, rfl, rfl⟩, by decide +kernel, by decide +kernel, ⟨rfl, rfl, rfl⟩, by decide +kernel⟩

theorem witness_DecompressIsItsFunction :
    let s := acceptedWith aaabContainer 2
    let bad := acceptedWith (aaabContainer.take 20) 2
    s.accepted 2#32 ∧ s.cfg.wf ∧ decompressRef s.cfg s.input = .ok aaab ∧
      bad.accepted 2#32 ∧ decompressRef bad.cfg bad.input = .error .sizeMismatch := by
  refine ⟨⟨rfl, rfl, rfl⟩, by decide +kernel, by decide +kernel, ⟨rfl, rfl, rfl⟩, by decide +kernel⟩

/-- COMPRESS of `aaab` ends well with its container. -/
theorem aaab_compresses : ∃ t, engineRun maxEngineSteps (acceptedWith aaab 1) = .next t ∧
    t.endedWith aaabContainer := by
  unfold State.endedWith State.holdsResult
  exact exists_next (by decide +kernel)

theorem witness_RoundTrip :
    let s := acceptedWith aaab 1
    let u := { acceptedWith aaabContainer 2 with cfg := ⟨21, 4⟩ }
    s.accepted 1#32 ∧ s.cfg.wf ∧
      (∃ t, engineRun maxEngineSteps s = .next t ∧ t.endedWith aaabContainer) ∧
      u.accepted 2#32 ∧ u.cfg.wf ∧ u.input = aaabContainer ∧
      aaabContainer.length ≤ u.cfg.srcCap ∧ s.srcLen ≤ u.cfg.dstCap :=
  ⟨⟨rfl, rfl, rfl⟩, by decide +kernel, aaab_compresses, ⟨rfl, rfl, rfl⟩, by decide +kernel,
    by decide +kernel, by decide +kernel, by decide +kernel⟩

/-- Cut by one byte, and cut into the table. -/
theorem witness_TruncationIsDetected :
    let s := acceptedWith aaab 1
    let u := fun j => acceptedWith (aaabContainer.take (aaabContainer.length - j)) 2
    s.accepted 1#32 ∧ s.cfg.wf ∧
      (∃ t, engineRun maxEngineSteps s = .next t ∧ t.endedWith aaabContainer) ∧
      ∀ j, j = 1 ∨ j = 2 ∨ j = 21 →
        1 ≤ j ∧ j ≤ aaabContainer.length ∧ (u j).accepted 2#32 ∧ (u j).cfg.wf ∧
        (u j).input = aaabContainer.take (aaabContainer.length - j) ∧
        aaabContainer.length ≤ (u j).cfg.srcCap ∧ s.srcLen ≤ (u j).cfg.dstCap := by
  refine ⟨⟨rfl, rfl, rfl⟩, by decide +kernel, aaab_compresses, ?_⟩
  rintro j (rfl | rfl | rfl) <;>
    exact ⟨by decide, by decide, ⟨rfl, rfl, rfl⟩, by decide +kernel, by decide +kernel,
      by decide +kernel, by decide +kernel⟩

theorem witness_BuildAndGenCodeSpendAtMostEightBits :
    buildRef (fun s => aaab.count s) = some (.node (.leaf 0x62) (.leaf 0x61)) := by decide +kernel

theorem witness_CompressPayloadIsNoLongerThanTheInput :
    (freqT.queueEmpty ∧ ∃ t1 t2, buildTree freqT = some t1 ∧ generateCodes t1 = some t2) ∧
      (acceptedWith aaab 1).accepted 1#32 ∧ (acceptedWith aaab 1).cfg.wf ∧
      ∃ t, engineRun maxEngineSteps (acceptedWith aaab 1) = .next t ∧ t.endedWith aaabContainer :=
  ⟨⟨freqT_queueEmpty, witness_CodesAreComplete.2.2⟩, ⟨rfl, rfl, rfl⟩, by decide +kernel,
    aaab_compresses⟩

/-- The two states differ in DST, in the rest of SRC and in the transient state. -/
theorem witness_OperationsArePure :
    let s := acceptedWith aaab 1
    let u := { acceptedWith aaab 1 with src := cells aaabContainer, dst := cells aaab, tr := codeT }
    let v := { u with src := cells (aaab ++ [0]) }
    s.accepted 1#32 ∧ v.accepted 1#32 ∧ s.cfg = v.cfg ∧ s.cfg.wf ∧ s.input = v.input ∧
      s.dst ≠ v.dst :=
  ⟨⟨rfl, rfl, rfl⟩, ⟨rfl, rfl, rfl⟩, rfl, by decide +kernel, by decide +kernel, by decide +kernel⟩

end Sys2Proof.Tests
end

section
/-! SUPPORT. How many symbols the frequency table holds and how many nodes the queue holds, and the
sum of the code lengths over an input (10_state.md R23, R25, 45_framer.md R146). -/

namespace Sys2Proof.Machine

/-! ### The number of symbols and the length of the queue -/

theorem Transient.alphabetSize_eq_countP (t : Transient) :
    t.alphabetSize = t.freq.countP (· != 0) := by
  have hsnd : (allSymbols.zip t.freq.toList).map Prod.snd = t.freq.toList :=
    List.map_snd_zip (by simp)
  calc t.alphabetSize = (allSymbols.zip t.freq.toList).countP ((· != 0) ∘ Prod.snd) :=
        List.countP_eq_length_filter.symm
    _ = t.freq.toList.countP (· != 0) := by rw [← List.countP_map, hsnd]
    _ = t.freq.countP (· != 0) := Vector.countP_toList

theorem Transient.alphabetSize_le (t : Transient) : t.alphabetSize ≤ 256 := by
  rw [t.alphabetSize_eq_countP]; exact Vector.countP_le_size

/-- A symbol that had no frequency and gets one makes the alphabet larger by one. -/
theorem Transient.alphabetSize_setFreq {t : Transient} {c : Byte} {v : BitVec 32}
    (hc : t.freqAt c = 0) (hv : v ≠ 0) : (t.setFreq c v).alphabetSize = t.alphabetSize + 1 := by
  simp only [Transient.alphabetSize_eq_countP, Transient.setFreq]
  have hget : t.freq[c.toNat]'c.isLt = 0 := hc
  rw [Vector.countP_set, hget, if_neg (by simp), if_pos (by simpa using hv), Nat.sub_zero]

/-- A symbol that occurs makes the alphabet non-empty. -/
theorem Transient.alphabetSize_pos {t : Transient} {c : Byte} (h : t.freqAt c ≠ 0) :
    1 ≤ t.alphabetSize :=
  List.length_pos_of_mem (Transient.mem_entries.2 ⟨rfl, h⟩)

theorem onesFrom_length (i : Nat) (bs : List Bool) : (onesFrom i bs).length = bs.count true := by
  induction bs generalizing i with
  | nil => rfl
  | cons b bs ih => cases b <;> simp [onesFrom, ih]

theorem Transient.queue_length (t : Transient) : t.queue.length = t.inq.count true := by
  rw [Transient.queue, onesFrom_length, Vector.count_toList]

theorem Transient.setInq_inq {t : Transient} {i : Nat} {v : Bool} (h : i < 511) :
    (t.setInq i v).inq = t.inq.set i v h := by
  simp [Transient.setInq, Vector.setIfInBounds, Vector.set, Array.setIfInBounds, h]

/-- Taking a queued index out of the queue makes it shorter by one. -/
theorem Transient.queue_length_pop {t : Transient} {i : Nat} (h : t.inqAt i = true) :
    (t.setInq i false).queue.length + 1 = t.queue.length := by
  have hi : t.inq[i]? = some true := by simpa [Transient.inqAt] using h
  obtain ⟨hlt, hget⟩ := Vector.getElem?_eq_some_iff.1 hi
  have hpos : 0 < t.inq.count true := Vector.count_pos_iff.2 (hget ▸ Vector.getElem_mem hlt)
  rw [Transient.queue_length, Transient.queue_length, Transient.setInq_inq hlt, Vector.count_set,
    hget]
  change t.inq.count true - 1 + 0 + 1 = _
  omega

/-- Putting a slot that is not queued into the queue makes it longer by one. -/
theorem Transient.queue_length_push {t : Transient} {i : Nat} (hlt : i < 511)
    (h : t.inqAt i = false) : (t.setInq i true).queue.length = t.queue.length + 1 := by
  have hget : t.inq[i] = false := by
    simpa [Transient.inqAt, Vector.getElem?_eq_getElem hlt] using h
  rw [Transient.queue_length, Transient.queue_length, Transient.setInq_inq hlt, Vector.count_set,
    hget]
  rfl

theorem Transient.queue_eq_nil_of_queueEmpty {t : Transient} (h : t.queueEmpty) : t.queue = [] :=
  List.eq_nil_iff_forall_not_mem.2 fun i hi => by
    rw [Transient.mem_queue, h i] at hi; cases hi

/-! ### Sums of code lengths -/

/-- The table entries are the symbols with a frequency, each with it (R23). -/
theorem Transient.entries_eq_filter_map (t : Transient) :
    t.entries = (allSymbols.map fun c => (c, t.freqAt c)).filter fun e => e.2 != 0 := by
  have hzip : allSymbols.zip t.freq.toList = allSymbols.map fun c => (c, t.freqAt c) := by
    refine List.ext_getElem (by simp) fun i h _ => ?_
    have hi : i < 256 := by simpa using h
    have hmod : i % 256 = i := Nat.mod_eq_of_lt hi
    simp [allSymbols, Transient.freqAt, hmod]
  rw [Transient.entries, hzip]

/-- A sum over the table entries is the sum over all symbols: the others add nothing (R146). -/
theorem Transient.sum_entries (t : Transient) (g : Byte → Nat) :
    (t.entries.map fun e => e.2.toNat * g e.1).sum =
      (allSymbols.map fun c => (t.freqAt c).toNat * g c).sum := by
  rw [t.entries_eq_filter_map]
  induction allSymbols with
  | nil => rfl
  | cons c cs ih =>
    by_cases h : t.freqAt c = 0#32
    · simpa [h] using ih
    · simpa [h] using ih

theorem allSymbols_nodup : allSymbols.Nodup := allSymbols_pairwise.imp fun h => BitVec.ne_of_lt h

/-- A sum over the bytes of an input, collected by symbol. -/
theorem sum_map_eq_sum_count (input : List Byte) (g : Byte → Nat) :
    (input.map g).sum = (allSymbols.map fun c => input.count c * g c).sum := by
  rw [Finset.sum_list_map_count, ← List.sum_toFinset _ allSymbols_nodup]
  refine Finset.sum_subset (fun c _ => by simp) fun c _ hc => ?_
  simp [List.count_eq_zero_of_not_mem (fun h => hc (List.mem_toFinset.2 h))]

/-- When FREQ holds the input's counts, T is the number of code bits of the input (R146). -/
theorem State.sum_codeLen_input {s : State} (h : s.countsInput) :
    (s.input.map fun b => (s.tr.codeAt b).len.toNat).sum = s.tr.codeBits := by
  rw [sum_map_eq_sum_count, Transient.codeBits,
    s.tr.sum_entries fun c => (s.tr.codeAt c).len.toNat]
  simp only [h _]

end Sys2Proof.Machine
end

section
/-! SUPPORT. A piece of a phase that is never stuck, and what it leaves: the rules of `Run.ends`,
and with them the phases COUNT and PARSE (43_freq_counter.md, 46_parser.md). -/

namespace Sys2Proof.Machine

/-- The piece is not stuck, and where it goes on, the state meets P. -/
def Run.ends (P : State → Prop) : Run → Prop
  | .ok t => P t
  | .raised _ _ => True
  | .stuck _ => False

@[simp] theorem Run.ends_ok {P : State → Prop} {t : State} : (Run.ok t).ends P ↔ P t := .rfl

@[simp] theorem Run.ends_raised {P : State → Prop} {k : ErrorKind} {t : State} :
    (Run.raised k t).ends P := trivial

theorem Run.ends.mono {P Q : State → Prop} {r : Run} (h : r.ends P) (hPQ : ∀ t, P t → Q t) :
    r.ends Q := by
  cases r with
  | ok t => exact hPQ t h
  | raised k t => trivial
  | stuck e => exact h

theorem Run.ends.andThen {P Q : State → Prop} {r : Run} {f : State → Run} (h : r.ends P)
    (hf : ∀ t, P t → (f t).ends Q) : (r.andThen f).ends Q := by
  cases r with
  | ok t => exact hf t h
  | raised k t => trivial
  | stuck e => exact h

theorem Run.ends_ite {P : State → Prop} {c : Prop} [Decidable c] {r r' : Run}
    (h : c → r.ends P) (h' : ¬ c → r'.ends P) : (if c then r else r').ends P := by
  split
  · next hc => exact h hc
  · next hc => exact h' hc

/-- A check that raises an error is never stuck. -/
theorem Run.ends_check {P : State → Prop} {c : Prop} [Decidable c] {k : ErrorKind} {t : State}
    {r : Run} (h : ¬ c → r.ends P) : (if c then .raised k t else r).ends P :=
  Run.ends_ite (fun _ => trivial) h

/-! ### The input -/

theorem State.input_eq_range' (s : State) :
    s.input = (List.range' 0 s.srcLen).map s.srcByte := by
  rw [State.input, List.range_eq_range']

theorem State.input_length (s : State) : s.input.length = s.srcLen := by simp [State.input]

/-! ### COUNT -/

/-- An increment that does not overflow adds one to the frequency of its symbol alone (R131). -/
theorem increment_ends (s : State) (c : Byte) :
    (s.increment c).ends fun t =>
      ∃ f, t = s.withTr (fun tr => { tr with freq := f }) ∧
        ∀ b, (t.tr.freqAt b).toNat = (s.tr.freqAt b).toNat + if c = b then 1 else 0 := by
  unfold State.increment
  refine Run.ends_check fun hmax => ⟨_, rfl, fun b => ?_⟩
  rw [State.withTr_tr, Transient.freqAt_setFreq]
  by_cases hb : b = c
  · subst hb
    simp only [if_true]
    bv_omega
  · simp [hb, Ne.symm hb]

/-- The loop of R130 adds to FREQ the counts of the bytes it reads. -/
theorem countLoop_ends {n : Nat} {s : State} (h : s.tr.rptr + n ≤ s.cfg.srcCap) :
    (countLoop n s).ends fun t =>
      t.tr.inq = s.tr.inq ∧ t.tr.code = s.tr.code ∧
        ∀ b, (t.tr.freqAt b).toNat =
          (s.tr.freqAt b).toNat + ((List.range' s.tr.rptr n).map s.srcByte).count b := by
  induction n generalizing s with
  | zero => exact ⟨rfl, rfl, fun b => rfl⟩
  | succ n ih =>
    rw [countLoop, State.withSrc_of_lt (by omega)]
    refine (increment_ends s _).andThen ?_
    rintro _ ⟨f, rfl, hinc⟩
    refine (ih (by simp only [State.withTr_tr, State.withTr_cfg]; omega)).mono ?_
    rintro t ⟨hinq, hcode, hfreq⟩
    refine ⟨hinq, hcode, fun b => (hfreq b).trans ?_⟩
    change ((State.withTr s fun tr => { tr with freq := f }).tr.freqAt b).toNat +
      ((List.range' (s.tr.rptr + 1) n).map s.srcByte).count b = _
    rw [hinc, List.range'_succ, List.map_cons, List.count_cons]
    simp only [beq_iff_eq]
    omega

theorem Transient.queueEmpty_congr {t u : Transient} (h : t.inq = u.inq) (hu : u.queueEmpty) :
    t.queueEmpty := fun i => by rw [Transient.inqAt, h]; exact hu i

theorem Transient.codesWf_congr {t u : Transient} (h : t.code = u.code) (hu : u.codesWf) :
    t.codesWf := fun b => by rw [Transient.codeAt, h]; exact hu b

theorem Transient.queueEmpty_zero : Transient.zero.queueEmpty := Transient.inqAt_zero

@[simp] theorem Transient.alphabetSize_zero : Transient.zero.alphabetSize = 0 := by
  rw [Transient.alphabetSize, List.length_eq_zero_iff, List.eq_nil_iff_forall_not_mem]
  rintro ⟨c, v⟩ h
  obtain ⟨rfl, h0⟩ := Transient.mem_entries.1 h
  exact h0 (Transient.freqAt_zero c)

theorem Transient.codesWf_zero : Transient.zero.codesWf := fun b => by simp [Code.empty]

/-- What COUNT leaves: the counts of the input (R130 to R132). -/
theorem countBody_ends {s : State} (hlen : s.srcLen ≤ s.cfg.srcCap)
    (hzero : s.tr = Transient.zero) :
    (countBody s).ends fun t =>
      t.tr.queueEmpty ∧ t.tr.codesWf ∧ t.tr.nsym = t.tr.alphabetSize ∧
        ∀ b, (t.tr.freqAt b).toNat = s.input.count b := by
  refine (countLoop_ends (by simpa using hlen)).andThen ?_
  rintro t ⟨hinq, hcode, hfreq⟩
  refine ⟨Transient.queueEmpty_congr (u := s.tr) hinq (hzero ▸ Transient.queueEmpty_zero),
    Transient.codesWf_congr (u := s.tr) hcode (hzero ▸ Transient.codesWf_zero), rfl,
    fun b => (hfreq b).trans ?_⟩
  change (s.tr.freqAt b).toNat + ((List.range' 0 s.srcLen).map s.srcByte).count b = _
  simp [hzero, s.input_eq_range']

/-! ### PARSE -/

/-- PARSE takes an entry only if it gives one more symbol a frequency (R159). -/
theorem parseEntry_ends {k : Nat} {s : State} (h : 15 + 5 * k ≤ s.cfg.srcCap) :
    (parseEntry s k).ends fun t =>
      ∃ f, t = s.withTr (fun tr => { tr with freq := f }) ∧
        t.tr.alphabetSize = s.tr.alphabetSize + 1 := by
  rw [parseEntry, State.withSrc_of_lt (by unfold entrySymAddr; omega),
    State.withSrcLe_of_le (by unfold entryFreqAddr; omega)]
  refine Run.ends_check fun hf => Run.ends_check fun hsym => ?_
  have hlt := leNat_lt ((List.range 4).map fun i => s.srcByte (entryFreqAddr k + i))
  generalize leNat ((List.range 4).map fun i => s.srcByte (entryFreqAddr k + i)) = v at hf hlt
  refine ⟨_, rfl, Transient.alphabetSize_setFreq (by simpa using hsym) fun h0 => hf ?_⟩
  have hv : v % 2 ^ 32 = 0 := by simpa using congrArg BitVec.toNat h0
  simp only [List.length_map, List.length_range] at hlt
  omega

theorem parseEntries_ends {n k : Nat} {s : State} (h : 10 + 5 * (k + n) ≤ s.cfg.srcCap) :
    (parseEntries n k s).ends fun t =>
      ∃ f, t = s.withTr (fun tr => { tr with freq := f }) ∧
        t.tr.alphabetSize = s.tr.alphabetSize + n := by
  induction n generalizing k s with
  | zero => exact ⟨_, rfl, rfl⟩
  | succ n ih =>
    refine (parseEntry_ends (by omega)).andThen ?_
    rintro _ ⟨f, rfl, hf⟩
    refine (ih (k := k + 1) (by rw [State.withTr_cfg]; omega)).mono ?_
    rintro _ ⟨g, rfl, hg⟩
    exact ⟨g, rfl, by omega⟩

/-- The header fields of a container that has a header (R157). -/
theorem parseHeader_of_le {s : State} (h : headerLen ≤ s.cfg.srcCap) :
    ∃ c n, parseHeader s = .ok (s.withTr fun t => { t with origCount := c, tableN := n }) := by
  unfold headerLen at h
  rw [parseHeader, State.withSrcLe_of_le (by omega), State.withSrcLe_of_le (by omega)]
  exact ⟨_, _, rfl⟩

/-- What PARSE leaves for BUILD: one symbol for each entry of a table that has some, a payload
inside the input, and a count that fits DST (R155, R161). -/
theorem parseBody_ends {s : State} (hlen : s.srcLen ≤ s.cfg.srcCap)
    (hzero : s.tr = Transient.zero) :
    (parseBody s).ends fun t =>
      t.tr.queueEmpty ∧ t.tr.codesWf ∧ t.tr.nsym = t.tr.alphabetSize ∧ 1 ≤ t.tr.alphabetSize ∧
        t.tr.origCount.toNat ≤ s.cfg.dstCap ∧ t.tr.payBase + t.tr.payLen = s.srcLen := by
  refine Run.ends_check fun hhead => ?_
  obtain ⟨c, n, hparse⟩ := parseHeader_of_le (s := s) (by omega)
  rw [hparse, Run.andThen_ok]
  refine Run.ends_check fun hn => Run.ends_check fun hbody => ?_
  simp only [State.withTr_tr, State.withTr_srcLen] at hn hbody ⊢
  refine (parseEntries_ends (by rw [State.withTr_cfg]; omega)).andThen ?_
  rintro t ⟨f, rfl, hf⟩
  have hsize : (State.withTr s fun tr => { tr with freq := f }).tr.alphabetSize = n.toNat :=
    hf.trans (by rw [State.withTr_tr]; change s.tr.alphabetSize + n.toNat = _; simp [hzero])
  refine Run.ends_check fun hcap => ?_
  refine ⟨Transient.queueEmpty_congr (u := s.tr) rfl (hzero ▸ Transient.queueEmpty_zero),
    Transient.codesWf_congr (u := s.tr) rfl (hzero ▸ Transient.codesWf_zero), hsize.symm,
    ?_, Nat.not_lt.1 hcap, Nat.add_sub_cancel' (Nat.not_lt.1 hbody)⟩
  change 1 ≤ (State.withTr s fun tr => { tr with freq := f }).tr.alphabetSize
  omega

end Sys2Proof.Machine
end

section
/-! SUPPORT. BUILD and GENCODE on the transient state alone: BUILD always finds two nodes to merge
and a free slot, every child stands below its parent, and so GENCODE's walk stays inside 256 nodes
(41_tree_builder.md R110 to R118, 42_code_generator.md R120 to R124). -/

namespace Sys2Proof.Machine

/-! ### BUILD -/

/-- Only what BUILD writes differs (10_state.md R20, R28). -/
def Transient.onlyArena (t u : Transient) : Prop :=
  u = { t with
    node := u.node, inq := u.inq, nextFree := u.nextFree, root := u.root, treeValid := u.treeValid }

theorem Transient.onlyArena.trans {t u v : Transient} (h : t.onlyArena u) (h' : u.onlyArena v) :
    t.onlyArena v := by
  unfold Transient.onlyArena at h h' ⊢
  rw [h', h]

/-- The first k slots hold nodes of a table with n symbols: each is a leaf, or stands from slot n on
and above both its children; and only these slots are queued. -/
structure Transient.Forest (n k : Nat) (t : Transient) : Prop where
  slot : ∀ i, i < k → ∃ v, t.nodeAt i = some v ∧
    (v.isLeaf = true ∨ n ≤ i ∧ v.left < i ∧ v.right < i)
  queued : ∀ i, t.inqAt i = true → i < k

/-- Taking a slot out of the queue leaves the nodes alone. -/
theorem Transient.Forest.pop {n k : Nat} {t : Transient} (h : t.Forest n k) (i : Nat) :
    (t.setInq i false).Forest n k where
  slot := h.slot
  queued j hj := h.queued j <| by
    rw [Transient.inqAt_setInq] at hj
    split at hj
    · cases hj
    · exact hj

/-- A leaf, or a node over two smaller slots, goes into the next slot and into the queue. -/
theorem Transient.Forest.push {n k : Nat} {t : Transient} (h : t.Forest n k) (hk : k < 511)
    {v : Node} (hv : v.isLeaf = true ∨ n ≤ k ∧ v.left < k ∧ v.right < k) :
    ((t.setNode k v).setInq k true).Forest n (k + 1) ∧
      ((t.setNode k v).setInq k true).queue.length = t.queue.length + 1 := by
  refine ⟨⟨fun i hi => ?_, fun i hi => ?_⟩, ?_⟩
  · rw [Transient.nodeAt_setInq, Transient.nodeAt_setNode]
    by_cases hik : k = i
    · subst hik; exact ⟨v, if_pos ⟨rfl, hk⟩, hv⟩
    · rw [if_neg fun h => hik h.1]; exact h.slot i (by omega)
  · rw [Transient.inqAt_setInq, Transient.inqAt_setNode] at hi
    split at hi
    · omega
    · exact Nat.lt_succ_of_lt (h.queued i hi)
  · refine Transient.queue_length_push hk ?_
    rw [Transient.inqAt_setNode, ← Bool.not_eq_true]
    exact fun hq => absurd (h.queued k hq) (lt_irrefl k)

theorem createLeaves_forest {n k : Nat} {es : List (Byte × BitVec 32)} {t : Transient}
    (h : t.Forest n k) (hk : k + es.length ≤ 511) :
    (createLeaves es k t).Forest n (k + es.length) ∧
      (createLeaves es k t).nextFree = k + es.length ∧
      (createLeaves es k t).queue.length = t.queue.length + es.length ∧
      t.onlyArena (createLeaves es k t) := by
  induction es generalizing k t with
  | nil => exact ⟨⟨h.slot, h.queued⟩, rfl, rfl, rfl⟩
  | cons e es ih =>
    rw [List.length_cons] at hk ⊢
    obtain ⟨hpush, hlen⟩ := h.push (v := ⟨e.2.toNat, true, e.1, 0, 0⟩) (by omega) (.inl rfl)
    obtain ⟨hforest, hnext, hqueue, honly⟩ := ih hpush (by omega)
    rw [Nat.add_right_comm] at hforest hnext
    exact ⟨hforest, hnext, by rw [createLeaves, hqueue, hlen]; omega,
      Transient.onlyArena.trans (u := (t.setNode k _).setInq k true) rfl honly⟩

theorem Transient.least_mem {t : Transient} {l : List Nat} (h : l ≠ []) :
    ∃ i ∈ l, t.least l = some i := by
  induction l with
  | nil => exact absurd rfl h
  | cons i l ih =>
    rw [Transient.least]
    by_cases hl : l = []
    · subst hl; exact ⟨i, by simp, rfl⟩
    · obtain ⟨j, hj, hleast⟩ := ih hl
      rw [hleast]
      by_cases hb : t.before j i = true
      · exact ⟨j, List.mem_cons_of_mem _ hj, by simp [hb]⟩
      · exact ⟨i, List.mem_cons_self .., by simp [hb]⟩

/-- PopMin takes an index of a non-empty queue out of it (R112). -/
theorem Transient.popMin_of_ne_nil {t : Transient} (h : t.queue ≠ []) :
    ∃ i, t.popMin = some (i, t.setInq i false) ∧ t.inqAt i = true ∧
      (t.setInq i false).queue.length + 1 = t.queue.length := by
  obtain ⟨i, hmem, hleast⟩ := t.least_mem h
  have hi := Transient.mem_queue.1 hmem
  exact ⟨i, by rw [Transient.popMin, hleast]; rfl, hi, Transient.queue_length_pop hi⟩

/-- The state after a parent of a and b goes into the next slot and into the queue (R113). -/
def Transient.pushParent (t : Transient) (a b : Nat) : Transient :=
  { (t.setNode t.nextFree ⟨t.weightAt a + t.weightAt b, false, 0, a, b⟩).setInq t.nextFree true with
    nextFree := t.nextFree + 1 }

theorem mergeOnce_of_popMin {t u v : Transient} {a b : Nat} (ha : t.popMin = some (a, u))
    (hb : u.popMin = some (b, v)) (hfree : v.nextFree < Config.nodeMax) :
    mergeOnce t = some (v.pushParent a b) := by
  simp only [mergeOnce, ha, hb, Option.bind_eq_bind, Option.bind_some]
  rw [if_pos hfree]
  rfl

theorem Transient.Forest.pushParent {n a b : Nat} {t : Transient} (h : t.Forest n t.nextFree)
    (hn : n ≤ t.nextFree) (hfree : t.nextFree < 511) (ha : a < t.nextFree) (hb : b < t.nextFree) :
    (t.pushParent a b).Forest n (t.nextFree + 1) ∧
      (t.pushParent a b).queue.length = t.queue.length + 1 := by
  obtain ⟨hpush, hlen⟩ := h.push hfree
    (v := ⟨t.weightAt a + t.weightAt b, false, 0, a, b⟩) (.inr ⟨hn, ha, hb⟩)
  exact ⟨⟨hpush.slot, hpush.queued⟩, hlen⟩

/-- What the loop of R113 keeps for a table of n symbols: every slot below NEXT is a node, and each
pass that adds a slot makes the queue shorter by one. -/
structure Transient.Merging (n : Nat) (t : Transient) : Prop where
  forest : t.Forest n t.nextFree
  leaves : n ≤ t.nextFree
  size : t.queue.length + t.nextFree = 2 * n

/-- One pass of R113 finds two nodes to pop and a free slot. -/
theorem Transient.Merging.mergeOnce {n : Nat} {t : Transient} (h : t.Merging n) (hn : n ≤ 256)
    (hq : 2 ≤ t.queue.length) :
    ∃ u, Machine.mergeOnce t = some u ∧ u.Merging n ∧ u.queue.length + 1 = t.queue.length ∧
      t.onlyArena u := by
  obtain ⟨a, hpopA, hA, hlenA⟩ := t.popMin_of_ne_nil (List.ne_nil_of_length_pos (by omega))
  obtain ⟨b, hpopB, hB, hlenB⟩ :=
    (t.setInq a false).popMin_of_ne_nil (List.ne_nil_of_length_pos (by omega))
  have hsize := h.size
  have hforest := (h.forest.pop a).pop b
  have ha := h.forest.queued a hA
  have hb := (h.forest.pop a).queued b hB
  have honly : t.onlyArena ((t.setInq a false).setInq b false) := rfl
  have hnext : ((t.setInq a false).setInq b false).nextFree = t.nextFree := rfl
  generalize (t.setInq a false).setInq b false = v at *
  rw [← hnext] at hforest ha hb
  obtain ⟨hpush, hlen⟩ := hforest.pushParent (hnext ▸ h.leaves) (by omega) ha hb
  refine ⟨v.pushParent a b, mergeOnce_of_popMin hpopA hpopB (by unfold Config.nodeMax; omega),
    ⟨hpush, ?_, ?_⟩, by omega, honly.trans rfl⟩
  · exact Nat.le_succ_of_le (hnext ▸ h.leaves)
  · change _ + (v.nextFree + 1) = _
    omega

/-- The loop of R113 ends with one node in the queue. -/
theorem Transient.Merging.mergeLoop {n fuel : Nat} {t : Transient} (h : t.Merging n) (hn : n ≤ 256)
    (hpos : 1 ≤ t.queue.length) (hfuel : t.queue.length ≤ fuel + 1) :
    ∃ u, Machine.mergeLoop fuel t = some u ∧ u.Merging n ∧ u.queue.length = 1 ∧ t.onlyArena u := by
  induction fuel generalizing t with
  | zero => exact ⟨t, rfl, h, by omega, rfl⟩
  | succ fuel ih =>
    rw [Machine.mergeLoop]
    by_cases hq : t.queue.length ≤ 1
    · exact ⟨t, if_pos hq, h, by omega, rfl⟩
    · obtain ⟨u, hu, hmerging, hlen, honly⟩ := h.mergeOnce hn (by omega)
      obtain ⟨v, hv, hdone⟩ := ih hmerging (by omega) (by omega)
      exact ⟨v, by rw [if_neg hq, hu]; exact hv, hdone.1, hdone.2.1, honly.trans hdone.2.2⟩

theorem Transient.isTree_succ {t : Transient} {fuel i : Nat} :
    t.isTree (fuel + 1) i = true ↔ ∃ v, t.nodeAt i = some v ∧
      (v.isLeaf = true ∨ t.isTree fuel v.left = true ∧ t.isTree fuel v.right = true) := by
  rw [Transient.isTree]
  cases t.nodeAt i <;> simp

theorem Transient.nodeAt_of_isTree {t : Transient} {fuel i : Nat} (h : t.isTree fuel i = true) :
    ∃ v, t.nodeAt i = some v := by
  cases fuel with
  | zero => cases h
  | succ fuel =>
    obtain ⟨v, hv, -⟩ := Transient.isTree_succ.1 h
    exact ⟨v, hv⟩

/-- Children below their parents leave no room for a path of more than n nodes (R118). -/
theorem Transient.Forest.isTree {n k fuel i : Nat} {t : Transient} (h : t.Forest n k) (hi : i < k)
    (hfuel : i + 2 ≤ n + fuel) (hpos : 1 ≤ fuel) : t.isTree fuel i = true := by
  induction fuel generalizing i with
  | zero => omega
  | succ fuel ih =>
    obtain ⟨v, hv, hslot⟩ := h.slot i hi
    refine Transient.isTree_succ.2 ⟨v, hv, hslot.imp_right fun ⟨hn, hleft, hright⟩ => ?_⟩
    exact ⟨ih (by omega) (by omega) (by omega), ih (by omega) (by omega) (by omega)⟩

/-- The shape of the tree is a matter of NODE alone. -/
theorem Transient.isTree_of_node_eq {t u : Transient} {fuel i : Nat}
    (htree : t.isTree fuel i = true) (h : u.node = t.node) : u.isTree fuel i = true := by
  induction fuel generalizing i with
  | zero => cases htree
  | succ fuel ih =>
    obtain ⟨v, hv, hslot⟩ := Transient.isTree_succ.1 htree
    exact Transient.isTree_succ.2 ⟨v, by rw [← hv, Transient.nodeAt, h]; rfl,
      hslot.imp_right (And.imp ih ih)⟩

theorem Transient.isTree_root_of_eq {t u : Transient} {fuel : Nat}
    (htree : t.isTree fuel t.root = true) (hnode : u.node = t.node) (hroot : u.root = t.root) :
    u.isTree fuel u.root = true := by
  rw [hroot]
  exact Transient.isTree_of_node_eq htree hnode

/-- BUILD of a non-empty table from an empty queue makes a tree of at most 256 levels (R110). -/
theorem buildTree_of_queueEmpty {t : Transient} (hq : t.queueEmpty) (hn : 1 ≤ t.alphabetSize) :
    ∃ u, buildTree t = some u ∧ u.treeValid = true ∧ u.isTree 256 u.root = true ∧
      t.onlyArena u := by
  have hle := t.alphabetSize_le
  have hlen : t.entries.length = t.alphabetSize := rfl
  have hstart : t.Forest t.alphabetSize 0 :=
    ⟨fun i hi => absurd hi (Nat.not_lt_zero i), fun i hi => by rw [hq i] at hi; cases hi⟩
  obtain ⟨hforest, hnext, hqueue, honly⟩ := createLeaves_forest (es := t.entries) hstart (by omega)
  rw [Nat.zero_add] at hforest hnext
  rw [Transient.queue_eq_nil_of_queueEmpty hq, List.length_nil, Nat.zero_add] at hqueue
  have hmerging : (createLeaves t.entries 0 t).Merging t.alphabetSize :=
    ⟨hnext ▸ hforest, by omega, by omega⟩
  obtain ⟨u, hu, hdone, hone, honly'⟩ := hmerging.mergeLoop hle (by omega) (Nat.le_succ _)
  obtain ⟨r, hr⟩ := List.length_eq_one_iff.1 hone
  have hroot : r < u.nextFree := hdone.forest.queued r (Transient.mem_queue.1 (by simp [hr]))
  have hsize := hdone.size
  refine ⟨{ u with root := r, treeValid := true }, ?_, rfl, ?_, (honly.trans honly').trans rfl⟩
  · rw [buildTree, if_neg (by omega), mergeAll, hu]
    simp [hr]
  · have htree : u.isTree 256 r = true := hdone.forest.isTree hroot (by omega) (by omega)
    exact Transient.isTree_of_node_eq htree rfl

/-! ### GENCODE -/

/-- A code of at most 255 bits fits its length field (R26, R124). -/
theorem Transient.codesWf_setCode {t : Transient} (h : t.codesWf) {c : Byte} {p : List Bool}
    (hp : p.length ≤ 255) : (t.setCode c p).codesWf := fun b => by
  rw [Transient.codeAt_setCode]
  split
  · simp only [BitVec.toNat_ofNat]; omega
  · exact h b

theorem assignCodes_of_isTree {fuel i : Nat} {p : List Bool} {t : Transient}
    (htree : t.isTree fuel i = true) (hp : p.length + fuel ≤ 256) (hwf : t.codesWf) :
    ∃ c, assignCodes fuel i p t = some { t with code := c } ∧
      ({ t with code := c } : Transient).codesWf := by
  induction fuel generalizing i p t with
  | zero => cases htree
  | succ fuel ih =>
    obtain ⟨v, hnode, htree⟩ := Transient.isTree_succ.1 htree
    rw [assignCodes, hnode]
    by_cases hleaf : v.isLeaf = true
    · exact ⟨_, if_pos hleaf, Transient.codesWf_setCode hwf (by omega)⟩
    · obtain ⟨hl, hr⟩ := htree.resolve_left hleaf
      have hlen : ∀ b, (p ++ [b]).length + fuel ≤ 256 := fun b => by
        rw [List.length_append, List.length_singleton]; omega
      obtain ⟨c, hc, hwfc⟩ := ih hl (hlen false) hwf
      have hr' : ({ t with code := c } : Transient).isTree fuel v.right = true :=
        Transient.isTree_of_node_eq hr rfl
      obtain ⟨d, hd, hwfd⟩ := ih hr' (hlen true) hwfc
      refine ⟨d, (if_neg hleaf).trans ?_, hwfd⟩
      rw [hc]
      exact hd

/-- GENCODE over a tree gives codes of at most 255 bits and writes nothing but CODE (R120). -/
theorem generateCodes_of_isTree {t : Transient} (hvalid : t.treeValid = true)
    (htree : t.isTree 256 t.root = true) (hwf : t.codesWf) :
    ∃ c, generateCodes t = some { t with code := c } ∧
      ({ t with code := c } : Transient).codesWf := by
  obtain ⟨v, hnode⟩ := Transient.nodeAt_of_isTree htree
  rw [generateCodes, if_pos hvalid, hnode]
  by_cases hleaf : v.isLeaf = true
  · exact ⟨_, if_pos hleaf, Transient.codesWf_setCode hwf (by simp)⟩
  · obtain ⟨c, hc, hwfc⟩ := assignCodes_of_isTree (p := []) htree (by simp) hwf
    exact ⟨c, (if_neg hleaf).trans hc, hwfc⟩

end Sys2Proof.Machine
end

section
/-! SUPPORT. FRAME, ENCODE and DECODE are never stuck: what FRAME checks before its first write is
room for all the bits ENCODE pushes (45_framer.md R146, 44_encoder.md R139), and DECODE stays inside the
payload, the tree and the declared count (47_decoder.md R170 to R173). -/

namespace Sys2Proof.Machine

/-! ### FRAME -/

/-- Bytes written where the written part of DST ends make it longer. -/
theorem State.dstWritten_storeAll {s : State} {n : Nat} (h : s.dstWritten n) (bs : List Byte) :
    ({ s with dst := Memory.storeAll n bs s.dst } : State).dstWritten (n + bs.length) := by
  intro i hi
  change (Memory.lookup i (Memory.storeAll n bs s.dst)).isSome = true
  rw [Memory.lookup_storeAll]
  split
  · rw [List.getElem?_eq_getElem (by omega)]; rfl
  · exact h i (by omega)

theorem writeDstBytes_ends {s : State} {a : Nat} {bs : List Byte}
    (h : a + bs.length ≤ s.cfg.dstCap) (hw : s.dstWritten a) :
    (s.writeDstBytes a bs).ends fun t =>
      ∃ m, t = { s with dst := m } ∧ t.dstWritten (a + bs.length) := by
  rw [State.writeDstBytes_of_le h]
  exact ⟨_, rfl, State.dstWritten_storeAll hw bs⟩

theorem writeDst_ends {s : State} {a : Nat} (h : a < s.cfg.dstCap) (b : Byte)
    (hw : s.dstWritten a) :
    (s.writeDst a b).ends fun t => ∃ m, t = { s with dst := m } ∧ t.dstWritten (a + 1) := by
  rw [State.writeDst_of_lt h]
  exact ⟨_, rfl, State.dstWritten_storeAll hw [b]⟩

/-- The header fills the first ten bytes (R147). -/
theorem writeHeader_ends {s : State} (h : headerLen ≤ s.cfg.dstCap) :
    (writeHeader s).ends fun t =>
      ∃ m, t = { s with dst := m, tr := { s.tr with wptr := headerLen } } ∧
        t.dstWritten headerLen := by
  unfold headerLen at *
  refine (writeDstBytes_ends (by simpa using by omega) fun i hi => absurd hi (by omega)).andThen ?_
  rintro _ ⟨m, rfl, hm⟩
  rw [leBytes_length] at hm
  refine (writeDstBytes_ends (by simpa using h) hm).andThen ?_
  rintro _ ⟨m', rfl, hm'⟩
  exact ⟨m', rfl, hm'⟩

theorem writeEntry_ends {s : State} {e : Byte × BitVec 32} (h : s.tr.wptr + 5 ≤ s.cfg.dstCap)
    (hw : s.dstWritten s.tr.wptr) :
    (writeEntry s e).ends fun t =>
      ∃ m, t = { s with dst := m, tr := { s.tr with wptr := s.tr.wptr + 5 } } ∧
        t.dstWritten t.tr.wptr := by
  refine (writeDst_ends (by omega) e.1 hw).andThen ?_
  rintro _ ⟨m, rfl, hm⟩
  refine (writeDstBytes_ends (by simpa using h) hm).andThen ?_
  rintro _ ⟨m', rfl, hm'⟩
  exact ⟨m', rfl, hm'⟩

theorem writeTable_ends {es : List (Byte × BitVec 32)} {s : State}
    (h : s.tr.wptr + 5 * es.length ≤ s.cfg.dstCap) (hw : s.dstWritten s.tr.wptr) :
    (writeTable es s).ends fun t =>
      ∃ m, t = { s with dst := m, tr := { s.tr with wptr := s.tr.wptr + 5 * es.length } } ∧
        t.dstWritten t.tr.wptr := by
  induction es generalizing s with
  | nil => exact ⟨_, rfl, hw⟩
  | cons e es ih =>
    rw [List.length_cons] at h ⊢
    refine (writeEntry_ends (by omega) hw).andThen ?_
    rintro _ ⟨m, rfl, hm⟩
    refine (ih (by simp only; omega) hm).mono ?_
    rintro _ ⟨m', rfl, hm'⟩
    refine ⟨m', ?_, hm'⟩
    simp only [Nat.mul_add, Nat.mul_one, Nat.add_assoc, Nat.add_comm]

/-- What FRAME leaves for ENCODE: header and table in DST, and room for T more bits (R145, R146). -/
theorem frameBody_ends {s : State} (hn : s.tr.nsym = s.tr.alphabetSize) :
    (frameBody s).ends fun t =>
      t.tr.code = s.tr.code ∧ t.tr.wptr + ceil8 s.tr.codeBits ≤ s.cfg.dstCap ∧
        t.dstWritten t.tr.wptr := by
  refine Run.ends_check fun hsize => ?_
  have hlen : s.tr.entries.length = s.tr.nsym := hn.symm
  have hfits : 10 + 5 * s.tr.entries.length + ceil8 s.tr.codeBits ≤ s.cfg.dstCap := by
    rw [hlen]; exact Nat.not_lt.1 hsize
  refine (writeHeader_ends (by simp only [State.withTr_cfg, headerLen]; omega)).andThen ?_
  rintro _ ⟨m, rfl, hm⟩
  refine (writeTable_ends (by change 10 + 5 * s.tr.entries.length ≤ s.cfg.dstCap; omega) hm).mono ?_
  rintro _ ⟨m', rfl, hm'⟩
  exact ⟨rfl, hfits, hm'⟩

/-! ### ENCODE -/

/-- t is s after k more bits went to the packer (R137): only DST and the packer's registers
differ. -/
def State.pushed (k : Nat) (s t : State) : Prop :=
  t.tr.accN < 8 ∧ 8 * t.tr.wptr + t.tr.accN = 8 * s.tr.wptr + s.tr.accN + k ∧
    t = { s with
      dst := t.dst, tr := { s.tr with wptr := t.tr.wptr, acc := t.tr.acc, accN := t.tr.accN } }

theorem State.pushed.trans {j k : Nat} {s t u : State} (h : s.pushed j t) (h' : t.pushed k u) :
    s.pushed (j + k) u := by
  obtain ⟨-, hbits, hst⟩ := h
  obtain ⟨hacc, hbits', htu⟩ := h'
  exact ⟨hacc, by omega, by rw [htu, hst]⟩

theorem pushBit_ends {s : State} (hacc : s.tr.accN < 8)
    (h : 8 * s.tr.wptr + s.tr.accN + 1 ≤ 8 * s.cfg.dstCap) (b : Bool) :
    (pushBit s b).ends (s.pushed 1) := by
  refine Run.ends_ite (fun hfull => ?_) fun hroom => ?_
  · change s.tr.accN + 1 = 8 at hfull
    rw [State.emitByte_of_lt (by change s.tr.wptr < s.cfg.dstCap; omega), Run.andThen_ok]
    refine ⟨Nat.zero_lt_succ 7, ?_, rfl⟩
    change 8 * (s.tr.wptr + 1) + 0 = _
    omega
  · change ¬ s.tr.accN + 1 = 8 at hroom
    exact ⟨by change s.tr.accN + 1 < 8; omega, rfl, rfl⟩

theorem pushBits_ends {bs : List Bool} {s : State} (hacc : s.tr.accN < 8)
    (h : 8 * s.tr.wptr + s.tr.accN + bs.length ≤ 8 * s.cfg.dstCap) :
    (pushBits bs s).ends (s.pushed bs.length) := by
  induction bs generalizing s with
  | nil => exact ⟨hacc, rfl, rfl⟩
  | cons b bs ih =>
    rw [List.length_cons] at h ⊢
    refine (pushBit_ends hacc (by omega) b).andThen fun t ht => ?_
    obtain ⟨hacc', hbits, heq⟩ := ht
    have hcfg : t.cfg = s.cfg := by rw [heq]
    refine (ih hacc' (by rw [hcfg]; omega)).mono fun u hu => ?_
    rw [Nat.add_comm]
    exact State.pushed.trans ⟨hacc', hbits, heq⟩ hu

/-- The bits that ENCODE pushes for a byte (R136). -/
def Transient.codeBitsOf (t : Transient) (b : Byte) : List Bool :=
  (t.codeAt b).bits.take (t.codeAt b).len.toNat

theorem encodeLoop_ends {n : Nat} {s : State} (hacc : s.tr.accN < 8)
    (hsrc : s.tr.rptr + n ≤ s.cfg.srcCap)
    (h : 8 * s.tr.wptr + s.tr.accN +
      (((List.range' s.tr.rptr n).map s.srcByte).flatMap s.tr.codeBitsOf).length ≤
        8 * s.cfg.dstCap) :
    (encodeLoop n s).ends fun t =>
      t.tr.accN < 8 ∧ 8 * t.tr.wptr + t.tr.accN ≤ 8 * t.cfg.dstCap := by
  induction n generalizing s with
  | zero => exact ⟨hacc, by simpa using h⟩
  | succ n ih =>
    rw [List.range'_succ, List.map_cons, List.flatMap_cons, List.length_append] at h
    rw [encodeLoop, State.withSrc_of_lt (by omega)]
    refine (pushBits_ends (bs := s.tr.codeBitsOf (s.srcByte s.tr.rptr)) hacc (by omega)).andThen
      fun t ht => ?_
    obtain ⟨hacc', hbits, heq⟩ := ht
    generalize t.dst = m, t.tr.wptr = w, t.tr.acc = a, t.tr.accN = c at *
    subst heq
    exact ih hacc' (by change s.tr.rptr + 1 + n ≤ s.cfg.srcCap; omega)
      (by change 8 * w + c + (((List.range' (s.tr.rptr + 1) n).map s.srcByte).flatMap
            s.tr.codeBitsOf).length ≤ 8 * s.cfg.dstCap; omega)

/-- ENCODE ends when SRC holds the input and DST has room for the rest of the container (R135). -/
theorem encodeBody_ends {s : State} (hlen : s.srcLen ≤ s.cfg.srcCap)
    (hroom : s.tr.wptr + ceil8 s.inputBits.length ≤ s.cfg.dstCap) :
    (encodeBody s).ends fun _ => True := by
  have hbits : s.inputBits =
      ((List.range' 0 s.srcLen).map s.srcByte).flatMap s.tr.codeBitsOf := by
    rw [← s.input_eq_range']; rfl
  unfold ceil8 at hroom
  rw [hbits] at hroom
  refine (encodeLoop_ends (Nat.zero_lt_succ 7) (by simpa using hlen) ?_).andThen ?_
  · change 8 * s.tr.wptr + 0 + (((List.range' 0 s.srcLen).map s.srcByte).flatMap
      s.tr.codeBitsOf).length ≤ 8 * s.cfg.dstCap
    omega
  · rintro t ⟨hacc, hle⟩
    unfold flush
    split
    · trivial
    · rw [State.emitByte_of_lt (by omega)]
      trivial

/-- The bits of the input are at most the T bits that FRAME makes room for (R146). -/
theorem State.inputBits_length_le {s : State} (h : s.countsInput) :
    s.inputBits.length ≤ s.tr.codeBits := by
  rw [← State.sum_codeLen_input h, State.inputBits, List.length_flatMap]
  exact List.sum_le_sum fun b _ => by rw [List.length_take]; exact Nat.min_le_left _ _

/-! ### DECODE -/

/-- An internal node over two trees. -/
def Transient.inner (t : Transient) (i : Nat) : Prop :=
  ∃ fuel v, t.nodeAt i = some v ∧ v.isLeaf = false ∧
    t.isTree fuel v.left = true ∧ t.isTree fuel v.right = true

theorem Transient.inner_of_isTree {t : Transient} {fuel i : Nat} {v : Node}
    (h : t.isTree fuel i = true) (hv : t.nodeAt i = some v) (hleaf : v.isLeaf = false) :
    t.inner i := by
  cases fuel with
  | zero => cases h
  | succ fuel =>
    obtain ⟨w, hw, hslot⟩ := Transient.isTree_succ.1 h
    obtain rfl := Option.some.inj (hv.symm.trans hw)
    exact ⟨fuel, v, hv, hleaf, hslot.resolve_left (by simp [hleaf])⟩

theorem Transient.inner_of_node_eq {t u : Transient} {i : Nat} (h : t.inner i)
    (hnode : u.node = t.node) : u.inner i := by
  obtain ⟨fuel, v, hv, hleaf, hl, hr⟩ := h
  exact ⟨fuel, v, by rw [← hv, Transient.nodeAt, hnode]; rfl, hleaf,
    Transient.isTree_of_node_eq hl hnode, Transient.isTree_of_node_eq hr hnode⟩

theorem Transient.inner_root {t : Transient} (hvalid : t.treeValid = true)
    (htree : t.isTree 256 t.root = true) (h : t.rootIsLeaf = false) : t.inner t.root := by
  obtain ⟨v, hv⟩ := Transient.nodeAt_of_isTree htree
  refine Transient.inner_of_isTree htree hv ?_
  have hnode : t.node[t.root]? = some v := hv
  simpa [Transient.rootIsLeaf, hvalid, hnode] using h

/-- The child of an internal node is a tree (R172). -/
theorem Transient.childOf_of_inner {t : Transient} (h : t.inner t.cur) (b : Bool) :
    ∃ c fuel, t.childOf b = some c ∧ t.isTree fuel c = true := by
  obtain ⟨fuel, v, hv, -, hl, hr⟩ := h
  refine ⟨if b then v.right else v.left, fuel, by rw [Transient.childOf, hv]; rfl, ?_⟩
  cases b
  · exact hl
  · exact hr

/-- What DECODE keeps: over a tree whose root is no leaf the walk stands on an internal node (R172),
and WPTR counts the symbols emitted. -/
structure Transient.Decoding (t : Transient) : Prop where
  valid : t.treeValid = true
  tree : t.isTree 256 t.root = true
  cur : t.rootIsLeaf = false → t.inner t.cur
  emitted : t.wptr = t.emitted

/-- Only DST and the registers that a decoder step writes differ (R172, R173). -/
def State.stepped (s t : State) : Prop :=
  t = { s with
    dst := t.dst
    tr := { s.tr with wptr := t.tr.wptr, cur := t.tr.cur, emitted := t.tr.emitted } }

theorem emitSymbol_of_lt {s : State} (h : s.tr.wptr < s.cfg.dstCap) (c : Byte) :
    emitSymbol s c = .ok { s with
      dst := s.dst.store s.tr.wptr c
      tr := { s.tr with wptr := s.tr.wptr + 1, emitted := s.tr.emitted + 1 } } := by
  rw [emitSymbol, State.emitByte_of_lt h]; rfl

theorem stepLeafRoot_ends {s : State} (h : s.tr.Decoding) (hroot : s.tr.rootIsLeaf = true)
    (hroom : s.tr.wptr < s.cfg.dstCap) :
    (stepLeafRoot s).ends fun t => t.tr.Decoding ∧ s.stepped t := by
  obtain ⟨v, hv⟩ := Transient.nodeAt_of_isTree h.tree
  rw [stepLeafRoot, hv]
  simp only [emitSymbol_of_lt hroom]
  exact ⟨⟨h.valid, Transient.isTree_root_of_eq h.tree rfl rfl,
    fun h' => absurd (hroot.symm.trans h') (by decide), congrArg (· + 1) h.emitted⟩, rfl⟩

/-- From an internal node the walk goes on at an internal child, or emits the symbol of a leaf and
is back at the root (R172). -/
theorem stepWalk_ends {s : State} (h : s.tr.Decoding) (hroot : s.tr.rootIsLeaf = false)
    (hroom : s.tr.wptr < s.cfg.dstCap) (b : Bool) :
    (stepWalk s b).ends fun t => t.tr.Decoding ∧ s.stepped t := by
  obtain ⟨c, fuel, hchild, htree⟩ := Transient.childOf_of_inner (h.cur hroot) b
  obtain ⟨v, hv⟩ := Transient.nodeAt_of_isTree htree
  have hv' : (s.withTr fun t => { t with cur := c }).tr.nodeAt c = some v := hv
  rw [stepWalk, hchild]
  simp only [hv']
  refine Run.ends_ite (fun hleaf => ?_) fun hleaf => ?_
  · have hinner : s.tr.inner s.tr.root := Transient.inner_root h.valid h.tree hroot
    rw [emitSymbol_of_lt (by exact hroom), Run.andThen_ok]
    exact ⟨⟨h.valid, Transient.isTree_root_of_eq h.tree rfl rfl,
      fun _ => Transient.inner_of_node_eq hinner rfl, congrArg (· + 1) h.emitted⟩, rfl⟩
  · exact ⟨⟨h.valid, Transient.isTree_root_of_eq h.tree rfl rfl,
      fun _ => Transient.inner_of_node_eq
        (Transient.inner_of_isTree htree hv (Bool.eq_false_iff.2 hleaf)) rfl, h.emitted⟩, rfl⟩

theorem stepBit_ends {s : State} (h : s.tr.Decoding) (hroom : s.tr.wptr < s.cfg.dstCap) (b : Bool) :
    (stepBit s b).ends fun t => t.tr.Decoding ∧ s.stepped t :=
  Run.ends_ite (fun hroot => stepLeafRoot_ends h hroot hroom) fun hroot =>
    stepWalk_ends h (Bool.eq_false_iff.2 hroot) hroom b

theorem State.payloadBit_of_lt {s : State} {base i : Nat}
    (h : payloadByteAddr base i < s.cfg.srcCap) : ∃ b, s.payloadBit base i = some b :=
  ⟨_, by rw [State.payloadBit, State.readSrc_of_lt h]; rfl⟩

/-- The loop of R170 reads the payload alone and emits at most ORIG_COUNT symbols. -/
theorem decodeLoop_ends {n : Nat} {s : State} (h : s.tr.Decoding)
    (hcap : s.tr.origCount.toNat ≤ s.cfg.dstCap) (hbits : s.tr.bitpos + n ≤ 8 * s.tr.payLen)
    (hpay : s.tr.payBase + s.tr.payLen ≤ s.cfg.srcCap) :
    (decodeLoop n s).ends fun _ => True := by
  induction n generalizing s with
  | zero => trivial
  | succ n ih =>
    refine Run.ends_ite (fun hmore => ?_) fun _ => trivial
    obtain ⟨b, hb⟩ := State.payloadBit_of_lt (s := s) (base := s.tr.payBase) (i := s.tr.bitpos)
      (by unfold payloadByteAddr; omega)
    simp only [hb]
    have hroom : s.tr.wptr < s.cfg.dstCap := by have := h.emitted; omega
    refine (stepBit_ends (s := s.withTr fun t => { t with bitpos := t.bitpos + 1 })
      ⟨h.valid, Transient.isTree_root_of_eq h.tree rfl rfl,
        fun hroot => Transient.inner_of_node_eq (h.cur hroot) rfl, h.emitted⟩ hroom b).andThen ?_
    rintro t ⟨hdec, heq⟩
    unfold State.stepped at heq
    generalize t.dst = m, t.tr.wptr = w, t.tr.cur = c, t.tr.emitted = e at heq
    subst heq
    exact ih hdec hcap (by change s.tr.bitpos + 1 + n ≤ 8 * s.tr.payLen; omega) hpay

/-- DECODE ends over a tree, a payload inside the input and a count that fits DST (R170). -/
theorem decodeBody_ends {s : State} (hvalid : s.tr.treeValid = true)
    (htree : s.tr.isTree 256 s.tr.root = true) (hfits : s.payloadFits)
    (hlen : s.srcLen ≤ s.cfg.srcCap) : (decodeBody s).ends fun _ => True := by
  obtain ⟨hcap, hpay⟩ := hfits
  refine (decodeLoop_ends (s := decodeInit s) ⟨hvalid, Transient.isTree_root_of_eq htree rfl rfl,
    fun hroot => Transient.inner_of_node_eq (Transient.inner_root hvalid htree hroot) rfl, rfl⟩
    hcap ?_ (by change s.tr.payBase + s.tr.payLen ≤ s.cfg.srcCap; omega)).andThen fun t _ => ?_
  · change 0 + min (8 * s.tr.payLen) (8 * s.tr.origCount.toNat) ≤ 8 * s.tr.payLen
    omega
  · exact Run.ends_check fun _ => trivial

end Sys2Proof.Machine
end

section
/-! SUPPORT. Every accepted command ends: from a phase on the latched command's path with what it
needs (`State.pathInv`, `State.phaseInv`) the engine answers, and it has fewer steps left each time
(40_commands.md R95, R97, R100, 70_reset_and_hazards.md R222). -/

namespace Sys2Proof.Machine

/-- The most engine steps a command still takes from a phase on (R95, R97). -/
def stepsLeft : Phase → Nat
  | .idle => 6
  | .count => 5
  | .parse => 5
  | .build => 4
  | .gencode => 3
  | .frame => 2
  | .encode => 1
  | .decode => 1

/-- The next phase of a path stands on that path, nearer to its end. -/
theorem phaseAfter_phasePath {v : Word} {p q : Phase}
    (h : phaseAfter p (phasePath v) = some (some q)) :
    q ≠ .idle ∧ q ∈ phasePath v ∧ stepsLeft q < stepsLeft p := by
  have hne : phasePath v ≠ [] := fun h0 => by rw [h0] at h; cases h
  rcases phasePath_ne_nil hne with rfl | rfl
  · cases p <;> cases h <;> decide
  · cases p <;> cases h <;> decide

theorem phaseAfter_isSome {p : Phase} {path : List Phase} (h : p ∈ path) :
    ∃ after, phaseAfter p path = some after := by
  induction path with
  | nil => cases h
  | cons q path ih =>
    rw [phaseAfter]
    by_cases hq : q = p
    · exact ⟨_, if_pos hq⟩
    · rw [if_neg hq]
      exact ih ((List.mem_cons.1 h).resolve_left (Ne.symm hq))

/-- A phase is in progress, on the path, with what it needs. -/
structure State.InPhase (s : State) : Prop where
  busy : s.busy = true
  running : s.phase ≠ .idle
  path : s.pathInv
  phase : s.phaseInv

/-- The command has ended, or its next phase is in progress with fewer steps left than n. -/
def State.goesOn (n : Nat) (t : State) : Prop :=
  t.busy = false ∨ t.InPhase ∧ stepsLeft t.phase < n

/-- A phase whose body is not stuck and leaves what the next phase of the path needs. -/
theorem State.runPhase_goesOn {s : State} (h : s.InPhase) {body : State → Run}
    (hframe : (body s).onlyDstTr s)
    (hends : (body s).ends fun t => ∀ q, phaseAfter s.phase (phasePath s.cmdLatch) = some (some q) →
      ({ t with phase := q } : State).phaseInv) :
    ∃ t, s.runPhase s.phase body = .next t ∧ t.goesOn (stepsLeft s.phase) := by
  obtain ⟨hmem, hlen, hpos⟩ := h.path h.running
  obtain ⟨after, hafter⟩ := phaseAfter_isSome hmem
  unfold State.runPhase
  rw [hafter]
  cases hbody : body s with
  | stuck e => rw [hbody] at hends; exact hends.elim
  | raised k t => exact ⟨_, rfl, .inl rfl⟩
  | ok t =>
    rw [hbody] at hframe hends
    have ht : t = { s with dst := t.dst, tr := t.tr } := hframe
    cases after with
    | none => exact ⟨_, rfl, .inl rfl⟩
    | some q =>
      obtain ⟨hq, hqmem, hless⟩ := phaseAfter_phasePath hafter
      refine ⟨_, rfl, .inr ⟨⟨?_, hq, fun _ => ?_, hends q hafter⟩, hless⟩⟩
      · rw [ht]; exact h.busy
      · rw [ht]; exact ⟨hqmem, hlen, hpos⟩

/-! ### The phases -/

/-- The body of a phase (R100); with no phase in progress there is nothing to do. -/
def phaseBody : Phase → State → Run
  | .idle => .ok
  | .count => countBody
  | .build => buildBody
  | .gencode => gencodeBody
  | .frame => frameBody
  | .encode => encodeBody
  | .parse => parseBody
  | .decode => decodeBody

/-- With a phase in progress the engine runs its body (R19, R100). -/
theorem engineStep_eq_runPhase {s : State} (hb : s.busy = true) (hp : s.phase ≠ .idle) :
    engineStep s = s.runPhase s.phase (phaseBody s.phase) := by
  rw [engineStep_busy hb, engineInstr_of_phase]
  cases h : s.phase with
  | idle => exact absurd h hp
  | _ => rfl

theorem phaseBody_onlyDstTr (p : Phase) (s : State) : (phaseBody p s).onlyDstTr s := by
  cases p with
  | idle => rfl
  | count => exact (countBody_onlyTr s).toDstTr
  | build => exact (buildBody_onlyTr s).toDstTr
  | gencode => exact (gencodeBody_onlyTr s).toDstTr
  | frame => exact frameBody_onlyDstTr s
  | encode => exact encodeBody_onlyDstTr s
  | parse => exact (parseBody_onlyTr s).toDstTr
  | decode => exact decodeBody_onlyDstTr s

theorem Run.ends.and_onlyTr {P : State → Prop} {s : State} {r : Run} (h : r.ends P)
    (hr : r.onlyTr s) : r.ends fun t => P t ∧ t = { s with tr := t.tr } := by
  cases r with
  | ok t => exact ⟨h, hr⟩
  | raised k t => trivial
  | stuck e => exact h

theorem Run.ends.and_onlyDstTr {P : State → Prop} {s : State} {r : Run} (h : r.ends P)
    (hr : r.onlyDstTr s) : r.ends fun t => P t ∧ t = { s with dst := t.dst, tr := t.tr } := by
  cases r with
  | ok t => exact ⟨h, hr⟩
  | raised k t => trivial
  | stuck e => exact h

/-- A phase of a path belongs to COMPRESS or to DECOMPRESS (R95, R97). -/
theorem mem_phasePath {v : Word} {p : Phase} (h : p ∈ phasePath v) :
    v = 1#32 ∧ p ∈ [Phase.count, .build, .gencode, .frame, .encode] ∨
      v = 2#32 ∧ p ∈ [Phase.parse, .build, .decode] := by
  rcases phasePath_ne_nil (List.ne_nil_of_mem h) with rfl | rfl
  · exact .inl ⟨rfl, h⟩
  · exact .inr ⟨rfl, h⟩

/-- The counts of a non-empty input are not all zero. -/
theorem State.alphabetSize_pos_of_countsInput {s : State} (hpos : 1 ≤ s.srcLen)
    (h : s.countsInput) : 1 ≤ s.tr.alphabetSize := by
  have hmem : s.srcByte 0 ∈ s.input := List.mem_map.2 ⟨0, List.mem_range.2 hpos, rfl⟩
  have hne : (s.tr.freqAt (s.srcByte 0)).toNat ≠ 0 := by
    rw [h]; exact (List.count_pos_iff.2 hmem).ne'
  exact Transient.alphabetSize_pos fun h0 => hne (by rw [h0]; rfl)

theorem countBody_ready {s : State} (hlatch : s.cmdLatch = 1#32) (hlen : s.srcLen ≤ s.cfg.srcCap)
    (hpos : 1 ≤ s.srcLen) (hzero : s.tr = Transient.zero) :
    (countBody s).ends fun t => ({ t with phase := .build } : State).phaseInv := by
  refine ((countBody_ends hlen hzero).and_onlyTr (countBody_onlyTr s)).mono ?_
  rintro t ⟨⟨hqueue, hcodes, hnsym, hcount⟩, ht⟩
  generalize t.tr = tr at *
  subst ht
  exact ⟨hqueue, State.alphabetSize_pos_of_countsInput (s := { s with tr := tr }) hpos hcount,
    hnsym, hcodes, fun _ => hcount, fun h => absurd (hlatch.symm.trans h) (by decide)⟩

theorem parseBody_ready {s : State} (hlatch : s.cmdLatch = 2#32) (hlen : s.srcLen ≤ s.cfg.srcCap)
    (hzero : s.tr = Transient.zero) :
    (parseBody s).ends fun t => ({ t with phase := .build } : State).phaseInv := by
  refine ((parseBody_ends hlen hzero).and_onlyTr (parseBody_onlyTr s)).mono ?_
  rintro t ⟨⟨hqueue, hcodes, hnsym, hpos, hcap, hpay⟩, ht⟩
  generalize t.tr = tr at *
  subst ht
  exact ⟨hqueue, hpos, hnsym, hcodes, fun h => absurd (hlatch.symm.trans h) (by decide),
    fun _ => ⟨hcap, hpay⟩⟩

theorem buildBody_ready {s : State} (hp : s.phase = .build) (hinv : s.phaseInv) :
    (buildBody s).ends fun t =>
      (s.cmdLatch = 1#32 → ({ t with phase := .gencode } : State).phaseInv) ∧
      (s.cmdLatch = 2#32 → ({ t with phase := .decode } : State).phaseInv) := by
  rw [State.phaseInv, hp] at hinv
  obtain ⟨hqueue, hpos, hnsym, hcodes, hcount, hpay⟩ := hinv
  obtain ⟨u, hu, hvalid, htree, honly⟩ := buildTree_of_queueEmpty hqueue hpos
  rw [buildBody, hu]
  simp only [hvalid, if_true]
  unfold Transient.onlyArena at honly
  generalize u.node = node, u.inq = inq, u.nextFree = next, u.root = root, u.treeValid = valid at *
  subst honly
  exact ⟨fun h => ⟨hvalid, htree, hnsym, hcodes, hcount h⟩, fun h => ⟨hvalid, htree, hpay h⟩⟩

theorem gencodeBody_ready {s : State} (hp : s.phase = .gencode) (hinv : s.phaseInv) :
    (gencodeBody s).ends fun t => ({ t with phase := .frame } : State).phaseInv := by
  rw [State.phaseInv, hp] at hinv
  obtain ⟨hvalid, htree, hnsym, hcodes, hcount⟩ := hinv
  obtain ⟨c, hc, hcodes'⟩ := generateCodes_of_isTree hvalid htree hcodes
  rw [gencodeBody, hc]
  exact ⟨hnsym, hcodes', hcount⟩

theorem frameBody_ready {s : State} (hp : s.phase = .frame) (hinv : s.phaseInv) :
    (frameBody s).ends fun t => ({ t with phase := .encode } : State).phaseInv := by
  rw [State.phaseInv, hp] at hinv
  obtain ⟨hnsym, -, hcount⟩ := hinv
  refine ((frameBody_ends hnsym).and_onlyDstTr (frameBody_onlyDstTr s)).mono ?_
  rintro t ⟨⟨hcode, hroom, hwritten⟩, ht⟩
  have hbits : ({ t with phase := .encode } : State).inputBits = s.inputBits := by
    generalize t.dst = dst, t.tr = tr at *
    subst ht
    simp only [State.inputBits, Transient.codeAt, hcode]
    rfl
  have hle := State.inputBits_length_le hcount
  refine ⟨?_, hwritten⟩
  rw [hbits, ht]
  unfold ceil8 at *
  simp only
  omega

theorem phaseBody_ready {s : State} (h : s.InPhase) :
    (phaseBody s.phase s).ends fun t =>
      ∀ q, phaseAfter s.phase (phasePath s.cmdLatch) = some (some q) →
        ({ t with phase := q } : State).phaseInv := by
  obtain ⟨hmem, hlen, hpos⟩ := h.path h.running
  have hinv := h.phase
  rcases mem_phasePath hmem with ⟨hl, hp⟩ | ⟨hl, hp⟩
  · rw [hl, phasePath_compress]
    simp only [List.mem_cons, List.not_mem_nil, or_false] at hp
    rcases hp with hp | hp | hp | hp | hp <;> rw [hp]
    · rw [State.phaseInv, hp] at hinv
      refine (countBody_ready hl hlen (hpos hl) hinv).mono fun t ht q hq => ?_
      cases hq; exact ht
    · refine (buildBody_ready hp hinv).mono fun t ht q hq => ?_
      cases hq; exact ht.1 hl
    · refine (gencodeBody_ready hp hinv).mono fun t ht q hq => ?_
      cases hq; exact ht
    · refine (frameBody_ready hp hinv).mono fun t ht q hq => ?_
      cases hq; exact ht
    · rw [State.phaseInv, hp] at hinv
      refine (encodeBody_ends hlen hinv.1).mono fun t _ q hq => ?_
      cases hq
  · rw [hl, phasePath_decompress]
    simp only [List.mem_cons, List.not_mem_nil, or_false] at hp
    rcases hp with hp | hp | hp <;> rw [hp]
    · rw [State.phaseInv, hp] at hinv
      refine (parseBody_ready hl hlen hinv).mono fun t ht q hq => ?_
      cases hq; exact ht
    · refine (buildBody_ready hp hinv).mono fun t ht q hq => ?_
      cases hq; exact ht.2 hl
    · rw [State.phaseInv, hp] at hinv
      obtain ⟨hvalid, htree, hfits⟩ := hinv
      refine (decodeBody_ends hvalid htree hfits hlen).mono fun t _ q hq => ?_
      cases hq

/-! ### The whole command -/

/-- The engine answers a phase in progress with the end of the command or its next phase. -/
theorem State.InPhase.engineStep {s : State} (h : s.InPhase) :
    ∃ t, Machine.engineStep s = .next t ∧ t.goesOn (stepsLeft s.phase) := by
  rw [engineStep_eq_runPhase h.busy h.running]
  exact s.runPhase_goesOn h (phaseBody_onlyDstTr _ s) (phaseBody_ready h)

theorem engineRun_idle {s : State} (k : Nat) (h : s.busy = false) : engineRun k s = .next s := by
  cases k <;> simp [engineRun, h]

theorem engineRun_succ {s t : State} (k : Nat) (hb : s.busy = true) (h : engineStep s = .next t) :
    engineRun (k + 1) s = engineRun k t := by
  simp [engineRun, hb, h]

/-- A command that a single step ends. -/
theorem engineRun_of_step_idle {s t : State} (k : Nat) (hb : s.busy = true)
    (h : engineStep s = .next t) (hidle : t.busy = false) : engineRun (k + 1) s = .next t :=
  (engineRun_succ k hb h).trans (engineRun_idle k hidle)

theorem State.InPhase.engineRun_ends {s : State} (h : s.InPhase) {k : Nat}
    (hk : stepsLeft s.phase ≤ k) : ∃ t, engineRun k s = .next t ∧ t.busy = false := by
  induction k generalizing s with
  | zero => cases hp : s.phase <;> rw [hp] at hk <;> cases hk
  | succ k ih =>
    obtain ⟨t, hstep, hgoes⟩ := h.engineStep
    rw [engineRun_succ k h.busy hstep]
    rcases hgoes with hidle | ⟨hnext, hless⟩
    · exact ⟨t, engineRun_idle k hidle, hidle⟩
    · exact ih hnext (by omega)

/-- The first phase of COMPRESS or of DECOMPRESS (R95, R97). -/
def firstPhase (w : Word) : Phase := if w = 1#32 then .count else .parse

theorem engineStep_compress {s : State} (h : s.accepted 1#32) : engineStep s = execCompress s := by
  obtain ⟨hb, hp, hl⟩ := h
  rw [engineStep_busy hb, engineInstr_of_phase, hp, hl]
  rfl

theorem engineStep_decompress {s : State} (h : s.accepted 2#32) :
    engineStep s = execDecompress s := by
  obtain ⟨hb, hp, hl⟩ := h
  rw [engineStep_busy hb, engineInstr_of_phase, hp, hl]
  rfl

/-- Dispatch refuses an input longer than SRC (R94). -/
theorem engineStep_accepted_long {s : State} {w : Word} (h : s.accepted w)
    (hw : w = 1#32 ∨ w = 2#32) (hlong : s.cfg.srcCap < s.srcLen) :
    engineStep s = .next (s.prologue.raise .badLength) := by
  rcases hw with rfl | rfl
  · rw [engineStep_compress h]; exact if_pos hlong
  · rw [engineStep_decompress h]; exact if_pos hlong

/-- Dispatch of COMPRESS refuses the empty input (R95). -/
theorem engineStep_accepted_empty {s : State} (h : s.accepted 1#32) (hempty : s.srcLen = 0) :
    engineStep s = .next (s.prologue.raise .emptyInput) := by
  rw [engineStep_compress h]
  exact (if_neg (by rw [State.prologue_srcLen, hempty]; exact Nat.not_lt_zero _)).trans
    (if_pos hempty)

/-- Dispatch of every other input that fits SRC starts the first phase (R95, R97). -/
theorem engineStep_accepted_starts {s : State} {w : Word} (h : s.accepted w)
    (hw : w = 1#32 ∨ w = 2#32) (hlen : s.srcLen ≤ s.cfg.srcCap)
    (hne : w = 1#32 → s.srcLen ≠ 0) :
    engineStep s = .next { s.prologue with phase := firstPhase w } := by
  rcases hw with rfl | rfl
  · rw [engineStep_compress h]; exact (if_neg (Nat.not_lt.2 hlen)).trans (if_neg (hne rfl))
  · rw [engineStep_decompress h]; exact if_neg (Nat.not_lt.2 hlen)

/-- Dispatch leaves what the first phase needs (R93, R94). -/
theorem firstPhase_inPhase {s : State} {w : Word} (h : s.accepted w) (hw : w = 1#32 ∨ w = 2#32)
    (hlen : s.srcLen ≤ s.cfg.srcCap) (hne : w = 1#32 → s.srcLen ≠ 0) :
    ({ s.prologue with phase := firstPhase w } : State).InPhase := by
  obtain ⟨hb, -, hl⟩ := h
  have hpath : firstPhase w ∈ phasePath w ∧ firstPhase w ≠ .idle := by
    rcases hw with rfl | rfl <;> decide
  refine ⟨hb, hpath.2, fun _ => ⟨?_, hlen, fun h1 => ?_⟩, ?_⟩
  · rw [← hl] at hpath ⊢; exact hpath.1
  · exact Nat.pos_of_ne_zero (hne (hl.symm.trans h1))
  · rcases hw with rfl | rfl <;> exact rfl

/-- COMPRESS or DECOMPRESS of an input that fits SRC ends within the six steps (R222). -/
theorem engineRun_accepted_ends {s : State} {w : Word} (h : s.accepted w)
    (hw : w = 1#32 ∨ w = 2#32) (hlen : s.srcLen ≤ s.cfg.srcCap) :
    ∃ t, engineRun maxEngineSteps s = .next t ∧ t.busy = false := by
  by_cases hempty : w = 1#32 ∧ s.srcLen = 0
  · obtain ⟨rfl, h0⟩ := hempty
    exact ⟨_, engineRun_of_step_idle 5 h.1 (engineStep_accepted_empty h h0) rfl, rfl⟩
  · have hne := fun hw h0 => hempty ⟨hw, h0⟩
    rw [maxEngineSteps, engineRun_succ 5 h.1 (engineStep_accepted_starts h hw hlen hne)]
    refine (firstPhase_inPhase h hw hlen hne).engineRun_ends ?_
    change stepsLeft (firstPhase w) ≤ 5
    rcases hw with rfl | rfl <;> decide

end Sys2Proof.Machine
end

section
/-! SUPPORT. Two runs side by side: where the second state answers every read of SRC that the first
answers, with the same byte, it does what the first does, but for being stuck (00_scope.md R2).
Nothing is asked of the bytes of DST that the command has not written. -/

namespace Sys2Proof.Machine

/-- The second state has the registers that a phase reads and the first n bytes of DST of the first,
and answers every read of SRC that the first answers, with the same byte. -/
structure State.Matches (n : Nat) (s u : State) : Prop where
  dstCap : u.cfg.dstCap = s.cfg.dstCap
  srcLen : u.srcLen = s.srcLen
  readSrc : ∀ a b, s.readSrc a = some b → u.readSrc a = some b
  cmdLatch : u.cmdLatch = s.cmdLatch
  phase : u.phase = s.phase
  busy : u.busy = s.busy
  tr : u.tr = s.tr
  dst : ∀ a, a < n → u.dst.lookup a = s.dst.lookup a

/-- The bytes of DST in common are those below WPTR. -/
abbrev State.MatchesOut (s u : State) : Prop := s.Matches s.tr.wptr u

/-- Two pieces of a phase end the same way, unless the first is stuck. -/
inductive Run.Matches (R : State → State → Prop) : Run → Run → Prop
  | ok {s u : State} (h : R s u) : Run.Matches R (.ok s) (.ok u)
  | raised (k : ErrorKind) (s u : State) : Run.Matches R (.raised k s) (.raised k u)
  | stuck (e : Fault) (r : Run) : Run.Matches R (.stuck e) r

theorem Run.Matches.mono {R Q : State → State → Prop} {r q : Run} (h : r.Matches R q)
    (hRQ : ∀ s u, R s u → Q s u) : r.Matches Q q := by
  cases h with
  | ok h => exact .ok (hRQ _ _ h)
  | raised k s u => exact .raised k s u
  | stuck e => exact .stuck e _

theorem Run.Matches.andThen {R Q : State → State → Prop} {r q : Run} {f g : State → Run}
    (h : r.Matches R q) (hfg : ∀ s u, R s u → (f s).Matches Q (g u)) :
    (r.andThen f).Matches Q (q.andThen g) := by
  cases h with
  | ok h => exact hfg _ _ h
  | raised k s u => exact .raised k s u
  | stuck e => exact .stuck e _

theorem Run.matches_ite {R : State → State → Prop} {c : Prop} [Decidable c] {r r' q q' : Run}
    (h : r.Matches R q) (h' : r'.Matches R q') :
    (if c then r else r').Matches R (if c then q else q') := by
  split
  · exact h
  · exact h'

/-- The same check raises the same error on both sides. -/
theorem Run.matches_check {R : State → State → Prop} {c : Prop} [Decidable c] {k : ErrorKind}
    {s u : State} {r q : Run} (h : r.Matches R q) :
    (if c then .raised k s else r).Matches R (if c then .raised k u else q) :=
  Run.matches_ite (.raised k s u) h

/-! ### The shared operations -/

theorem State.Matches.mono {m n : Nat} {s u : State} (h : s.Matches n u) (hmn : m ≤ n) :
    s.Matches m u :=
  { h with dst := fun a ha => h.dst a (by omega) }

theorem State.Matches.withTr {n : Nat} {s u : State} (h : s.Matches n u)
    (f : Transient → Transient) : (s.withTr f).Matches n (u.withTr f) :=
  { h with tr := congrArg f h.tr }

theorem State.Matches.withSrc {n : Nat} {s u : State} (h : s.Matches n u) {R : State → State → Prop}
    {f g : Byte → Run} (a : Nat) (hfg : ∀ b, (f b).Matches R (g b)) :
    (s.withSrc a f).Matches R (u.withSrc a g) := by
  unfold State.withSrc
  cases hs : s.readSrc a with
  | none => exact .stuck _ _
  | some b => rw [h.readSrc a b hs]; exact hfg b

theorem State.Matches.readSrcBytes {n : Nat} {s u : State} (h : s.Matches n u) {a k : Nat}
    {bs : List Byte} (hs : s.readSrcBytes a k = some bs) : u.readSrcBytes a k = some bs := by
  induction k generalizing a bs with
  | zero => exact hs
  | succ k ih =>
    simp only [State.readSrcBytes, Option.bind_eq_bind, Option.bind_eq_some_iff] at hs ⊢
    obtain ⟨b, hb, cs, hcs, hbs⟩ := hs
    exact ⟨b, h.readSrc a b hb, cs, ih hcs, hbs⟩

theorem State.Matches.withSrcLe {n : Nat} {s u : State} (h : s.Matches n u)
    {R : State → State → Prop} {f g : Nat → Run} (a k : Nat)
    (hfg : ∀ v, (f v).Matches R (g v)) : (s.withSrcLe a k f).Matches R (u.withSrcLe a k g) := by
  unfold State.withSrcLe State.readSrcLe
  cases hs : s.readSrcBytes a k with
  | none => exact .stuck _ _
  | some bs => rw [h.readSrcBytes hs]; exact hfg _

/-- A byte written where the common bytes of DST end is one more. -/
theorem State.Matches.writeDst {a : Nat} {s u : State} (h : s.Matches a u) (b : Byte) :
    (s.writeDst a b).Matches (fun t v => t.Matches (a + 1) v ∧ t.tr = s.tr) (u.writeDst a b) := by
  unfold State.writeDst
  rw [h.dstCap]
  refine Run.matches_ite (.ok ⟨{ h with dst := fun x hx => ?_ }, rfl⟩) (.stuck _ _)
  simp only [Memory.lookup_store]
  split
  · rfl
  · exact h.dst x (by omega)

theorem State.Matches.writeDstBytes {a : Nat} {bs : List Byte} {s u : State} (h : s.Matches a u) :
    (s.writeDstBytes a bs).Matches (fun t v => t.Matches (a + bs.length) v ∧ t.tr = s.tr)
      (u.writeDstBytes a bs) := by
  induction bs generalizing a s u with
  | nil => exact .ok ⟨h, rfl⟩
  | cons b bs ih =>
    refine (h.writeDst b).andThen fun t v htv => (ih htv.1).mono fun t' v' h' => ?_
    rw [List.length_cons, Nat.add_comm bs.length 1, ← Nat.add_assoc]
    exact ⟨h'.1, h'.2.trans htv.2⟩

theorem State.MatchesOut.emitByte {s u : State} (h : s.MatchesOut u) (b : Byte) :
    (s.emitByte b).Matches State.MatchesOut (u.emitByte b) := by
  unfold State.emitByte
  rw [h.tr]
  refine (h.writeDst b).andThen fun t v ⟨htv, htr⟩ => ?_
  have hw : t.tr.wptr + 1 = s.tr.wptr + 1 := by rw [htr]
  rw [← hw] at htv
  exact .ok (htv.withTr fun t => { t with wptr := t.wptr + 1 })

/-! ### COUNT, BUILD, GENCODE and PARSE -/

theorem increment_matches {n : Nat} {s u : State} (h : s.Matches n u) (b : Byte) :
    (s.increment b).Matches (State.Matches n) (u.increment b) := by
  unfold State.increment
  rw [h.tr]
  exact Run.matches_check (.ok (h.withTr _))

theorem countLoop_matches {n k : Nat} {s u : State} (h : s.Matches n u) :
    (countLoop k s).Matches (State.Matches n) (countLoop k u) := by
  induction k generalizing s u with
  | zero => exact .ok h
  | succ k ih =>
    rw [countLoop, countLoop, h.tr]
    exact h.withSrc _ fun b => (increment_matches h b).andThen fun t v htv => ih (htv.withTr _)

theorem countBody_matches {n : Nat} {s u : State} (h : s.Matches n u) :
    (countBody s).Matches (State.Matches n) (countBody u) := by
  unfold countBody
  rw [h.srcLen]
  exact (countLoop_matches (h.withTr _)).andThen fun t v htv => .ok (htv.withTr _)

theorem buildBody_matches {n : Nat} {s u : State} (h : s.Matches n u) :
    (buildBody s).Matches (State.Matches n) (buildBody u) := by
  unfold buildBody
  rw [h.tr, h.cmdLatch]
  cases buildTree s.tr with
  | none => exact .stuck _ _
  | some t => exact Run.matches_ite (.ok { h with tr := rfl, cmdLatch := rfl }) (.raised _ _ _)

theorem gencodeBody_matches {n : Nat} {s u : State} (h : s.Matches n u) :
    (gencodeBody s).Matches (State.Matches n) (gencodeBody u) := by
  unfold gencodeBody
  rw [h.tr]
  cases generateCodes s.tr with
  | none => exact .stuck _ _
  | some t => exact .ok { h with tr := rfl }

theorem parseHeader_matches {n : Nat} {s u : State} (h : s.Matches n u) :
    (parseHeader s).Matches (State.Matches n) (parseHeader u) :=
  h.withSrcLe 0 8 fun _ => h.withSrcLe 8 2 fun _ => .ok (h.withTr _)

theorem parseEntries_matches {n k j : Nat} {s u : State} (h : s.Matches n u) :
    (parseEntries k j s).Matches (State.Matches n) (parseEntries k j u) := by
  induction k generalizing j s u with
  | zero => exact .ok h
  | succ k ih =>
    refine Run.Matches.andThen (R := State.Matches n) ?_ fun t v htv => ih htv
    refine h.withSrc _ fun sym => h.withSrcLe _ _ fun f => Run.matches_check ?_
    rw [h.tr]
    exact Run.matches_check (.ok (h.withTr _))

theorem setPayload_matches {n : Nat} {s u : State} (h : s.Matches n u) :
    (setPayload s).Matches n (setPayload u) := by
  unfold setPayload
  rw [h.tr, h.srcLen]
  exact h.withTr _

theorem parseBody_matches {n : Nat} {s u : State} (h : s.Matches n u) :
    (parseBody s).Matches (State.Matches n) (parseBody u) := by
  unfold parseBody
  rw [h.srcLen]
  refine Run.matches_check ((parseHeader_matches h).andThen fun t v htv => ?_)
  rw [htv.tr, htv.srcLen]
  refine Run.matches_check (Run.matches_check
    ((parseEntries_matches htv).andThen fun t' v' h' => ?_))
  have hset := setPayload_matches h'
  simp only
  rw [hset.tr, hset.dstCap]
  exact Run.matches_check (.ok hset)

/-! ### FRAME, ENCODE and DECODE -/

theorem writeHeader_matches {s u : State} (h : s.Matches 0 u) :
    (writeHeader s).Matches State.MatchesOut (writeHeader u) := by
  unfold writeHeader State.writeDstLe
  rw [h.srcLen]
  refine h.writeDstBytes.andThen fun t v ⟨htv, _⟩ => ?_
  rw [htv.tr]
  rw [leBytes_length] at htv
  refine htv.writeDstBytes.andThen fun t' v' ⟨h', _⟩ => ?_
  rw [leBytes_length] at h'
  exact .ok (h'.withTr fun t => { t with wptr := headerLen })

theorem writeEntry_matches {s u : State} (h : s.MatchesOut u) (e : Byte × BitVec 32) :
    (writeEntry s e).Matches State.MatchesOut (writeEntry u e) := by
  unfold writeEntry State.writeDstLe
  rw [h.tr]
  refine (h.writeDst e.1).andThen fun t v ⟨htv, htr⟩ => ?_
  rw [htv.tr, htr]
  refine htv.writeDstBytes.andThen fun t' v' ⟨h', htr'⟩ => ?_
  rw [leBytes_length] at h'
  have hw : t'.tr.wptr + 5 = s.tr.wptr + 1 + 4 := by rw [htr', htr]
  rw [← hw] at h'
  exact .ok (h'.withTr fun t => { t with wptr := t.wptr + 5 })

theorem writeTable_matches {es : List (Byte × BitVec 32)} {s u : State} (h : s.MatchesOut u) :
    (writeTable es s).Matches State.MatchesOut (writeTable es u) := by
  induction es generalizing s u with
  | nil => exact .ok h
  | cons e es ih => exact (writeEntry_matches h e).andThen fun t v htv => ih htv

theorem frameBody_matches {s u : State} (h : s.Matches 0 u) :
    (frameBody s).Matches State.MatchesOut (frameBody u) := by
  have hbits : (s.withTr fun t => { t with totalBits := t.codeBits }).Matches 0
      (u.withTr fun t => { t with totalBits := t.codeBits }) := h.withTr _
  unfold frameBody
  simp only
  rw [hbits.tr, hbits.dstCap]
  exact Run.matches_check ((writeHeader_matches (hbits.withTr _)).andThen
    fun t v htv => writeTable_matches htv)

theorem pushBit_matches {s u : State} (h : s.MatchesOut u) (b : Bool) :
    (pushBit s b).Matches State.MatchesOut (pushBit u b) := by
  have hshift : (s.withTr fun t => { t with acc := shiftIn t.acc b, accN := t.accN + 1 }).MatchesOut
      (u.withTr fun t => { t with acc := shiftIn t.acc b, accN := t.accN + 1 }) := h.withTr _
  unfold pushBit
  simp only
  rw [hshift.tr]
  refine Run.matches_ite (hshift.emitByte _ |>.andThen fun t v htv => ?_) (.ok hshift)
  exact .ok (htv.withTr fun t => { t with acc := 0, accN := 0 })

theorem pushBits_matches {bs : List Bool} {s u : State} (h : s.MatchesOut u) :
    (pushBits bs s).Matches State.MatchesOut (pushBits bs u) := by
  induction bs generalizing s u with
  | nil => exact .ok h
  | cons b bs ih => exact (pushBit_matches h b).andThen fun t v htv => ih htv

theorem encodeLoop_matches {k : Nat} {s u : State} (h : s.MatchesOut u) :
    (encodeLoop k s).Matches State.MatchesOut (encodeLoop k u) := by
  induction k generalizing s u with
  | zero => exact .ok h
  | succ k ih =>
    rw [encodeLoop, encodeLoop, h.tr]
    refine h.withSrc _ fun b => Run.Matches.andThen (R := State.MatchesOut) ?_ fun t v htv =>
      ih (htv.withTr fun t => { t with rptr := t.rptr + 1 })
    unfold emitCode
    rw [h.tr]
    exact pushBits_matches h

theorem flush_matches {s u : State} (h : s.MatchesOut u) :
    (flush s).Matches State.MatchesOut (flush u) := by
  unfold flush
  rw [h.tr]
  refine Run.matches_ite (.ok h) (h.emitByte _ |>.andThen fun t v htv => ?_)
  exact .ok (htv.withTr fun t => { t with acc := 0, accN := 0 })

theorem encodeBody_matches {s u : State} (h : s.MatchesOut u) :
    (encodeBody s).Matches State.MatchesOut (encodeBody u) := by
  unfold encodeBody
  rw [h.srcLen]
  exact (encodeLoop_matches (h.withTr fun t => { t with rptr := 0, acc := 0, accN := 0 })).andThen
    fun t v htv => flush_matches htv

theorem emitSymbol_matches {s u : State} (h : s.MatchesOut u) (c : Byte) :
    (emitSymbol s c).Matches State.MatchesOut (emitSymbol u c) :=
  (h.emitByte c).andThen fun _ _ htv =>
    .ok (htv.withTr fun t => { t with emitted := t.emitted + 1 })

theorem stepLeafRoot_matches {s u : State} (h : s.MatchesOut u) :
    (stepLeafRoot s).Matches State.MatchesOut (stepLeafRoot u) := by
  unfold stepLeafRoot
  rw [h.tr]
  cases s.tr.nodeAt s.tr.root with
  | none => exact .stuck _ _
  | some v => exact emitSymbol_matches h v.sym

theorem stepWalk_matches {s u : State} (h : s.MatchesOut u) (b : Bool) :
    (stepWalk s b).Matches State.MatchesOut (stepWalk u b) := by
  unfold stepWalk
  rw [h.tr]
  cases s.tr.childOf b with
  | none => exact .stuck _ _
  | some c =>
    have hcur : (s.withTr fun t => { t with cur := c }).MatchesOut
        (u.withTr fun t => { t with cur := c }) := h.withTr _
    simp only
    rw [hcur.tr]
    cases (s.withTr fun t => { t with cur := c }).tr.nodeAt c with
    | none => exact .stuck _ _
    | some v =>
      refine Run.matches_ite ((emitSymbol_matches hcur v.sym).andThen fun t w htw => ?_) (.ok hcur)
      exact .ok (htw.withTr fun t => { t with cur := t.root })

theorem stepBit_matches {s u : State} (h : s.MatchesOut u) (b : Bool) :
    (stepBit s b).Matches State.MatchesOut (stepBit u b) := by
  unfold stepBit
  rw [h.tr]
  exact Run.matches_ite (stepLeafRoot_matches h) (stepWalk_matches h b)

theorem decodeLoop_matches {k : Nat} {s u : State} (h : s.MatchesOut u) :
    (decodeLoop k s).Matches State.MatchesOut (decodeLoop k u) := by
  induction k generalizing s u with
  | zero => exact .ok h
  | succ k ih =>
    rw [decodeLoop, decodeLoop, h.tr]
    refine Run.matches_ite ?_ (.ok h)
    unfold State.payloadBit
    cases hs : s.readSrc (payloadByteAddr s.tr.payBase s.tr.bitpos) with
    | none => exact .stuck _ _
    | some b =>
      rw [h.readSrc _ _ hs]
      exact (stepBit_matches (h.withTr fun t => { t with bitpos := t.bitpos + 1 }) _).andThen
        fun t v htv => ih htv

theorem decodeBody_matches {s u : State} (h : s.Matches 0 u) :
    (decodeBody s).Matches State.MatchesOut (decodeBody u) := by
  have hinit : (decodeInit s).MatchesOut (decodeInit u) := h.withTr _
  unfold decodeBody
  simp only
  rw [hinit.tr]
  refine (decodeLoop_matches hinit).andThen fun t v htv => ?_
  rw [htv.tr]
  exact Run.matches_check (.ok htv)

end Sys2Proof.Machine
end

section
/-! SUPPORT. The claim that operations are pure (00_scope.md R2): two machines in step end in step, and
a machine whose SRC ends at SRC_LEN, which no read past the input can leave, is in step with every
machine that has the same input. -/

namespace Sys2Proof.Machine

/-- Both commands have ended with the same STATUS, DST_LEN and result bytes. -/
structure State.SameOutcome (t v : State) : Prop where
  idle : t.busy = false ∧ v.busy = false
  status : t.statusWord = v.statusWord
  dstLen : t.dstLen = v.dstLen
  result : ∀ a, a < t.dstLen → t.dst.lookup a = v.dst.lookup a

theorem State.sameOutcome_raise (t v : State) (k : ErrorKind) :
    (t.raise k).SameOutcome (v.raise k) where
  idle := ⟨rfl, rfl⟩
  status := rfl
  dstLen := rfl
  result a ha := by simp at ha

theorem State.MatchesOut.sameOutcome_succeed {t v : State} (h : t.MatchesOut v) :
    (t.succeed t.tr.wptr).SameOutcome (v.succeed v.tr.wptr) where
  idle := ⟨rfl, rfl⟩
  status := rfl
  dstLen := by rw [h.tr]; rfl
  result a ha := by
    have hle : (t.succeed t.tr.wptr).dstLen ≤ t.tr.wptr := by
      change pairNat (hiHalf t.tr.wptr) (loHalf t.tr.wptr) ≤ _
      simp only [pairNat, hiHalf, loHalf, BitVec.toNat_ofNat]
      omega
    exact (h.dst a (by omega)).symm

/-- Two machines in the same phase of the same command; ENCODE goes on from the bytes below WPTR. -/
structure State.InStep (s u : State) : Prop where
  busy : s.busy = true
  running : s.phase ≠ .idle
  same : s.Matches 0 u
  out : s.phase = .encode → s.MatchesOut u

/-- The phases that write DST leave the same bytes below WPTR. -/
theorem phaseBody_matches {s u : State} (h : s.InStep u) :
    (phaseBody s.phase s).Matches
      (fun t v => t.Matches 0 v ∧
        (s.phase = .frame ∨ s.phase = .encode ∨ s.phase = .decode → t.MatchesOut v))
      (phaseBody s.phase u) := by
  cases hp : s.phase with
  | idle => exact absurd hp h.running
  | count => exact (countBody_matches h.same).mono fun t v htv => ⟨htv, by simp⟩
  | build => exact (buildBody_matches h.same).mono fun t v htv => ⟨htv, by simp⟩
  | gencode => exact (gencodeBody_matches h.same).mono fun t v htv => ⟨htv, by simp⟩
  | parse => exact (parseBody_matches h.same).mono fun t v htv => ⟨htv, by simp⟩
  | frame =>
    exact (frameBody_matches h.same).mono fun t v htv => ⟨htv.mono (Nat.zero_le _), fun _ => htv⟩
  | encode =>
    exact (encodeBody_matches (h.out hp)).mono fun t v htv =>
      ⟨htv.mono (Nat.zero_le _), fun _ => htv⟩
  | decode =>
    exact (decodeBody_matches h.same).mono fun t v htv => ⟨htv.mono (Nat.zero_le _), fun _ => htv⟩

/-- Only ENCODE and DECODE end a path, and only FRAME leads to ENCODE (R95, R97). -/
theorem phaseAfter_phasePath_writes {v : Word} {p : Phase} {after : Option Phase}
    (h : phaseAfter p (phasePath v) = some after) (hafter : after = none ∨ after = some .encode) :
    p = .frame ∨ p = .encode ∨ p = .decode := by
  have hne : phasePath v ≠ [] := fun h0 => by rw [h0] at h; cases h
  rcases hafter with rfl | rfl <;> rcases phasePath_ne_nil hne with rfl | rfl
  all_goals cases p <;> revert h <;> decide

theorem State.InStep.engineStep {s u t : State} (h : s.InStep u)
    (hs : Machine.engineStep s = .next t) :
    ∃ v, Machine.engineStep u = .next v ∧ (t.SameOutcome v ∨ t.InStep v) := by
  have hbody := phaseBody_matches h
  have hframe := phaseBody_onlyDstTr s.phase s
  rw [engineStep_eq_runPhase (h.same.busy.trans h.busy) (h.same.phase ▸ h.running), h.same.phase]
  rw [engineStep_eq_runPhase h.busy h.running] at hs
  unfold State.runPhase at hs ⊢
  rw [h.same.cmdLatch]
  cases hafter : phaseAfter s.phase (phasePath s.cmdLatch) with
  | none => rw [hafter] at hs; cases hs
  | some after =>
    rw [hafter] at hs
    generalize phaseBody s.phase s = r, phaseBody s.phase u = q at *
    cases hbody with
    | stuck e => cases hs
    | raised k t' v' => cases hs; exact ⟨_, rfl, .inl (State.sameOutcome_raise _ _ k)⟩
    | @ok t' v' htv =>
      cases after with
      | none =>
        cases hs
        have hout := htv.2 (phaseAfter_phasePath_writes hafter (.inl rfl))
        exact ⟨_, rfl, .inl hout.sameOutcome_succeed⟩
      | some p =>
        cases hs
        have hbusy : t'.busy = s.busy := by
          rw [show t' = { s with dst := t'.dst, tr := t'.tr } from hframe]
        refine ⟨_, rfl, .inr ⟨hbusy.trans h.busy, (phaseAfter_phasePath hafter).1,
          { htv.1 with phase := rfl }, fun hp => ?_⟩⟩
        have hout := htv.2 (phaseAfter_phasePath_writes hafter (.inr (congrArg some hp)))
        exact { hout with phase := rfl }

theorem State.InStep.engineRun {k : Nat} {s u t : State} (h : s.InStep u)
    (hs : Machine.engineRun k s = .next t) (hidle : t.busy = false) :
    ∃ v, Machine.engineRun k u = .next v ∧ t.SameOutcome v := by
  have hu := h.same.busy.trans h.busy
  induction k generalizing s u with
  | zero =>
    cases hs
    exact absurd (h.busy.symm.trans hidle) (by decide)
  | succ k ih =>
    cases hstep : Machine.engineStep s with
    | fault e => simp [Machine.engineRun, h.busy, hstep] at hs
    | refused e => simp [Machine.engineRun, h.busy, hstep] at hs
    | next s' =>
      rw [engineRun_succ k h.busy hstep] at hs
      obtain ⟨u', hu', hnext⟩ := h.engineStep hstep
      rw [engineRun_succ k hu hu']
      rcases hnext with hsame | hin
      · rw [engineRun_idle k hsame.idle.1] at hs
        cases hs
        exact ⟨u', engineRun_idle k hsame.idle.2, hsame⟩
      · exact ih hin hs (hin.same.busy.trans hin.busy)

/-! ### A machine whose SRC ends at SRC_LEN -/

/-- The same machine with SRC_CAP = SRC_LEN: a read past the input is stuck there. -/
def State.clipped (s : State) : State := { s with cfg := { s.cfg with srcCap := s.srcLen } }

theorem State.srcLen_eq_of_input_eq {s u : State} (h : s.input = u.input) :
    s.srcLen = u.srcLen := by
  rw [← s.input_length, h, u.input_length]

theorem State.srcByte_eq_of_input_eq {s u : State} (h : s.input = u.input) {a : Nat}
    (ha : a < s.srcLen) : s.srcByte a = u.srcByte a := by
  have hlen := State.srcLen_eq_of_input_eq h
  have := congrArg (·[a]?) h
  simpa [State.input, ha, hlen ▸ ha] using this

/-- A machine with the same input answers every read that the clipped one answers. -/
theorem State.readSrc_of_clipped {s u : State} (hin : s.input = u.input)
    (hfits : u.srcLen ≤ u.cfg.srcCap) {a : Nat} {b : Byte} (h : s.clipped.readSrc a = some b) :
    u.readSrc a = some b := by
  obtain ⟨ha, hb⟩ := State.readSrc_eq_some.1 h
  change a < s.srcLen at ha
  have hlen := State.srcLen_eq_of_input_eq hin
  exact State.readSrc_eq_some.2 ⟨by omega, (State.srcByte_eq_of_input_eq hin ha).symm.trans hb⟩

/-- Dispatch puts the clipped machine and every machine with the same input in step. -/
theorem State.inStep_of_clipped {s u : State} {w : Word} (hw : w = 1#32 ∨ w = 2#32)
    (hs : s.accepted w) (hu : u.accepted w) (hdst : u.cfg.dstCap = s.cfg.dstCap)
    (hin : s.input = u.input) (hfits : u.srcLen ≤ u.cfg.srcCap) :
    ({ s.clipped.prologue with phase := firstPhase w } : State).InStep
      { u.prologue with phase := firstPhase w } := by
  have hfirst : firstPhase w ≠ .idle ∧ firstPhase w ≠ .encode := by
    rcases hw with rfl | rfl <;> decide
  refine ⟨hs.1, hfirst.1, ?_, fun h => absurd h hfirst.2⟩
  exact {
    dstCap := hdst
    srcLen := (State.srcLen_eq_of_input_eq hin).symm
    readSrc := fun _ _ => State.readSrc_of_clipped hin hfits
    cmdLatch := hu.2.2.trans hs.2.2.symm
    phase := rfl
    busy := hu.1.trans hs.1.symm
    tr := rfl
    dst := fun a ha => absurd ha (Nat.not_lt_zero a) }

/-- A machine with the same command and input, which fits its SRC, ends as the clipped one does. -/
theorem engineRun_of_clipped {s u t : State} {w : Word} (hw : w = 1#32 ∨ w = 2#32)
    (hs : s.accepted w) (hu : u.accepted w) (hdst : u.cfg.dstCap = s.cfg.dstCap)
    (hin : s.input = u.input) (hfits : u.srcLen ≤ u.cfg.srcCap)
    (hrun : engineRun maxEngineSteps s.clipped = .next t) (hidle : t.busy = false) :
    ∃ v, engineRun maxEngineSteps u = .next v ∧ t.SameOutcome v := by
  have hlen := State.srcLen_eq_of_input_eq hin
  have hs' : s.clipped.accepted w := hs
  by_cases hempty : w = 1#32 ∧ s.srcLen = 0
  · obtain ⟨rfl, h0⟩ := hempty
    have hclip := engineRun_of_step_idle 5 hs'.1 (engineStep_accepted_empty hs' h0) rfl
    obtain rfl := Host.Outcome.next.inj (hrun.symm.trans hclip)
    exact ⟨_, engineRun_of_step_idle 5 hu.1 (engineStep_accepted_empty hu (hlen ▸ h0)) rfl,
      State.sameOutcome_raise _ _ _⟩
  · have hne : w = 1#32 → s.srcLen ≠ 0 := fun hw h0 => hempty ⟨hw, h0⟩
    rw [maxEngineSteps,
      engineRun_succ 5 hs'.1 (engineStep_accepted_starts hs' hw le_rfl hne)] at hrun
    rw [maxEngineSteps, engineRun_succ 5 hu.1 (engineStep_accepted_starts hu hw hfits (hlen ▸ hne))]
    exact (State.inStep_of_clipped hw hs hu hdst hin hfits).engineRun hrun hidle

/-- Settles O57. Both machines end as the one does whose SRC is clipped to the input, which ends
because every command does; an input longer than SRC is refused at dispatch in both. -/
theorem operationsArePure : Obligations.OperationsArePure := by
  intro s u w hw hs hu hcfg _ hin
  have hlen := State.srcLen_eq_of_input_eq hin
  by_cases hlong : s.cfg.srcCap < s.srcLen
  · have hsame := State.sameOutcome_raise s.prologue u.prologue .badLength
    exact ⟨_, _, engineRun_of_step_idle 5 hs.1 (engineStep_accepted_long hs hw hlong) rfl,
      engineRun_of_step_idle 5 hu.1 (engineStep_accepted_long hu hw (hcfg ▸ hlen ▸ hlong)) rfl,
      hsame.status, hsame.dstLen, hsame.result⟩
  · have hfits := Nat.not_lt.1 hlong
    obtain ⟨c, hrun, hidle⟩ := engineRun_accepted_ends (s := s.clipped) hs hw le_rfl
    obtain ⟨t, ht, hct⟩ := engineRun_of_clipped hw hs hs rfl rfl hfits hrun hidle
    obtain ⟨v, hv, hcv⟩ := engineRun_of_clipped hw hs hu (by rw [hcfg]) hin
      (by rw [← hlen, ← hcfg]; exact hfits) hrun hidle
    exact ⟨t, v, ht, hv, hct.status.symm.trans hcv.status, hct.dstLen.symm.trans hcv.dstLen,
      fun a ha => by
        rw [← hct.dstLen] at ha
        rw [← hct.result a ha, hcv.result a ha]⟩

end Sys2Proof.Machine
end

section
/-! SUPPORT. What an instruction can answer, said once (40_commands.md R91 to R100), and with it what
every instruction leaves alone and how PHASE moves (10_state.md R13 to R21). -/

namespace Sys2Proof.Machine

/-! ### The answers of an instruction -/

/-- A kind that HUFFCORE raises: none of the two reserved for host software (60_exceptions.md R186). -/
abbrev ErrorKind.raisable (k : ErrorKind) : Prop := k ≠ .unreadableFile ∧ k ≠ .unwritableOutput

/-- What CLEAR leaves (R99). -/
def State.cleared (s : State) : State :=
  { s.prologue with
    srcLenLo := 0, srcLenHi := 0, dstLenLo := 0, dstLenHi := 0, cmdLatch := 0, phase := .idle
    err := none, fail := false, done := false, busy := false }

/-- Everything a phase can answer: the failure epilogue, the next phase of the path, or the success
epilogue with length WPTR; and its body has written only DST and the transient state. -/
inductive PhaseNext (s : State) (p : Phase) : State → Prop
  | fails {k : ErrorKind} {m : Memory} {u : Transient}
      (hbody : phaseBody p s = .raised k { s with dst := m, tr := u }) :
      PhaseNext s p (({ s with dst := m, tr := u } : State).raise k)
  | goesOn {q : Phase} {m : Memory} {u : Transient}
      (hbody : phaseBody p s = .ok { s with dst := m, tr := u })
      (hafter : phaseAfter p (phasePath s.cmdLatch) = some (some q)) :
      PhaseNext s p { s with dst := m, tr := u, phase := q }
  | ends {m : Memory} {u : Transient}
      (hbody : phaseBody p s = .ok { s with dst := m, tr := u })
      (hafter : phaseAfter p (phasePath s.cmdLatch) = some none) :
      PhaseNext s p (({ s with dst := m, tr := u } : State).succeed u.wptr)

theorem State.runPhase_phaseNext {s t : State} {p : Phase}
    (h : s.runPhase p (phaseBody p) = .next t) : PhaseNext s p t := by
  have hframe := phaseBody_onlyDstTr p s
  rcases State.runPhase_next h with ⟨k, u, hbody, rfl⟩ | ⟨q, u, hbody, hafter, rfl⟩ |
    ⟨u, hbody, hafter, rfl⟩
  all_goals
    rw [hbody] at hframe
    have hu : u = { s with dst := u.dst, tr := u.tr } := hframe
    generalize u.dst = m, u.tr = tr at hu
    subst hu
  · exact .fails hbody
  · exact .goesOn hbody hafter
  · exact .ends hbody hafter

/-- Everything an instruction can answer. -/
inductive ExecNext (s : State) : Instr → State → Prop
  | nop : ExecNext s .nop s
  | clear : ExecNext s .clear s.cleared
  | fails {i : Instr} {k : ErrorKind} (hi : i ≠ .clear) (hk : k.raisable) :
      ExecNext s i (s.prologue.raise k)
  | compress (hlen : s.srcLen ≤ s.cfg.srcCap) (hne : s.srcLen ≠ 0) :
      ExecNext s .compress { s.prologue with phase := .count }
  | decompress (hlen : s.srcLen ≤ s.cfg.srcCap) :
      ExecNext s .decompress { s.prologue with phase := .parse }
  | phase {i : Instr} {p : Phase} {t : State} (hp : decodePhase p.code = .ok i)
      (hnext : PhaseNext s p t) : ExecNext s i t

theorem exec_next {i : Instr} {s t : State} (h : exec i s = .next t) : ExecNext s i t := by
  cases i with
  | nop => cases h; exact .nop
  | clear => cases h; exact .clear
  | illegal w => cases h; exact .fails nofun (by decide)
  | compress =>
    simp only [exec, execCompress] at h
    split at h
    · cases h; exact .fails (by decide) (by decide)
    · next hlen =>
      split at h
      · cases h; exact .fails (by decide) (by decide)
      · next hne => cases h; exact .compress (Nat.not_lt.1 hlen) hne
  | decompress =>
    simp only [exec, execDecompress] at h
    split at h
    · cases h; exact .fails (by decide) (by decide)
    · next hlen => cases h; exact .decompress (Nat.not_lt.1 hlen)
  | count => exact .phase (p := .count) rfl (State.runPhase_phaseNext h)
  | build => exact .phase (p := .build) rfl (State.runPhase_phaseNext h)
  | gencode => exact .phase (p := .gencode) rfl (State.runPhase_phaseNext h)
  | frame => exact .phase (p := .frame) rfl (State.runPhase_phaseNext h)
  | encode => exact .phase (p := .encode) rfl (State.runPhase_phaseNext h)
  | parse => exact .phase (p := .parse) rfl (State.runPhase_phaseNext h)
  | decode => exact .phase (p := .decode) rfl (State.runPhase_phaseNext h)

/-- Settles O38: no answer of an instruction differs from its start in one of these fields, but for
CLEAR. -/
theorem instructionsKeepInputAndHost : Obligations.InstructionsKeepInputAndHost := by
  intro i s t h
  cases exec_next h with
  | clear => exact ⟨rfl, rfl, rfl, rfl, rfl, rfl, rfl, fun hi => absurd rfl hi⟩
  | phase hp hnext =>
    cases hnext <;> exact ⟨rfl, rfl, rfl, rfl, rfl, rfl, rfl, fun _ => ⟨rfl, rfl, rfl⟩⟩
  | _ => exact ⟨rfl, rfl, rfl, rfl, rfl, rfl, rfl, fun _ => ⟨rfl, rfl, rfl⟩⟩

/-! ### The flags -/

theorem State.reset_statusWord : State.reset.statusWord = 0x00000000#32 := by decide

theorem State.cleared_statusWord (s : State) : s.cleared.statusWord = 0x00000000#32 := by
  change State.reset.statusWord = _
  exact State.reset_statusWord

theorem State.cleared_dstLen (s : State) : s.cleared.dstLen = 0 := s.raise_dstLen .badLength

theorem State.failedWith_raise (s : State) (k : ErrorKind) : (s.raise k).failedWith k :=
  ⟨rfl, rfl, rfl, rfl, rfl, s.raise_dstLen k⟩

/-- Only ENCODE and DECODE are last on a path (R95, R97). -/
theorem phaseAfter_phasePath_last {v : Word} {p : Phase}
    (h : phaseAfter p (phasePath v) = some none) : p = .encode ∨ p = .decode := by
  have hne : phasePath v ≠ [] := fun h0 => by rw [h0] at h; cases h
  rcases phasePath_ne_nil hne with rfl | rfl
  all_goals cases p <;> revert h <;> decide

/-- Settles O39: an instruction ends in the failure epilogue, in the success epilogue after a last
phase, in CLEAR, or without an epilogue. -/
theorem flagsChangeOnlyInEpilogues : Obligations.FlagsChangeOnlyInEpilogues := by
  intro i s t h
  cases exec_next h with
  | fails => exact .inr (.inl ⟨_, State.failedWith_raise _ _⟩)
  | clear => exact .inr (.inr (.inr ⟨rfl, s.cleared_statusWord, s.cleared_dstLen⟩))
  | phase hp hnext =>
    cases hnext with
    | fails => exact .inr (.inl ⟨_, State.failedWith_raise _ _⟩)
    | goesOn => exact .inl ⟨rfl, rfl, rfl, rfl, rfl, rfl⟩
    | ends hbody hafter =>
      refine .inr (.inr (.inl ⟨?_, rfl, rfl, rfl, rfl, rfl, rfl, rfl⟩))
      rcases phaseAfter_phasePath_last hafter with rfl | rfl
      · exact .inl (Except.ok.inj hp).symm
      · exact .inr (Except.ok.inj hp).symm
  | _ => exact .inl ⟨rfl, rfl, rfl, rfl, rfl, rfl⟩

/-! ### The sequencer -/

/-- The only words that dispatch reads as COMPRESS or DECOMPRESS are their own; every other word but
that of CLEAR is illegal (R67, R92). -/
theorem dispatchInstr_cases (v : Word) :
    (v = 1#32 ∨ v = 2#32) ∨ dispatchInstr v = .clear ∨ dispatchInstr v = .illegal v := by
  unfold dispatchInstr decodeCommand
  have hword : ∀ n, v.toNat = n % 2 ^ 32 → v = BitVec.ofNat 32 n := fun n h =>
    BitVec.eq_of_toNat_eq (h.trans (BitVec.toNat_ofNat n 32).symm)
  by_cases h0 : v = 0
  · exact .inr (.inr (if_pos h0))
  rw [if_neg h0]
  split
  · next hr =>
    have hr' : 0 = v.toNat / 256 := (congrArg BitVec.toNat hr).symm.trans (rsvField_toNat v)
    have ho := opcField_toNat v
    split
    · exact absurd (hword 0 (by omega)) h0
    · exact .inl (.inl (hword 1 (by omega)))
    · exact .inl (.inr (hword 2 (by omega)))
    · exact .inr (.inl rfl)
    · exact .inr (.inr rfl)
  · exact .inr (.inr rfl)

/-- Everything a dispatch can answer: an error, CLEAR, or the first phase of COMPRESS or DECOMPRESS
after the checks of R94 and R187. -/
inductive DispatchNext (s : State) : State → Prop
  | fails {k : ErrorKind} (hk : k.raisable) : DispatchNext s (s.prologue.raise k)
  | clear : DispatchNext s s.cleared
  | starts (hlatch : s.cmdLatch = 1#32 ∨ s.cmdLatch = 2#32) (hlen : s.srcLen ≤ s.cfg.srcCap)
      (hne : s.cmdLatch = 1#32 → s.srcLen ≠ 0) :
      DispatchNext s { s.prologue with phase := firstPhase s.cmdLatch }

theorem engineStep_dispatchNext {s t : State} (hb : s.busy = true) (hp : s.phase = .idle)
    (h : engineStep s = .next t) : DispatchNext s t := by
  have hacc : s.accepted s.cmdLatch := ⟨hb, hp, rfl⟩
  rcases dispatchInstr_cases s.cmdLatch with hw | hi | hi
  · by_cases hlong : s.cfg.srcCap < s.srcLen
    · rw [engineStep_accepted_long hacc hw hlong] at h
      cases h; exact .fails (by decide)
    by_cases hempty : s.cmdLatch = 1#32 ∧ s.srcLen = 0
    · rw [engineStep_accepted_empty (hempty.1 ▸ hacc) hempty.2] at h
      cases h; exact .fails (by decide)
    have hne : s.cmdLatch = 1#32 → s.srcLen ≠ 0 := fun hl h0 => hempty ⟨hl, h0⟩
    rw [engineStep_accepted_starts hacc hw (Nat.not_lt.1 hlong) hne] at h
    cases h; exact .starts hw (Nat.not_lt.1 hlong) hne
  · rw [engineStep_busy hb, engineInstr_of_phase, hp, hi] at h
    cases h; exact .clear
  · rw [engineStep_busy hb, engineInstr_of_phase, hp, hi] at h
    cases h; exact .fails (by decide)

/-- With a phase in progress the engine's answer is that phase's. -/
theorem engineStep_phaseNext {s t : State} (hb : s.busy = true) (hp : s.phase ≠ .idle)
    (h : engineStep s = .next t) : PhaseNext s s.phase t :=
  State.runPhase_phaseNext ((engineStep_eq_runPhase hb hp).symm.trans h)

/-- Settles O44: a dispatch starts the first phase, a phase hands over to the next one, and every
epilogue and CLEAR leave PHASE at IDLE. -/
theorem phaseAdvancesAlongThePath : Obligations.PhaseAdvancesAlongThePath := by
  intro s t hb h
  by_cases hp : s.phase = .idle
  · cases engineStep_dispatchNext hb hp h with
    | fails => exact .inl rfl
    | clear => exact .inl rfl
    | starts hlatch =>
      refine .inr (.inl ⟨hp, ?_⟩)
      rcases hlatch with hl | hl <;> simp only [hl] <;> rfl
  · cases engineStep_phaseNext hb hp h with
    | fails => exact .inl rfl
    | goesOn hbody hafter => exact .inr (.inr hafter)
    | ends => exact .inl rfl

/-! ### Reset -/

/-- Settles O5. -/
theorem resetLeavesTheGivenValues : Obligations.ResetLeavesTheGivenValues :=
  ⟨State.reset_statusWord, rfl, rfl, rfl, rfl, fun _ => ⟨rfl, rfl⟩, engineStep_idle rfl⟩

end Sys2Proof.Machine
end

section
/-! SUPPORT. The writes a phase is made of, said once: each single write of a phase with what is known
when it is done (`PhaseWrite`), and that a phase, however it ends, has done only these
(10_state.md R20, R28, and the phase rules R110, R120, R130, R135, R145, R155, R170). -/

namespace Sys2Proof.Machine

/-! ### BUILD and GENCODE write only their arrays -/

theorem Transient.popMin_eq_some {t u : Transient} {i : Nat} (h : t.popMin = some (i, u)) :
    t.inqAt i = true ∧ u = t.setInq i false := by
  by_cases hq : t.queue = []
  · rw [Transient.popMin, hq] at h; cases h
  · obtain ⟨j, hpop, hj, -⟩ := Transient.popMin_of_ne_nil hq
    cases h.symm.trans hpop
    exact ⟨hj, rfl⟩

/-- A pass of R113 that answers has popped two queued slots and pushed their parent. -/
theorem mergeOnce_eq_some {t u : Transient} (h : mergeOnce t = some u) :
    ∃ a b, t.inqAt a = true ∧ (t.setInq a false).inqAt b = true ∧ t.nextFree < 511 ∧
      u = ((t.setInq a false).setInq b false).pushParent a b := by
  obtain ⟨⟨a, v⟩, hpopA, h⟩ := Option.bind_eq_some_iff.1 h
  obtain ⟨⟨b, w⟩, hpopB, h⟩ := Option.bind_eq_some_iff.1 h
  obtain ⟨ha, rfl⟩ := Transient.popMin_eq_some hpopA
  obtain ⟨hb, rfl⟩ := Transient.popMin_eq_some hpopB
  by_cases hfree : t.nextFree < 511
  · exact ⟨a, b, ha, hb, hfree, (Option.some.inj ((if_pos hfree).symm.trans h)).symm⟩
  · exact absurd ((if_neg hfree).symm.trans h) nofun

/-- What every leaf and every pass of R113 keeps, BUILD keeps up to the root (R114). -/
theorem buildTree_induction {P : Transient → Prop} {t u : Transient} (h : buildTree t = some u)
    (hleaves : P (createLeaves t.entries 0 t))
    (hmerge : ∀ v w, P v → mergeOnce v = some w → P w) :
    (t.alphabetSize = 0 ∧ u = { t with treeValid := false }) ∨
      ∃ v r, P v ∧ v.inqAt r = true ∧ u = { v with root := r, treeValid := true } := by
  have hloop : ∀ fuel v w, P v → mergeLoop fuel v = some w → P w := by
    intro fuel
    induction fuel with
    | zero => rintro v w hv hw; cases hw; exact hv
    | succ fuel ih =>
      intro v w hv hw
      rw [mergeLoop] at hw
      split at hw
      · cases hw; exact hv
      · obtain ⟨x, hx, hw⟩ := Option.bind_eq_some_iff.1 hw
        exact ih x w (hmerge v x hv hx) hw
  rw [buildTree] at h
  split at h
  · next h0 => cases h; exact .inl ⟨h0, rfl⟩
  · obtain ⟨v, hv, h⟩ := Option.bind_eq_some_iff.1 h
    refine .inr ⟨v, ?_⟩
    split at h
    · cases h
    · next r rest hq =>
      cases h
      exact ⟨r, hloop _ _ _ hleaves hv, Transient.mem_queue.1 (hq ▸ List.mem_cons_self ..), rfl⟩

theorem createLeaves_onlyArena (es : List (Byte × BitVec 32)) (k : Nat) (t : Transient) :
    t.onlyArena (createLeaves es k t) := by
  induction es generalizing k t with
  | nil => rfl
  | cons e es ih =>
    exact Transient.onlyArena.trans (u := (t.setNode k _).setInq k true) rfl (ih _ _)

theorem Transient.onlyArena_pushParent (t : Transient) (a b : Nat) :
    t.onlyArena (t.pushParent a b) := rfl

theorem buildTree_onlyArena {t u : Transient} (h : buildTree t = some u) : t.onlyArena u := by
  have hmerge : ∀ v w, t.onlyArena v → mergeOnce v = some w → t.onlyArena w := by
    intro v w hv hw
    obtain ⟨a, b, -, -, -, rfl⟩ := mergeOnce_eq_some hw
    have hpop : v.onlyArena ((v.setInq a false).setInq b false) := rfl
    exact (hv.trans hpop).trans (Transient.onlyArena_pushParent _ a b)
  rcases buildTree_induction h (createLeaves_onlyArena _ 0 t) hmerge with
    ⟨-, rfl⟩ | ⟨v, r, hv, -, rfl⟩
  · rfl
  · exact hv.trans rfl

/-- Every code has at most 255 bits (R26). -/
def Transient.codesFit (t : Transient) : Prop := ∀ b, (t.codeAt b).bits.length ≤ 255

theorem Transient.codesFit.setCode {t : Transient} (h : t.codesFit) (c : Byte) {p : List Bool}
    (hp : p.length ≤ 255) : (t.setCode c p).codesFit := fun b => by
  rw [Transient.codeAt_setCode]
  split
  · exact hp
  · exact h b

/-- GENCODE's walk writes nothing but CODE, and its fuel bounds the codes (R121, R124). -/
theorem assignCodes_eq_some {fuel i : Nat} {p : List Bool} {t u : Transient}
    (h : assignCodes fuel i p t = some u) (hp : p.length + fuel ≤ 256) :
    u = { t with code := u.code } ∧ (t.codesFit → u.codesFit) := by
  induction fuel generalizing i p t u with
  | zero => cases h
  | succ fuel ih =>
    have hlen : ∀ b, (p ++ [b]).length + fuel ≤ 256 := fun b => by
      rw [List.length_append, List.length_singleton]; omega
    rw [assignCodes] at h
    split at h
    · cases h
    · next v hv =>
      split at h
      · cases h; exact ⟨rfl, fun hfit => hfit.setCode v.sym (by omega)⟩
      · obtain ⟨w, hl, hr⟩ := Option.bind_eq_some_iff.1 h
        obtain ⟨hw, hfitw⟩ := ih hl (hlen false)
        obtain ⟨hu, hfitu⟩ := ih hr (hlen true)
        exact ⟨by rw [hu, hw], fun hfit => hfitu (hfitw hfit)⟩

theorem generateCodes_eq_some {t u : Transient} (h : generateCodes t = some u) :
    u = { t with code := u.code } ∧ (t.codesFit → u.codesFit) := by
  rw [generateCodes] at h
  split at h
  · split at h
    · cases h
    · next v hv =>
      split at h
      · cases h; exact ⟨rfl, fun hfit => hfit.setCode v.sym (by decide)⟩
      · exact assignCodes_eq_some h (by decide)
  · cases h; exact ⟨rfl, id⟩

/-! ### The single writes -/

/-- One write of a phase to its registers or to DST, with what the phase knows at that moment. -/
inductive PhaseWrite : Phase → State → State → Prop
  | countRptr {s : State} {n : Nat} (h : n ≤ s.srcLen) :
      PhaseWrite .count s (s.withTr fun t => { t with rptr := n })
  | countFreq {s : State} (c : Byte) (v : BitVec 32) :
      PhaseWrite .count s (s.withTr fun t => t.setFreq c v)
  | countNsym {s : State} :
      PhaseWrite .count s (s.withTr fun t => { t with nsym := t.alphabetSize })
  | build {s : State} {u : Transient} (h : buildTree s.tr = some u) :
      PhaseWrite .build s { s with tr := u }
  | gencode {s : State} {u : Transient} (h : generateCodes s.tr = some u) :
      PhaseWrite .gencode s { s with tr := u }
  | frameTotal {s : State} :
      PhaseWrite .frame s (s.withTr fun t => { t with totalBits := t.codeBits })
  | frameWptr {s : State} {n : Nat} (h : n ≤ s.cfg.dstCap) :
      PhaseWrite .frame s (s.withTr fun t => { t with wptr := n })
  | frameDst {s : State} {a : Nat} (h : a < s.cfg.dstCap) (b : Byte) :
      PhaseWrite .frame s { s with dst := s.dst.store a b }
  | encodeRptr {s : State} {n : Nat} (h : n ≤ s.srcLen) :
      PhaseWrite .encode s (s.withTr fun t => { t with rptr := n })
  | encodeAcc {s : State} (a : BitVec 8) {n : Nat} (h : n ≤ 8) :
      PhaseWrite .encode s (s.withTr fun t => { t with acc := a, accN := n })
  | encodeEmit {s : State} (h : s.tr.wptr < s.cfg.dstCap) (b : Byte) :
      PhaseWrite .encode s
        { s with dst := s.dst.store s.tr.wptr b, tr := { s.tr with wptr := s.tr.wptr + 1 } }
  | parseHeader {s : State} (c : BitVec 64) (n : BitVec 16) :
      PhaseWrite .parse s (s.withTr fun t => { t with origCount := c, tableN := n })
  | parseFreq {s : State} (c : Byte) (v : BitVec 32) :
      PhaseWrite .parse s (s.withTr fun t => t.setFreq c v)
  | parsePayload {s : State} (h : s.tr.tableN.toNat ≤ 256) : PhaseWrite .parse s (setPayload s)
  | decodeInit {s : State} : PhaseWrite .decode s (decodeInit s)
  | decodeBit {s : State} (h : s.tr.bitpos < s.tr.limit) :
      PhaseWrite .decode s (s.withTr fun t => { t with bitpos := t.bitpos + 1 })
  | decodeChild {s : State} {b : Bool} {c : Nat} (h : s.tr.childOf b = some c) :
      PhaseWrite .decode s (s.withTr fun t => { t with cur := c })
  | decodeRoot {s : State} : PhaseWrite .decode s (s.withTr fun t => { t with cur := t.root })
  | decodeEmit {s : State} (h : s.tr.wptr < s.cfg.dstCap)
      (hmore : s.tr.emitted < s.tr.origCount.toNat) (b : Byte) :
      PhaseWrite .decode s { s with
        dst := s.dst.store s.tr.wptr b
        tr := { s.tr with wptr := s.tr.wptr + 1, emitted := s.tr.emitted + 1 } }

/-- t comes from s by writes of phase p. -/
def State.wrote (p : Phase) (s t : State) : Prop := Relation.ReflTransGen (PhaseWrite p) s t

theorem State.wrote.tail {p : Phase} {s t u : State} (h : s.wrote p t) (hw : PhaseWrite p t u) :
    s.wrote p u := Relation.ReflTransGen.tail h hw

/-- What every single write keeps, all writes of a phase keep. -/
theorem State.wrote.keeps {p : Phase} {s t : State} (h : s.wrote p t) {P : State → Prop}
    (hP : ∀ {u v}, PhaseWrite p u v → P u → P v) (hs : P s) : P t := by
  induction h with
  | refl => exact hs
  | tail _ hw ih => exact hP hw ih

/-! ### Runs that do only the writes of a phase -/

/-- However a piece of phase p ends, only writes of p have been done since s, and an error is one that
HUFFCORE raises; where the piece goes on, the state meets P. -/
def Run.writes (p : Phase) (s : State) (P : State → Prop) : Run → Prop
  | .ok t => s.wrote p t ∧ P t
  | .raised k t => s.wrote p t ∧ k.raisable
  | .stuck _ => True

theorem Run.writes.mono {p : Phase} {s : State} {P Q : State → Prop} {r : Run}
    (h : r.writes p s P) (hPQ : ∀ t, P t → Q t) : r.writes p s Q := by
  cases r with
  | ok t => exact h.imp_right (hPQ t)
  | raised k t => exact h
  | stuck e => trivial

theorem Run.writes.andThen {p : Phase} {s : State} {P Q : State → Prop} {r : Run}
    {f : State → Run} (h : r.writes p s P)
    (hf : ∀ t, s.wrote p t → P t → (f t).writes p s Q) : (r.andThen f).writes p s Q := by
  cases r with
  | ok t => exact hf t h.1 h.2
  | raised k t => exact h
  | stuck e => trivial

theorem Run.writes.head {p : Phase} {s t : State} {P : State → Prop} {r : Run}
    (h : r.writes p t P) (hw : PhaseWrite p s t) : r.writes p s P := by
  cases r with
  | ok u => exact ⟨Relation.ReflTransGen.head hw h.1, h.2⟩
  | raised k u => exact ⟨Relation.ReflTransGen.head hw h.1, h.2⟩
  | stuck e => trivial

theorem Run.writes_ite {p : Phase} {s : State} {P : State → Prop} {c : Prop} [Decidable c]
    {r r' : Run} (h : c → r.writes p s P) (h' : ¬ c → r'.writes p s P) :
    (if c then r else r').writes p s P := by
  split
  · next hc => exact h hc
  · next hc => exact h' hc

theorem State.withSrc_writes {p : Phase} {s t : State} {P : State → Prop} {a : Nat}
    {f : Byte → Run} (h : ∀ b, (f b).writes p s P) : (t.withSrc a f).writes p s P := by
  unfold State.withSrc
  split
  · exact h _
  · trivial

theorem State.withSrcLe_writes {p : Phase} {s t : State} {P : State → Prop} {a k : Nat}
    {f : Nat → Run} (h : ∀ v, (f v).writes p s P) : (t.withSrcLe a k f).writes p s P := by
  unfold State.withSrcLe
  split
  · exact h _
  · trivial

section
variable {s₀ s : State}

/-! ### COUNT -/

theorem increment_writes (h : s₀.wrote .count s) (c : Byte) :
    (s.increment c).writes .count s₀ fun t => t.tr.rptr = s.tr.rptr ∧ t.srcLen = s.srcLen :=
  Run.writes_ite (fun _ => ⟨h, by decide⟩) fun _ => ⟨h.tail (.countFreq ..), rfl, rfl⟩

theorem countLoop_writes {n : Nat} (h : s₀.wrote .count s) (hn : s.tr.rptr + n ≤ s.srcLen) :
    (countLoop n s).writes .count s₀ fun _ => True := by
  induction n generalizing s with
  | zero => exact ⟨h, trivial⟩
  | succ n ih =>
    refine State.withSrc_writes fun c => (increment_writes h c).andThen ?_
    rintro t ht ⟨hrptr, hlen⟩
    refine ih (ht.tail (.countRptr (by omega))) ?_
    change t.tr.rptr + 1 + n ≤ t.srcLen
    omega

theorem countBody_writes (s : State) : (countBody s).writes .count s fun _ => True := by
  have hinit : s.wrote .count (s.withTr fun t => { t with rptr := 0 }) :=
    .single (.countRptr (Nat.zero_le _))
  exact (countLoop_writes hinit (Nat.zero_add _).le).andThen fun t ht _ =>
    ⟨ht.tail .countNsym, trivial⟩

/-! ### BUILD and GENCODE -/

theorem noTreeError_raisable (v : Word) : (noTreeError v).raisable := by
  unfold noTreeError; split <;> decide

theorem buildBody_writes (s : State) : (buildBody s).writes .build s fun _ => True := by
  unfold buildBody
  split
  · trivial
  · next u hu =>
    have hw : s.wrote .build { s with tr := u } := .single (.build hu)
    exact Run.writes_ite (fun _ => ⟨hw, trivial⟩) fun _ => ⟨hw, noTreeError_raisable _⟩

theorem gencodeBody_writes (s : State) : (gencodeBody s).writes .gencode s fun _ => True := by
  unfold gencodeBody
  split
  · trivial
  · next u hu => exact ⟨.single (.gencode hu), trivial⟩

/-! ### FRAME -/

theorem writeDst_writes (h : s₀.wrote .frame s) (a : Nat) (b : Byte) :
    (s.writeDst a b).writes .frame s₀ fun t =>
      t.cfg = s.cfg ∧ t.tr = s.tr ∧ a < s.cfg.dstCap := by
  unfold State.writeDst
  split
  · next ha => exact ⟨h.tail (.frameDst ha b), rfl, rfl, ha⟩
  · trivial

/-- A byte string that has been written ends below DST_CAP (R55). -/
theorem writeDstBytes_writes {bs : List Byte} {a : Nat} (h : s₀.wrote .frame s) :
    (s.writeDstBytes a bs).writes .frame s₀ fun t =>
      t.cfg = s.cfg ∧ t.tr = s.tr ∧ (bs = [] ∨ a + bs.length ≤ s.cfg.dstCap) := by
  induction bs generalizing a s with
  | nil => exact ⟨h, rfl, rfl, .inl rfl⟩
  | cons b bs ih =>
    refine (writeDst_writes h a b).andThen ?_
    rintro t ht ⟨hcfg, htr, ha⟩
    refine (ih (a := a + 1) ht).mono ?_
    rintro u ⟨hcfg', htr', hlen⟩
    refine ⟨hcfg'.trans hcfg, htr'.trans htr, .inr ?_⟩
    rw [hcfg] at hlen
    rcases hlen with rfl | hlen
    · simpa using ha
    · simpa [Nat.add_assoc, Nat.add_comm 1] using hlen

theorem writeHeader_writes (h : s₀.wrote .frame s) :
    (writeHeader s).writes .frame s₀ fun _ => True := by
  refine (writeDstBytes_writes h).andThen ?_
  rintro t ht ⟨-, -, -⟩
  refine (writeDstBytes_writes ht).andThen ?_
  rintro u hu ⟨hcfg, -, hlen⟩
  refine ⟨hu.tail (.frameWptr ?_), trivial⟩
  rw [hcfg]
  simpa [leBytes] using hlen

theorem writeEntry_writes (h : s₀.wrote .frame s) (e : Byte × BitVec 32) :
    (writeEntry s e).writes .frame s₀ fun _ => True := by
  refine (writeDst_writes h _ _).andThen ?_
  rintro t ht ⟨-, -, -⟩
  refine (writeDstBytes_writes ht).andThen ?_
  rintro u hu ⟨hcfg, htr, hlen⟩
  refine ⟨hu.tail (.frameWptr ?_), trivial⟩
  rw [hcfg, htr]
  simpa [leBytes, Nat.add_assoc] using hlen

theorem writeTable_writes {es : List (Byte × BitVec 32)} (h : s₀.wrote .frame s) :
    (writeTable es s).writes .frame s₀ fun _ => True := by
  induction es generalizing s with
  | nil => exact ⟨h, trivial⟩
  | cons e es ih => exact (writeEntry_writes h e).andThen fun t ht _ => ih ht

theorem frameBody_writes (s : State) : (frameBody s).writes .frame s fun _ => True := by
  have htotal : s.wrote .frame (s.withTr fun t => { t with totalBits := t.codeBits }) :=
    .single .frameTotal
  refine Run.writes_ite (fun _ => ⟨htotal, by decide⟩) fun _ => ?_
  exact (writeHeader_writes (htotal.tail (.frameWptr (Nat.zero_le _)))).andThen fun t ht _ =>
    writeTable_writes ht

/-! ### ENCODE -/

/-- What the packer keeps while it takes bits (R137): room for one more, and the read cursor. -/
def State.packed (s t : State) : Prop :=
  t.tr.accN < 8 ∧ t.tr.rptr = s.tr.rptr ∧ t.srcLen = s.srcLen

theorem emitByte_writes (h : s₀.wrote .encode s) (b : Byte) :
    (s.emitByte b).writes .encode s₀ fun t =>
      t = { s with dst := s.dst.store s.tr.wptr b, tr := { s.tr with wptr := s.tr.wptr + 1 } } := by
  by_cases hroom : s.tr.wptr < s.cfg.dstCap
  · rw [State.emitByte_of_lt hroom]
    exact ⟨h.tail (.encodeEmit hroom b), rfl⟩
  · rw [State.emitByte, State.writeDst, if_neg hroom]
    trivial

theorem pushBit_writes (h : s₀.wrote .encode s) (hacc : s.tr.accN < 8) (b : Bool) :
    (pushBit s b).writes .encode s₀ s.packed := by
  have hshift := h.tail (.encodeAcc (shiftIn s.tr.acc b) (n := s.tr.accN + 1) hacc)
  refine Run.writes_ite (fun _ => (emitByte_writes hshift _).andThen ?_) fun hroom => ?_
  · rintro _ ht rfl
    exact ⟨ht.tail (.encodeAcc 0 (Nat.zero_le 8)), Nat.zero_lt_succ 7, rfl, rfl⟩
  · exact ⟨hshift, Nat.lt_of_le_of_ne hacc hroom, rfl, rfl⟩

theorem pushBits_writes {bs : List Bool} (h : s₀.wrote .encode s) (hacc : s.tr.accN < 8) :
    (pushBits bs s).writes .encode s₀ s.packed := by
  suffices ∀ t, s₀.wrote .encode t → s.packed t → (pushBits bs t).writes .encode s₀ s.packed from
    this s h ⟨hacc, rfl, rfl⟩
  induction bs with
  | nil => exact fun t ht hpack => ⟨ht, hpack⟩
  | cons b bs ih =>
    rintro t ht ⟨hacc, hrptr, hlen⟩
    refine (pushBit_writes ht hacc b).andThen ?_
    rintro u hu ⟨hacc', hrptr', hlen'⟩
    exact ih u hu ⟨hacc', hrptr'.trans hrptr, hlen'.trans hlen⟩

theorem encodeLoop_writes {n : Nat} (h : s₀.wrote .encode s) (hacc : s.tr.accN < 8)
    (hn : s.tr.rptr + n ≤ s.srcLen) :
    (encodeLoop n s).writes .encode s₀ fun _ => True := by
  induction n generalizing s with
  | zero => exact ⟨h, trivial⟩
  | succ n ih =>
    refine State.withSrc_writes fun c => (pushBits_writes h hacc).andThen ?_
    rintro t ht ⟨hacc', hrptr, hlen⟩
    refine ih (ht.tail (.encodeRptr (by omega))) hacc' ?_
    change t.tr.rptr + 1 + n ≤ t.srcLen
    omega

theorem encodeBody_writes (s : State) : (encodeBody s).writes .encode s fun _ => True := by
  have hinit : s.wrote .encode (s.withTr fun t => { t with rptr := 0, acc := 0, accN := 0 }) :=
    State.wrote.tail (.single (.encodeRptr (Nat.zero_le _))) (.encodeAcc 0 (Nat.zero_le 8))
  refine (encodeLoop_writes hinit (Nat.zero_lt_succ 7) (Nat.zero_add _).le).andThen fun t ht _ => ?_
  refine Run.writes_ite (fun _ => ⟨ht, trivial⟩) fun _ => (emitByte_writes ht _).andThen ?_
  exact fun u hu _ => ⟨hu.tail (.encodeAcc 0 (Nat.zero_le 8)), trivial⟩

/-! ### PARSE -/

theorem parseEntry_writes (h : s₀.wrote .parse s) (k : Nat) :
    (parseEntry s k).writes .parse s₀ fun t => t.tr.tableN = s.tr.tableN :=
  State.withSrc_writes fun _ => State.withSrcLe_writes fun _ =>
    Run.writes_ite (fun _ => ⟨h, by decide⟩) fun _ =>
      Run.writes_ite (fun _ => ⟨h, by decide⟩) fun _ => ⟨h.tail (.parseFreq ..), rfl⟩

theorem parseEntries_writes {n k : Nat} (h : s₀.wrote .parse s) :
    (parseEntries n k s).writes .parse s₀ fun t => t.tr.tableN = s.tr.tableN := by
  suffices ∀ t, s₀.wrote .parse t → t.tr.tableN = s.tr.tableN →
      (parseEntries n k t).writes .parse s₀ fun t => t.tr.tableN = s.tr.tableN from this s h rfl
  induction n generalizing k with
  | zero => exact fun t ht hn => ⟨ht, hn⟩
  | succ n ih =>
    exact fun t ht hn => (parseEntry_writes ht k).andThen fun u hu hn' => ih u hu (hn'.trans hn)

theorem parseBody_writes (s : State) : (parseBody s).writes .parse s fun _ => True := by
  refine Run.writes_ite (fun _ => ⟨.refl, by decide⟩) fun _ => ?_
  have hheader : (parseHeader s).writes .parse s fun _ => True :=
    State.withSrcLe_writes fun _ => State.withSrcLe_writes fun _ =>
      ⟨.single (.parseHeader ..), trivial⟩
  refine hheader.andThen fun t ht _ => ?_
  refine Run.writes_ite (fun _ => ⟨ht, by decide⟩) fun hn => ?_
  refine Run.writes_ite (fun _ => ⟨ht, by decide⟩) fun _ => ?_
  refine (parseEntries_writes ht).andThen fun u hu htable => ?_
  have hpay := hu.tail (.parsePayload (by rw [htable]; omega))
  exact Run.writes_ite (fun _ => ⟨hpay, by decide⟩) fun _ => ⟨hpay, trivial⟩

/-! ### DECODE -/

/-- What a decoder step leaves alone (R172, R173). -/
def State.sameBits (s t : State) : Prop := t.tr.bitpos = s.tr.bitpos ∧ t.tr.limit = s.tr.limit

theorem emitSymbol_writes (h : s₀.wrote .decode s) (hmore : s.tr.emitted < s.tr.origCount.toNat)
    (c : Byte) : (emitSymbol s c).writes .decode s₀ s.sameBits := by
  by_cases hroom : s.tr.wptr < s.cfg.dstCap
  · rw [emitSymbol_of_lt hroom]
    exact ⟨h.tail (.decodeEmit hroom hmore c), rfl, rfl⟩
  · rw [emitSymbol, State.emitByte, State.writeDst, if_neg hroom]
    trivial

theorem stepBit_writes (h : s₀.wrote .decode s) (hmore : s.tr.emitted < s.tr.origCount.toNat)
    (b : Bool) : (stepBit s b).writes .decode s₀ s.sameBits := by
  refine Run.writes_ite (fun _ => ?_) fun _ => ?_
  · unfold stepLeafRoot
    split
    · trivial
    · exact emitSymbol_writes h hmore _
  · unfold stepWalk
    split
    · trivial
    · next c hc =>
      have hchild := h.tail (.decodeChild hc)
      simp only
      split
      · trivial
      · refine Run.writes_ite (fun _ => ?_) fun _ => ⟨hchild, rfl, rfl⟩
        exact (emitSymbol_writes hchild hmore _).andThen fun t ht hbits =>
          ⟨ht.tail .decodeRoot, hbits⟩

theorem decodeLoop_writes {n : Nat} (h : s₀.wrote .decode s) (hn : s.tr.bitpos + n ≤ s.tr.limit) :
    (decodeLoop n s).writes .decode s₀ fun _ => True := by
  induction n generalizing s with
  | zero => exact ⟨h, trivial⟩
  | succ n ih =>
    refine Run.writes_ite (fun hmore => ?_) fun _ => ⟨h, trivial⟩
    split
    · trivial
    · refine (stepBit_writes (h.tail (.decodeBit (by omega))) hmore _).andThen ?_
      rintro t ht ⟨hbit, hlimit⟩
      refine ih ht ?_
      rw [hbit, hlimit]
      change s.tr.bitpos + 1 + n ≤ s.tr.limit
      omega

/-- DECODE from the registers it sets first (R170). -/
theorem decodeBody_writes_init (s : State) :
    (decodeBody s).writes .decode (decodeInit s) fun _ => True :=
  (decodeLoop_writes .refl (Nat.zero_add _).le).andThen fun _ ht _ =>
    Run.writes_ite (fun _ => ⟨ht, by decide⟩) fun _ => ⟨ht, trivial⟩

theorem decodeBody_writes (s : State) : (decodeBody s).writes .decode s fun _ => True :=
  (decodeBody_writes_init s).head .decodeInit

end

/-- However a phase ends, it has done only its own writes. -/
theorem phaseBody_writes (p : Phase) (s : State) :
    (phaseBody p s).writes p s fun _ => True := by
  cases p with
  | idle => exact ⟨.refl, trivial⟩
  | count => exact countBody_writes s
  | build => exact buildBody_writes s
  | gencode => exact gencodeBody_writes s
  | frame => exact frameBody_writes s
  | encode => exact encodeBody_writes s
  | parse => exact parseBody_writes s
  | decode => exact decodeBody_writes s

theorem PhaseNext.wrote {s t : State} {p : Phase} (h : PhaseNext s p t) :
    s.wrote p { s with dst := t.dst, tr := t.tr } := by
  have hw := phaseBody_writes p s
  cases h with
  | fails hbody => rw [hbody] at hw; exact hw.1
  | goesOn hbody => rw [hbody] at hw; exact hw.1
  | ends hbody => rw [hbody] at hw; exact hw.1

/-! ### The registers a phase writes -/

/-- Of the transient state u differs from t only in what phase p writes (R20, R28). -/
def Transient.writtenOnly (p : Phase) (t u : Transient) : Prop :=
  match p with
  | .idle => u = t
  | .count => u = { t with freq := u.freq, nsym := u.nsym, rptr := u.rptr }
  | .build => t.onlyArena u
  | .gencode => u = { t with code := u.code }
  | .frame => u = { t with totalBits := u.totalBits, wptr := u.wptr }
  | .encode => u = { t with rptr := u.rptr, wptr := u.wptr, acc := u.acc, accN := u.accN }
  | .parse => u = { t with
      origCount := u.origCount, tableN := u.tableN, freq := u.freq, nsym := u.nsym
      payBase := u.payBase, payLen := u.payLen, rptr := u.rptr }
  | .decode => u = { t with
      wptr := u.wptr, bitpos := u.bitpos, cur := u.cur, emitted := u.emitted, limit := u.limit }

theorem Transient.writtenOnly.trans {p : Phase} {t u v : Transient} (h : t.writtenOnly p u)
    (h' : u.writtenOnly p v) : t.writtenOnly p v := by
  cases p with
  | build => exact Transient.onlyArena.trans h h'
  | _ => unfold Transient.writtenOnly at *; rw [h', h]

theorem PhaseWrite.writtenOnly {p : Phase} {s t : State} (h : PhaseWrite p s t) :
    s.tr.writtenOnly p t.tr := by
  cases h with
  | build h => exact buildTree_onlyArena h
  | gencode h => exact (generateCodes_eq_some h).1
  | _ => rfl

theorem PhaseNext.writtenOnly {s t : State} {p : Phase} (h : PhaseNext s p t) :
    s.tr.writtenOnly p t.tr := by
  have hrefl : s.tr.writtenOnly p s.tr := by cases p <;> rfl
  exact h.wrote.keeps (P := fun u => s.tr.writtenOnly p u.tr)
    (fun hw hu => hu.trans hw.writtenOnly) hrefl

/-- Settles O40: the frame of each phase's writes. -/
theorem phasesWriteOnlyTheirRegisters : Obligations.PhasesWriteOnlyTheirRegisters := by
  intro s t
  have hphase : ∀ p, s.runPhase p (phaseBody p) = .next t → s.tr.writtenOnly p t.tr := fun p h =>
    (State.runPhase_phaseNext h).writtenOnly
  exact ⟨hphase .count, hphase .build, hphase .gencode, hphase .frame, hphase .encode,
    hphase .parse, hphase .decode⟩

end Sys2Proof.Machine
end

section
/-! SUPPORT. The invariant of HUFFCORE: it holds at reset, and every move of the engine, the host and
the reset input keeps it (10_state.md R12, R14, R16, R17, R19, R21, R31). -/

namespace Sys2Proof.Machine

/-! ### The parts of the invariant -/

/-- The capacities are legal, and both buffers are canonical below them. -/
def State.buffersInv (s : State) : Prop :=
  s.cfg.wf ∧ s.src.wf ∧ s.dst.wf ∧ s.src.below s.cfg.srcCap ∧ s.dst.below s.cfg.dstCap

theorem State.Inv.buffers {s : State} (h : s.Inv) : s.buffersInv :=
  ⟨h.cfg_wf, h.src_wf, h.dst_wf, h.src_below, h.dst_below⟩

theorem State.inv_of_parts {s : State} (hbuf : s.buffersInv) (hflags : s.flagInv)
    (hpath : s.pathInv) (hphase : s.phaseInv) : s.Inv := by
  obtain ⟨hcfg, hsrc, hdst, hsrcBelow, hdstBelow⟩ := hbuf
  exact ⟨hcfg, hsrc, hdst, hsrcBelow, hdstBelow, hflags, hpath, hphase⟩

/-- With no phase in progress nothing is asked of the transient state. -/
theorem State.inv_of_idle {s : State} (hbuf : s.buffersInv) (hflags : s.flagInv)
    (hidle : s.phase = .idle) : s.Inv :=
  State.inv_of_parts hbuf hflags (fun hp => absurd hidle hp) (by rw [State.phaseInv, hidle]; trivial)

/-- What the host alone sees is no part of the invariant. -/
theorem State.Inv.withHost {s : State} (h : s.Inv) (script : List ScriptItem)
    (seen : List Observation) (draws : Nat) (sched : List Turn) :
    ({ s with script := script, seen := seen, draws := draws, sched := sched } : State).Inv :=
  State.inv_of_parts h.buffers h.flags h.path h.phase

/-! ### The flags -/

/-- Without a result only the flags themselves matter (R12, R21). -/
theorem State.flagInv_of_noResult {s : State} (h0 : s.dstLen = 0)
    (hdone : (s.busy = true → s.done = false) ∧ (s.fail = true → s.done = true))
    (herr : (s.err.isSome = true ↔ s.fail = true) ∧
      s.err ≠ some .unreadableFile ∧ s.err ≠ some .unwritableOutput)
    (hidle : s.busy = false → s.phase = .idle) (hlatch : s.busy = true → s.cmdLatch ≠ 0) :
    s.flagInv :=
  ⟨hdone.1, hdone.2, herr.1, herr.2, hidle, hlatch, fun _ => h0, fun _ => h0, h0 ▸ Nat.zero_le _,
    fun i hi => absurd (h0 ▸ hi) (Nat.not_lt_zero i)⟩

theorem State.flagInv_raise (s : State) {k : ErrorKind} (hk : k.raisable) : (s.raise k).flagInv :=
  State.flagInv_of_noResult (s.raise_dstLen k) ⟨nofun, fun _ => rfl⟩
    ⟨by simp, fun h => hk.1 (Option.some.inj h), fun h => hk.2 (Option.some.inj h)⟩
    (fun _ => rfl) nofun

theorem State.flagInv_cleared (s : State) : s.cleared.flagInv :=
  State.flagInv_of_noResult s.cleared_dstLen ⟨nofun, nofun⟩ ⟨by simp [State.cleared], nofun, nofun⟩
    (fun _ => rfl) nofun

theorem State.flagInv_accept (s : State) {v : Word} (hv : v ≠ 0) : (s.accept v).flagInv :=
  State.flagInv_of_noResult (s.accept_dstLen v) ⟨fun _ => rfl, nofun⟩ ⟨by simp, nofun, nofun⟩
    nofun fun _ => hv

/-- A move inside a running command leaves the flags as they are, and there is no result yet. -/
theorem State.flagInv_running {s : State} (h : s.flagInv) (hb : s.busy = true) (m : Memory)
    (u : Transient) (q : Phase) :
    ({ s with dst := m, tr := u, phase := q } : State).flagInv := by
  obtain ⟨hdone, hfail, herr, hkind, -, hlatch, hres, -⟩ := h
  exact State.flagInv_of_noResult (hres (hdone hb)) ⟨hdone, hfail⟩ ⟨herr, hkind⟩
    (fun hidle => absurd (hb.symm.trans hidle) nofun) hlatch

/-- The bytes below WPTR have been written and fit DST. -/
def State.outputWritten (s : State) : Prop := s.tr.wptr ≤ s.cfg.dstCap ∧ s.dstWritten s.tr.wptr

theorem State.flagInv_succeed {s : State} (hcfg : s.cfg.wf) (h : s.outputWritten) :
    (s.succeed s.tr.wptr).flagInv := by
  obtain ⟨hfits, hwritten⟩ := h
  have hlen : (s.succeed s.tr.wptr).dstLen = s.tr.wptr :=
    s.dstLen_succeed _ (lt_of_le_of_lt hfits hcfg.2.2)
  refine ⟨nofun, nofun, by simp, by simp, fun _ => rfl, nofun, nofun, nofun, ?_, ?_⟩
  · rw [hlen]; exact hfits
  · rw [hlen]; exact hwritten

/-! ### At reset -/

theorem Config.platform_wf : Config.platform.wf := by
  have hsrc := Config.srcCapLessOne.isLt
  have hdst := Config.dstCapLessOne.isLt
  simp only [Config.wf, Config.platform]
  omega

theorem State.reset_dstLen : State.reset.dstLen = 0 := rfl

/-- Reset establishes the invariant for every pair of legal capacities (R30, R210). -/
theorem State.inv_reset {c : Config} (h : c.wf) (e : Nat) :
    ({ State.reset with cfg := c, epoch := e } : State).Inv :=
  State.inv_of_idle ⟨h, .nil, .nil, nofun, nofun⟩
    (State.flagInv_of_noResult State.reset_dstLen ⟨nofun, nofun⟩ ⟨⟨nofun, nofun⟩, nofun, nofun⟩
      (fun _ => rfl) nofun) rfl

theorem State.Inv.resetEvent {s : State} (h : s.Inv) : s.resetEvent.Inv :=
  (State.inv_reset h.cfg_wf (s.epoch + 1)).withHost s.script s.seen s.draws s.sched

/-! ### The engine -/

theorem PhaseWrite.buffersInv {p : Phase} {s t : State} (h : PhaseWrite p s t)
    (hs : s.buffersInv) : t.buffersInv := by
  obtain ⟨hcfg, hsrc, hdst, hsrcBelow, hdstBelow⟩ := hs
  cases h with
  | frameDst ha b =>
    exact ⟨hcfg, hsrc, Memory.store_wf hdst, hsrcBelow, Memory.store_below hdstBelow ha⟩
  | encodeEmit ha b =>
    exact ⟨hcfg, hsrc, Memory.store_wf hdst, hsrcBelow, Memory.store_below hdstBelow ha⟩
  | decodeEmit ha hmore b =>
    exact ⟨hcfg, hsrc, Memory.store_wf hdst, hsrcBelow, Memory.store_below hdstBelow ha⟩
  | _ => exact ⟨hcfg, hsrc, hdst, hsrcBelow, hdstBelow⟩

/-- ENCODE and DECODE write DST without a gap, at WPTR (R55, R56). -/
theorem PhaseWrite.outputWritten {p : Phase} {s t : State} (hp : p = .encode ∨ p = .decode)
    (h : PhaseWrite p s t) (hs : s.outputWritten) : t.outputWritten := by
  cases h with
  | encodeEmit hroom b => exact ⟨hroom, State.dstWritten_storeAll hs.2 [b]⟩
  | decodeEmit hroom hmore b => exact ⟨hroom, State.dstWritten_storeAll hs.2 [b]⟩
  | decodeInit => exact ⟨Nat.zero_le _, fun i hi => absurd hi (Nat.not_lt_zero i)⟩
  | encodeRptr | encodeAcc | decodeBit | decodeChild | decodeRoot => exact hs
  | _ => simp at hp

/-- A last phase that goes well has written its whole result (R96). -/
theorem State.InPhase.outputWritten {s t : State} (h : s.InPhase)
    (hlast : s.phase = .encode ∨ s.phase = .decode) (hbody : phaseBody s.phase s = .ok t) :
    t.outputWritten := by
  have hinv := h.phase
  rcases hlast with hp | hp <;> rw [hp] at hbody <;> rw [State.phaseInv, hp] at hinv
  · have hw := encodeBody_writes s
    rw [show encodeBody s = _ from hbody] at hw
    exact hw.1.keeps (PhaseWrite.outputWritten (.inl rfl)) ⟨le_of_add_le_left hinv.1, hinv.2⟩
  · have hw := decodeBody_writes_init s
    rw [show decodeBody s = _ from hbody] at hw
    exact hw.1.keeps (PhaseWrite.outputWritten (.inr rfl))
      ⟨Nat.zero_le _, fun i hi => absurd hi (Nat.not_lt_zero i)⟩

/-- Dispatch keeps the invariant (R92 to R99). -/
theorem State.Inv.dispatch {s t : State} (h : s.Inv) (hb : s.busy = true) (hp : s.phase = .idle)
    (hnext : DispatchNext s t) : t.Inv := by
  cases hnext with
  | fails hk => exact State.inv_of_idle h.buffers (State.flagInv_raise _ hk) rfl
  | clear => exact State.inv_of_idle h.buffers (State.flagInv_cleared s) rfl
  | starts hlatch hlen hne =>
    have hstart := firstPhase_inPhase ⟨hb, hp, rfl⟩ hlatch hlen hne
    exact State.inv_of_parts h.buffers (State.flagInv_running h.flags hb s.dst _ _)
      hstart.path hstart.phase

/-- A phase keeps the invariant, however it ends (R95 to R97, R196). -/
theorem State.Inv.phaseNext {s t : State} (h : s.Inv) (hb : s.busy = true) (hp : s.phase ≠ .idle)
    (hstep : engineStep s = .next t) : t.Inv := by
  have hin : s.InPhase := ⟨hb, hp, h.path, h.phase⟩
  have hnext := engineStep_phaseNext hb hp hstep
  have hbuf := hnext.wrote.keeps PhaseWrite.buffersInv h.buffers
  have hbody' := phaseBody_writes s.phase s
  cases hnext with
  | fails hbody =>
    rw [hbody] at hbody'
    exact State.inv_of_idle hbuf (State.flagInv_raise _ hbody'.2) rfl
  | goesOn hbody hafter =>
    obtain ⟨t, ht, hgoes⟩ := hin.engineStep
    cases hstep.symm.trans ht
    have hrun := (hgoes.resolve_left (by rw [hb]; nofun)).1
    exact State.inv_of_parts hbuf (State.flagInv_running h.flags hb _ _ _) hrun.path hrun.phase
  | ends hbody hafter =>
    have hout := hin.outputWritten (phaseAfter_phasePath_last hafter) hbody
    exact State.inv_of_idle hbuf (State.flagInv_succeed h.cfg_wf hout) rfl

theorem State.Inv.engineStep {s t : State} (h : s.Inv) (hstep : Machine.engineStep s = .next t) :
    t.Inv := by
  by_cases hb : s.busy = true
  · by_cases hp : s.phase = .idle
    · exact h.dispatch hb hp (engineStep_dispatchNext hb hp hstep)
    · exact h.phaseNext hb hp hstep
  · rw [engineStep_idle (Bool.eq_false_iff.2 hb)] at hstep
    cases hstep
    exact h

/-! ### The host -/

/-- Everything a move of the host can do: besides its own record it writes, only while BUSY = 0, one
half of SRC_LEN or one byte of SRC, or has a command accepted (20_memory.md R41 to R45, R90). -/
inductive HostNext (s : State) : State → Prop
  | record (script : List ScriptItem) (seen : List Observation) (draws : Nat) :
      HostNext s { s with script := script, seen := seen, draws := draws }
  | srcLenLo (hb : s.busy = false) (script : List ScriptItem) (v : Word) :
      HostNext s { s with script := script, srcLenLo := v }
  | srcLenHi (hb : s.busy = false) (script : List ScriptItem) (v : Word) :
      HostNext s { s with script := script, srcLenHi := v }
  | src (hb : s.busy = false) (script : List ScriptItem) {a : Nat} (ha : a < s.cfg.srcCap)
      (b : Byte) : HostNext s { s with script := script, src := s.src.store a b }
  | accept (hb : s.busy = false) (script : List ScriptItem) {v : Word} (hv : v ≠ 0) :
      HostNext s (({ s with script := script } : State).accept v)

theorem hostWriteCmd_eq {v : Word} {s t : State} (h : hostWriteCmd v s = .next t) :
    t = s ∨ v ≠ 0 ∧ t = s.accept v := by
  unfold hostWriteCmd at h
  split at h
  · cases h; exact .inl rfl
  · next hnop =>
    cases h
    refine .inr ⟨?_, rfl⟩
    rintro rfl
    exact hnop (by decide)

theorem hostWriteCsr_hostNext {n : Nat} {v : Word} {s t : State} {script : List ScriptItem}
    (h : hostWriteCsr n v { s with script := script } = .next t) : HostNext s t := by
  unfold hostWriteCsr at h
  split at h
  · cases h; exact .record script s.seen s.draws
  · next hb =>
    have hidle : s.busy = false := Bool.eq_false_iff.2 hb
    split at h
    · rcases hostWriteCmd_eq h with rfl | ⟨hv, rfl⟩
      · exact .record script s.seen s.draws
      · exact .accept hidle script hv
    · cases h; exact .srcLenLo hidle script v
    · cases h; exact .srcLenHi hidle script v
    · cases h; exact .record script s.seen s.draws

theorem hostOp_hostNext {o : HostOp} {s t : State} {script : List ScriptItem}
    (h : hostOp o { s with script := script } = .next t) : HostNext s t := by
  cases o with
  | writeCsr n v => exact hostWriteCsr_hostNext h
  | readCsr n => cases h; exact .record script _ s.draws
  | writeSrc a b =>
    simp only [hostOp, hostWriteSrc] at h
    split at h
    · next ha =>
      split at h
      · cases h; exact .record script s.seen s.draws
      · next hb => cases h; exact .src (Bool.eq_false_iff.2 hb) script ha b
    · cases h
  | readSrc a =>
    simp only [hostOp, hostReadSrc] at h
    split at h
    · cases h; exact .record script _ s.draws
    · cases h
  | readDst a =>
    simp only [hostOp, hostReadDst] at h
    split at h
    · split at h
      · cases h; exact .record script _ s.draws
      · cases h; exact .record script _ _
    · cases h

theorem hostStep_hostNext {s t : State} (h : hostStep s = .next t) : HostNext s t := by
  unfold hostStep at h
  split at h
  · cases h; exact .record s.script s.seen s.draws
  · exact hostOp_hostNext h
  · next rest _ =>
    unfold hostReadCsr at h
    split at h
    · cases h; exact .record s.script _ s.draws
    · cases h; exact .record rest _ s.draws
  · cases h; exact .record _ s.seen s.draws
  · cases h; exact .record _ s.seen s.draws

theorem State.Inv.hostStep {s t : State} (h : s.Inv) (hstep : Machine.hostStep s = .next t) :
    t.Inv := by
  obtain ⟨-, -, -, -, hidle, -⟩ := h.flags
  cases hostStep_hostNext hstep with
  | record script seen draws => exact h.withHost script seen draws s.sched
  | srcLenLo hb => exact State.inv_of_idle h.buffers h.flags (hidle hb)
  | srcLenHi hb => exact State.inv_of_idle h.buffers h.flags (hidle hb)
  | src hb script ha b =>
    exact State.inv_of_idle
      ⟨h.cfg_wf, Memory.store_wf h.src_wf, h.dst_wf, Memory.store_below h.src_below ha, h.dst_below⟩
      h.flags (hidle hb)
  | accept hb script hv => exact State.inv_of_idle h.buffers (State.flagInv_accept _ hv) rfl

/-- Settles O48: the turn that is due is the engine's, the host's or the reset's, and each keeps the
invariant. -/
theorem everyStepKeepsTheInvariant : Obligations.EveryStepKeepsTheInvariant := by
  intro s t h hstep
  obtain ⟨s', hs', hturn⟩ := step_cases s
  have h' : s'.Inv := by
    rcases hs' with rfl | ⟨rest, rfl⟩
    · exact h
    · exact h.withHost s.script s.seen s.draws rest
  rcases hturn with hturn | hturn | hturn <;> rw [hturn] at hstep
  · exact h'.engineStep hstep
  · exact h'.hostStep hstep
  · cases hstep; exact h'.resetEvent

end Sys2Proof.Machine
end

section
/-! SUPPORT. The widths of the hidden registers: no write of a phase outgrows them, and the weights that
BUILD sums up never exceed the sum of the table's frequencies (10_state.md R20, R24, R27, R28,
41_tree_builder.md R117). -/

namespace Sys2Proof.Machine

/-! ### Sums over the frequency table -/

/-- A sum over at most 256 table entries of terms of at most m. -/
theorem Transient.sum_entries_le (t : Transient) (g : Byte × BitVec 32 → Nat) {m : Nat}
    (h : ∀ e, g e ≤ m) : (t.entries.map g).sum ≤ 256 * m := by
  refine (List.sum_le_card_nsmul _ m fun x hx => ?_).trans ?_
  · obtain ⟨e, -, rfl⟩ := List.mem_map.1 hx
    exact h e
  · rw [List.length_map, smul_eq_mul]
    exact Nat.mul_le_mul_right m t.alphabetSize_le

/-- The frequencies together fit the 40 bits of a weight (R24, R117). -/
theorem Transient.sum_freq_lt (t : Transient) : (t.entries.map fun e => e.2.toNat).sum < 2 ^ 40 :=
  lt_of_le_of_lt (t.sum_entries_le _ (m := 2 ^ 32 - 1) fun e => Nat.le_sub_one_of_lt e.2.isLt)
    (by decide)

/-- T fits TOTAL_BITS (R28). -/
theorem Transient.codeBits_lt (t : Transient) : t.codeBits < 2 ^ 67 :=
  lt_of_le_of_lt (t.sum_entries_le _ (m := 2 ^ 32 * 2 ^ 8) fun e =>
    Nat.mul_le_mul e.2.isLt.le (t.codeAt e.1).len.isLt.le) (by decide)

/-! ### The weight of the queue -/

/-- The weights of the queued nodes, summed up. -/
def Transient.queueWeight (t : Transient) : Nat :=
  ∑ i ∈ Finset.range 511, if t.inqAt i then t.weightAt i else 0

theorem Transient.lt_of_inqAt {t : Transient} {i : Nat} (h : t.inqAt i = true) : i < 511 := by
  have hi : t.inq[i]? = some true := by simpa [Transient.inqAt] using h
  exact (Vector.getElem?_eq_some_iff.1 hi).1

theorem Transient.queueWeight_of_queueEmpty {t : Transient} (h : t.queueEmpty) :
    t.queueWeight = 0 :=
  Finset.sum_eq_zero fun i _ => by rw [h i]; rfl

/-- A popped node takes its weight along. -/
theorem Transient.queueWeight_pop {t : Transient} {i : Nat} (h : t.inqAt i = true) :
    (t.setInq i false).queueWeight + t.weightAt i = t.queueWeight := by
  have hmem : i ∈ Finset.range 511 := Finset.mem_range.2 (Transient.lt_of_inqAt h)
  have hrest : ∀ j ∈ (Finset.range 511).erase i,
      (if (t.setInq i false).inqAt j then (t.setInq i false).weightAt j else 0) =
        if t.inqAt j then t.weightAt j else 0 := fun j hj => by
    have hij : ¬ (i = j ∧ i < 511) := fun hij => Finset.ne_of_mem_erase hj hij.1.symm
    rw [Transient.inqAt_setInq, if_neg hij]
    rfl
  have hgone : (t.setInq i false).inqAt i = false := by
    rw [Transient.inqAt_setInq, if_pos ⟨rfl, Transient.lt_of_inqAt h⟩]
  unfold Transient.queueWeight
  rw [← Finset.sum_erase_add _ _ hmem, ← Finset.sum_erase_add (Finset.range 511) _ hmem,
    Finset.sum_congr rfl hrest, hgone, h]
  simp

/-- A pushed node brings at most its own weight. -/
theorem Transient.queueWeight_push_le (t : Transient) (i : Nat) (v : Node) :
    ((t.setNode i v).setInq i true).queueWeight ≤ t.queueWeight + v.weight := by
  have hterm : ∀ j ∈ Finset.range 511,
      (if ((t.setNode i v).setInq i true).inqAt j then
        ((t.setNode i v).setInq i true).weightAt j else 0) ≤
        (if t.inqAt j then t.weightAt j else 0) + if j = i then v.weight else 0 := fun j hj => by
    have hlt := Finset.mem_range.1 hj
    by_cases hij : i = j
    · subst hij
      simp [Transient.inqAt_setInq, Transient.weightAt, Transient.nodeAt_setNode, hlt]
    · simp [Transient.inqAt_setInq, Transient.weightAt, Transient.nodeAt_setNode, hij, Ne.symm hij]
  calc _ ≤ _ := Finset.sum_le_sum hterm
    _ = t.queueWeight + if i ∈ Finset.range 511 then v.weight else 0 := by
      rw [Finset.sum_add_distrib, Finset.sum_ite_eq']; rfl
    _ ≤ _ := by gcongr; split <;> simp

/-! ### BUILD -/

/-- A node that fits its fields (R24). -/
def Node.fits (v : Node) : Prop := v.weight < 2 ^ 40 ∧ v.left < 2 ^ 9 ∧ v.right < 2 ^ 9

/-- The arena while BUILD runs: every node fits its fields, and so does every weight still to be
summed up. -/
structure Transient.ArenaFits (t : Transient) : Prop where
  node : ∀ i v, t.nodeAt i = some v → v.fits
  weight : t.queueWeight < 2 ^ 40
  nextFree : t.nextFree < 2 ^ 9

theorem Transient.nodesFit_setNode {t : Transient} (h : ∀ i v, t.nodeAt i = some v → v.fits)
    (k : Nat) {w : Node} (hw : w.fits) : ∀ i v, (t.setNode k w).nodeAt i = some v → v.fits := by
  intro i v hv
  rw [Transient.nodeAt_setNode] at hv
  split at hv
  · cases hv; exact hw
  · exact h i v hv

theorem createLeaves_arenaFits {es : List (Byte × BitVec 32)} {k : Nat} {t : Transient}
    (hnode : ∀ i v, t.nodeAt i = some v → v.fits)
    (hweight : t.queueWeight + (es.map fun e => e.2.toNat).sum < 2 ^ 40)
    (hk : k + es.length < 2 ^ 9) : (createLeaves es k t).ArenaFits := by
  induction es generalizing k t with
  | nil => exact ⟨hnode, lt_of_le_of_lt (Nat.le_add_right _ _) hweight, hk⟩
  | cons e es ih =>
    rw [List.map_cons, List.sum_cons] at hweight
    rw [List.length_cons] at hk
    have hpush := t.queueWeight_push_le k ⟨e.2.toNat, true, e.1, 0, 0⟩
    refine ih (Transient.nodesFit_setNode hnode k ⟨?_, Nat.two_pow_pos 9, Nat.two_pow_pos 9⟩) ?_
      (by omega)
    · change e.2.toNat < 2 ^ 40
      omega
    · simp only at hpush
      omega

theorem Transient.arenaFits_pushParent {t : Transient} {a b : Nat}
    (hnode : ∀ i v, t.nodeAt i = some v → v.fits)
    (hweight : t.queueWeight + (t.weightAt a + t.weightAt b) < 2 ^ 40) (hfree : t.nextFree < 511)
    (ha : a < 511) (hb : b < 511) : (t.pushParent a b).ArenaFits where
  node := Transient.nodesFit_setNode hnode t.nextFree
    ⟨lt_of_le_of_lt (Nat.le_add_left _ _) hweight, ha.trans (by decide), hb.trans (by decide)⟩
  weight := lt_of_le_of_lt (t.queueWeight_push_le t.nextFree _) hweight
  nextFree := Nat.succ_lt_succ hfree

/-- The parent of two popped nodes weighs as much as they did, so the sum in the queue stays. -/
theorem Transient.ArenaFits.mergeOnce {t u : Transient} (h : t.ArenaFits)
    (hu : Machine.mergeOnce t = some u) : u.ArenaFits := by
  obtain ⟨a, b, ha, hb, hfree, rfl⟩ := mergeOnce_eq_some hu
  have hpop : ((t.setInq a false).setInq b false).queueWeight + t.weightAt b + t.weightAt a =
      t.queueWeight := by
    rw [← Transient.queueWeight_pop ha, ← Transient.queueWeight_pop hb]
    rfl
  have hweight : ((t.setInq a false).setInq b false).queueWeight +
      (t.weightAt a + t.weightAt b) < 2 ^ 40 := by
    have := h.weight
    omega
  exact Transient.arenaFits_pushParent h.node hweight hfree (Transient.lt_of_inqAt ha)
    (Transient.lt_of_inqAt hb)

theorem buildTree_widthsFit {t u : Transient} (h : buildTree t = some u) (hq : t.queueEmpty)
    (hw : t.WidthsFit) : u.WidthsFit := by
  have hleaves : (createLeaves t.entries 0 t).ArenaFits := by
    have hlen : t.entries.length ≤ 256 := t.alphabetSize_le
    refine createLeaves_arenaFits hw.node ?_ (by omega)
    rw [Transient.queueWeight_of_queueEmpty hq, Nat.zero_add]
    exact t.sum_freq_lt
  have honly := buildTree_onlyArena h
  have harena : (∀ i v, u.nodeAt i = some v → v.fits) ∧ u.nextFree < 2 ^ 9 ∧ u.root < 2 ^ 9 := by
    rcases buildTree_induction h hleaves fun v w hv => hv.mergeOnce with
      ⟨-, rfl⟩ | ⟨v, r, hv, hr, rfl⟩
    · exact ⟨hw.node, hw.nextFree, hw.root⟩
    · exact ⟨hv.node, hv.nextFree, (Transient.lt_of_inqAt hr).trans (by decide)⟩
  obtain ⟨hnode, hnext, hroot⟩ := harena
  unfold Transient.onlyArena at honly
  generalize u.node = node, u.inq = inq, u.nextFree = next, u.root = root, u.treeValid = valid at *
  subst honly
  exact { hw with node := hnode, nextFree := hnext, root := hroot }

theorem buildTree_of_buildBody {s : State} {m : Memory} {u : Transient}
    (h : buildBody s = .ok { s with dst := m, tr := u } ∨
      ∃ k, buildBody s = .raised k { s with dst := m, tr := u }) : buildTree s.tr = some u := by
  unfold buildBody at h
  split at h
  · rcases h with h | ⟨k, h⟩ <;> cases h
  · next v hv =>
    split at h
    · rcases h with h | ⟨k, h⟩ <;> cases h
      exact hv
    · rcases h with h | ⟨k, h⟩ <;> cases h
      exact hv

theorem PhaseNext.buildTree_eq {s t : State} (h : PhaseNext s .build t) :
    buildTree s.tr = some t.tr := by
  cases h with
  | fails hbody => exact buildTree_of_buildBody (.inr ⟨_, hbody⟩)
  | goesOn hbody => exact buildTree_of_buildBody (.inl hbody)
  | ends hbody => exact buildTree_of_buildBody (.inl hbody)

/-! ### The other phases -/

/-- No single write outside BUILD outgrows a width. -/
theorem PhaseWrite.widthsFit {p : Phase} {s t : State} (hp : p ≠ .build) (h : PhaseWrite p s t)
    (hs : s.cfg.wf ∧ s.tr.WidthsFit) : t.cfg.wf ∧ t.tr.WidthsFit := by
  obtain ⟨hcfg, hw⟩ := hs
  have hcap := hcfg.2.2
  refine ⟨by cases h <;> exact hcfg, ?_⟩
  cases h with
  | countRptr h => exact { hw with rptr := lt_of_le_of_lt h s.srcLen_lt }
  | countFreq => exact { hw with }
  | countNsym => exact { hw with nsym := s.tr.alphabetSize_le }
  | build => exact absurd rfl hp
  | @gencode _ u h =>
    obtain ⟨hu, hfit⟩ := generateCodes_eq_some h
    have hcode := hfit hw.code
    generalize u.code = code at hu
    subst hu
    exact { hw with code := hcode }
  | frameTotal => exact { hw with totalBits := s.tr.codeBits_lt }
  | frameWptr h => exact { hw with wptr := lt_of_le_of_lt h hcap }
  | frameDst => exact hw
  | encodeRptr h => exact { hw with rptr := lt_of_le_of_lt h s.srcLen_lt }
  | encodeAcc a h => exact { hw with accN := h }
  | encodeEmit h => exact { hw with wptr := lt_of_le_of_lt h hcap }
  | parseHeader => exact { hw with }
  | parseFreq => exact { hw with }
  | parsePayload h =>
    have hbase : 10 + 5 * s.tr.tableN.toNat < 2 ^ 64 := by omega
    exact { hw with
      nsym := h, payBase := hbase, rptr := hbase
      payLen := lt_of_le_of_lt (Nat.sub_le ..) s.srcLen_lt }
  | decodeInit =>
    have hlimit : bitLimit s.tr.payLen s.tr.origCount.toNat < 2 ^ 67 := by
      have := hw.payLen
      unfold bitLimit
      omega
    exact { hw with
      limit := hlimit, bitpos := Nat.two_pow_pos 67, emitted := Nat.two_pow_pos 64
      wptr := Nat.two_pow_pos 64, cur := hw.root }
  | decodeBit h => exact { hw with bitpos := lt_of_le_of_lt h hw.limit }
  | @decodeChild _ b c h =>
    obtain ⟨v, hv, rfl⟩ := Option.map_eq_some_iff.1 h
    obtain ⟨-, hleft, hright⟩ := hw.node _ v hv
    exact { hw with cur := by cases b <;> assumption }
  | decodeRoot => exact { hw with cur := hw.root }
  | decodeEmit h hmore =>
    exact { hw with
      wptr := lt_of_le_of_lt h hcap, emitted := lt_of_le_of_lt hmore s.tr.origCount.isLt }

/-! ### Every step -/

theorem Transient.widthsFit_zero : Transient.zero.WidthsFit := by
  constructor
  case node =>
    intro i v hv
    obtain ⟨hi, rfl⟩ := Vector.getElem?_eq_some_iff.1 hv
    simp [Transient.zero, Node.zero]
  case code => simp [Code.empty]
  all_goals decide

/-- Settles O47. -/
theorem invariantAtReset : Obligations.InvariantAtReset :=
  ⟨State.inv_reset Config.platform_wf 0, Transient.widthsFit_zero⟩

theorem DispatchNext.tr_eq {s t : State} (h : DispatchNext s t) : t.tr = Transient.zero := by
  cases h <;> rfl

theorem HostNext.tr_eq {s t : State} (h : HostNext s t) : t.tr = s.tr := by
  cases h <;> rfl

theorem State.Inv.engineStep_widthsFit {s t : State} (h : s.Inv) (hw : s.tr.WidthsFit)
    (hstep : Machine.engineStep s = .next t) : t.tr.WidthsFit := by
  by_cases hb : s.busy = true
  · by_cases hp : s.phase = .idle
    · rw [(engineStep_dispatchNext hb hp hstep).tr_eq]
      exact Transient.widthsFit_zero
    · have hnext := engineStep_phaseNext hb hp hstep
      by_cases hbuild : s.phase = .build
      · have hinv := h.phase
        rw [State.phaseInv, hbuild] at hinv
        rw [hbuild] at hnext
        exact buildTree_widthsFit hnext.buildTree_eq hinv.1 hw
      · exact (hnext.wrote.keeps (PhaseWrite.widthsFit hbuild) ⟨h.cfg_wf, hw⟩).2
  · rw [engineStep_idle (Bool.eq_false_iff.2 hb)] at hstep
    cases hstep
    exact hw

/-- Settles O49: the host writes no hidden register, reset and dispatch clear them, and each write of a
phase fits. -/
theorem everyStepKeepsTheWidths : Obligations.EveryStepKeepsTheWidths := by
  intro s t h hw hstep
  obtain ⟨s', hs', hturn⟩ := step_cases s
  have h' : s'.Inv ∧ s'.tr.WidthsFit := by
    rcases hs' with rfl | ⟨rest, rfl⟩
    · exact ⟨h, hw⟩
    · exact ⟨h.withHost s.script s.seen s.draws rest, hw⟩
  rcases hturn with hturn | hturn | hturn <;> rw [hturn] at hstep
  · exact h'.1.engineStep_widthsFit h'.2 hstep
  · rw [(hostStep_hostNext hstep).tr_eq]; exact h'.2
  · cases hstep; exact Transient.widthsFit_zero

end Sys2Proof.Machine
end

section
/-! SUPPORT. The host's five primitives, case by case (20_memory.md R41 to R45): what each answers while
BUSY = 1 and while BUSY = 0, and at which numbers and addresses. -/

namespace Sys2Proof.Machine

/-! ### The CSRs -/

theorem hostWriteCsr_busy {s : State} (hb : s.busy = true) (n : Nat) (v : Word) :
    hostWriteCsr n v s = .next s := if_pos hb

theorem hostWriteCmd_zero (s : State) : hostWriteCmd 0 s = .next s := rfl

theorem hostWriteCmd_of_ne_zero {v : Word} (hv : v ≠ 0) (s : State) :
    hostWriteCmd v s = .next (s.accept v) := by
  unfold hostWriteCmd
  split
  · next hnop => exact absurd (decodeCommand_eq_nop hnop) hv
  · rfl

/-- Settles O7, by the register number. -/
theorem hostWriteCsrRule : Obligations.HostWriteCsrRule := by
  intro n v s
  have hidle : s.busy = false → ¬ s.busy = true := fun hb => by simp [hb]
  refine ⟨fun hb => hostWriteCsr_busy hb n v, ?_, ?_, ?_, ?_, ?_⟩
  · rintro hb rfl rfl
    exact (if_neg (hidle hb)).trans (hostWriteCmd_zero s)
  · rintro hb rfl hv
    exact (if_neg (hidle hb)).trans (hostWriteCmd_of_ne_zero hv s)
  · rintro hb rfl
    exact if_neg (hidle hb)
  · rintro hb rfl
    exact if_neg (hidle hb)
  · intro hb hn
    refine (if_neg (hidle hb)).trans ?_
    split
    · omega
    · omega
    · omega
    · rfl

theorem State.csrValue_of_six_le (s : State) {n : Nat} (h : 6 ≤ n) : s.csrValue n = 0 := by
  obtain ⟨k, rfl⟩ := Nat.exists_eq_add_of_le' h
  rfl

theorem eq_zero_of_pairNat_eq_zero {hi lo : Word} (h : pairNat hi lo = 0) : lo = 0 ∧ hi = 0 := by
  have hsum : hi.toNat * 2 ^ 32 + lo.toNat = 0 := h
  have hlo : lo.toNat = 0 := by omega
  have hhi : hi.toNat = 0 := by omega
  exact ⟨BitVec.eq_of_toNat_eq hlo, BitVec.eq_of_toNat_eq hhi⟩

/-- There is no result while a command runs (R14, R21). -/
theorem State.Inv.dstLen_eq_zero_of_busy {s : State} (h : s.Inv) (hb : s.busy = true) :
    s.dstLen = 0 := by
  obtain ⟨hdone, -, -, -, -, -, hlen, -⟩ := h.flags
  exact hlen (hdone hb)

/-- Settles O8: the value is that of the register, and while BUSY = 1 the invariant makes DST_LEN 0. -/
theorem hostReadCsrRule : Obligations.HostReadCsrRule := by
  intro n s
  refine ⟨s.csrValue n, rfl, by rintro rfl; rfl, by rintro rfl; rfl, by rintro rfl; rfl,
    by rintro rfl; rfl, by rintro rfl; rfl, by rintro rfl; rfl, s.csrValue_of_six_le, ?_⟩
  intro hinv hb hn
  obtain ⟨hlo, hhi⟩ := eq_zero_of_pairNat_eq_zero (hinv.dstLen_eq_zero_of_busy hb)
  rcases hn with rfl | rfl
  · exact hlo
  · exact hhi

/-! ### The buffers -/

/-- A written byte of SRC reads as it was written last (R43, R44). -/
theorem State.srcByte_of_lookup {s : State} {a : Nat} {b : Byte} (h : s.src.lookup a = some b) :
    s.srcByte a = b := by rw [State.srcByte, h, Option.getD_some]

theorem hostReadSrc_of_lt {s : State} {a : Nat} (h : a < s.cfg.srcCap) :
    hostReadSrc a s = .next (s.observe (.src a (s.srcByte a))) := by
  rw [hostReadSrc, State.readSrc_of_lt h]

theorem hostReadSrc_of_le {s : State} {a : Nat} (h : s.cfg.srcCap ≤ a) :
    hostReadSrc a s = .refused (.noSuchSrcByte a) := by
  rw [hostReadSrc, State.readSrc, if_neg (Nat.not_lt.2 h)]

/-- Settles O9: the laws of reading after writing, behind the tests of the capacity and of BUSY. -/
theorem hostSrcAccessRule : Obligations.HostSrcAccessRule := by
  intro a b s
  refine ⟨fun ha => ⟨if_neg (Nat.not_lt.2 ha), hostReadSrc_of_le ha⟩,
    fun ha hb => (if_pos ha).trans (if_pos hb), fun ha hb => ?_, fun ha => ?_⟩
  · exact ⟨_, (if_pos ha).trans (if_neg (by simp [hb])), rfl, Memory.lookup_store_same a b s.src,
      fun x hx => Memory.lookup_store_other b s.src hx⟩
  · exact ⟨_, hostReadSrc_of_lt ha, fun c hc => State.srcByte_of_lookup hc⟩

theorem State.resultByte_of_lt {s : State} (hb : s.busy = false) {a : Nat} (ha : a < s.dstLen) :
    s.resultByte a = s.dst.lookup a := if_pos ⟨hb, ha⟩

theorem State.resultByte_eq_none {s : State} {a : Nat} (h : s.busy = true ∨ s.dstLen ≤ a) :
    s.resultByte a = none := by
  refine if_neg ?_
  rintro ⟨hb, ha⟩
  rcases h with h | h
  · exact absurd (hb.symm.trans h) nofun
  · omega

/-- Settles O10: a byte of the result, or a draw where there is none. -/
theorem hostReadDstRule : Obligations.HostReadDstRule := by
  intro a s
  refine ⟨fun ha => if_neg (Nat.not_lt.2 ha), fun ha hb hlen b hlookup => ?_, fun ha hnone => ?_⟩
  · rw [hostReadDst, if_pos ha, State.resultByte_of_lt hb hlen, hlookup]
    rfl
  · rw [hostReadDst, if_pos ha, State.resultByte_eq_none hnone]
    rfl

end Sys2Proof.Machine
end

section
/-! SUPPORT. A phase beside its twin: the same phase from the same state with other contents of DST and
another host. Both do the same and store the same bytes, one after another, in the stream of DST
that ends at WPTR (20_memory.md R50, R52, R55, R56). -/

namespace Sys2Proof.Machine

/-! ### Two buffers that take the same stream -/

/-- From d and e the same bytes have been stored, one after another, from address lo up to hi. -/
inductive Memory.SameStream (d e : Memory) (lo : Nat) : (hi : Nat) → Memory → Memory → Prop
  | start : SameStream d e lo lo d e
  | store {hi : Nat} {d' e' : Memory} (h : SameStream d e lo hi d' e') (b : Byte) :
      SameStream d e lo (hi + 1) (d'.store hi b) (e'.store hi b)

section
variable {d e d' e' : Memory} {lo hi : Nat}

theorem Memory.SameStream.le (h : SameStream d e lo hi d' e') : lo ≤ hi := by
  induction h with
  | start => exact le_rfl
  | store h b ih => exact Nat.le_succ_of_le ih

/-- A byte lies in the stream and is the same in both buffers, or it is as it was in both. -/
theorem Memory.SameStream.lookup (h : SameStream d e lo hi d' e') (a : Nat) :
    (lo ≤ a ∧ a < hi ∧ e'.lookup a = d'.lookup a) ∨
      (d'.lookup a = d.lookup a ∧ e'.lookup a = e.lookup a) := by
  induction h with
  | start => exact .inr ⟨rfl, rfl⟩
  | @store hi d' e' h b ih =>
    by_cases ha : a = hi
    · subst ha
      exact .inl ⟨h.le, Nat.lt_succ_self a, by rw [lookup_store_same, lookup_store_same]⟩
    · rw [lookup_store_other b d' ha, lookup_store_other b e' ha]
      exact ih.imp_left fun ⟨hl, hu, heq⟩ => ⟨hl, Nat.lt_succ_of_lt hu, heq⟩

/-- Outside the stream the first buffer is as it was. -/
theorem Memory.SameStream.lookup_outside (h : SameStream d e lo hi d' e') {a : Nat}
    (ha : a < lo ∨ hi ≤ a) : d'.lookup a = d.lookup a := by
  rcases h.lookup a with ⟨hl, hu, -⟩ | ⟨hd, -⟩
  · omega
  · exact hd

theorem Memory.SameStream.eq_of_eq (h : SameStream d d lo hi d' e') : e' = d' := by
  induction h with
  | start => rfl
  | store h b ih => rw [ih]

end

/-! ### The twin of a state and of a run -/

/-- s with another DST, m, and with the host of v: what the engine never reads is exchanged. -/
def State.twin (s : State) (m : Memory) (v : State) : State :=
  { s with dst := m, script := v.script, seen := v.seen, draws := v.draws }

@[simp] theorem State.twin_tr (s : State) (m : Memory) (v : State) : (s.twin m v).tr = s.tr := rfl

@[simp] theorem State.twin_readSrc (s : State) (m : Memory) (v : State) (a : Nat) :
    (s.twin m v).readSrc a = s.readSrc a := rfl

@[simp] theorem State.twin_readSrcLe (s : State) (m : Memory) (v : State) (a k : Nat) :
    (s.twin m v).readSrcLe a k = s.readSrcLe a k := by
  have hbytes : ∀ k a, (s.twin m v).readSrcBytes a k = s.readSrcBytes a k := by
    intro k
    induction k with
    | zero => exact fun _ => rfl
    | succ k ih => exact fun a => by rw [State.readSrcBytes, State.readSrcBytes, ih, twin_readSrc]
  rw [State.readSrcLe, State.readSrcLe, hbytes]

/-- Two pieces of a phase end the same way, the second in the twin of the state the first ends in:
E relates that state and the twin's DST after a `raise`, and P where the pieces go on. -/
inductive Run.Twin (v : State) (E P : State → Memory → Prop) : Run → Run → Prop
  | ok {t : State} {m : Memory} (h : P t m) : Run.Twin v E P (.ok t) (.ok (t.twin m v))
  | raised {k : ErrorKind} {t : State} {m : Memory} (h : E t m) :
      Run.Twin v E P (.raised k t) (.raised k (t.twin m v))
  | stuck (f : Fault) : Run.Twin v E P (.stuck f) (.stuck f)

/-- Neither DST has been written: d is still the one, and e the twin's. -/
def State.Unwritten (d e : Memory) (t : State) (m : Memory) : Prop := t.dst = d ∧ m = e

/-- Since the start, where DST was d and the twin's e, both have taken the same stream from lo up to
WPTR. -/
def State.Streamed (lo : Nat) (d e : Memory) (t : State) (m : Memory) : Prop :=
  Memory.SameStream d e lo t.tr.wptr t.dst m

section
variable {v s : State} {m d e : Memory} {lo : Nat} {E P Q : State → Memory → Prop}

theorem Run.Twin.mono {E' : State → Memory → Prop} {r q : Run} (h : r.Twin v E P q)
    (hE : ∀ t m, E t m → E' t m) (hP : ∀ t m, P t m → Q t m) : r.Twin v E' Q q := by
  cases h with
  | ok h => exact .ok (hP _ _ h)
  | raised h => exact .raised (hE _ _ h)
  | stuck f => exact .stuck f

theorem Run.Twin.of_ok {r q : Run} {t : State} (h : r.Twin v E P q) (hr : r = .ok t) :
    ∃ m, P t m := by
  cases h with
  | ok h => cases hr; exact ⟨_, h⟩
  | _ => cases hr

theorem Run.Twin.of_raised {r q : Run} {k : ErrorKind} {t : State} (h : r.Twin v E P q)
    (hr : r = .raised k t) : ∃ m, E t m := by
  cases h with
  | raised h => cases hr; exact ⟨_, h⟩
  | _ => cases hr

theorem Run.Twin.andThen {r q : Run} {f g : State → Run} (h : r.Twin v E P q)
    (hfg : ∀ t m, P t m → (f t).Twin v E Q (g (t.twin m v))) :
    (r.andThen f).Twin v E Q (q.andThen g) := by
  cases h with
  | ok h => exact hfg _ _ h
  | raised h => exact .raised h
  | stuck f => exact .stuck f

theorem Run.twin_ite {c : Prop} [Decidable c] {r r' q q' : Run} (h : r.Twin v E P q)
    (h' : r'.Twin v E P q') : (if c then r else r').Twin v E P (if c then q else q') := by
  split
  · exact h
  · exact h'

theorem State.withSrc_twin {f g : Byte → Run} (a : Nat) (hfg : ∀ b, (f b).Twin v E P (g b)) :
    (s.withSrc a f).Twin v E P ((s.twin m v).withSrc a g) := by
  unfold State.withSrc
  rw [State.twin_readSrc]
  cases s.readSrc a with
  | none => exact .stuck _
  | some b => exact hfg b

theorem State.withSrcLe_twin {f g : Nat → Run} (a k : Nat) (hfg : ∀ n, (f n).Twin v E P (g n)) :
    (s.withSrcLe a k f).Twin v E P ((s.twin m v).withSrcLe a k g) := by
  unfold State.withSrcLe
  rw [State.twin_readSrcLe]
  cases s.readSrcLe a k with
  | none => exact .stuck _
  | some n => exact hfg n

/-! ### COUNT, BUILD, GENCODE and PARSE -/

theorem countLoop_twin {n : Nat} (h : s.Unwritten d e m) :
    (countLoop n s).Twin v (State.Unwritten d e) (State.Unwritten d e)
      (countLoop n (s.twin m v)) := by
  induction n generalizing s m with
  | zero => exact .ok h
  | succ n ih =>
    refine State.withSrc_twin _ fun b => Run.Twin.andThen (P := State.Unwritten d e) ?_
      fun t m' h' => ih (s := t.withTr fun t => { t with rptr := t.rptr + 1 }) h'
    exact Run.twin_ite (.raised h) (.ok (t := s.withTr fun t => t.setFreq b (t.freqAt b + 1)) h)

theorem countBody_twin (h : s.Unwritten d e m) :
    (countBody s).Twin v (State.Unwritten d e) (State.Unwritten d e)
      (countBody (s.twin m v)) :=
  (countLoop_twin (s := s.withTr fun t => { t with rptr := 0 }) h).andThen fun t _ h' =>
    .ok (t := t.withTr fun t => { t with nsym := t.alphabetSize }) h'

theorem buildBody_twin (h : s.Unwritten d e m) :
    (buildBody s).Twin v (State.Unwritten d e) (State.Unwritten d e)
      (buildBody (s.twin m v)) := by
  unfold buildBody
  rw [State.twin_tr]
  cases buildTree s.tr with
  | none => exact .stuck _
  | some u =>
    exact Run.twin_ite (.ok (t := { s with tr := u }) h) (.raised (t := { s with tr := u }) h)

theorem gencodeBody_twin (h : s.Unwritten d e m) :
    (gencodeBody s).Twin v (State.Unwritten d e) (State.Unwritten d e)
      (gencodeBody (s.twin m v)) := by
  unfold gencodeBody
  rw [State.twin_tr]
  cases generateCodes s.tr with
  | none => exact .stuck _
  | some u => exact .ok (t := { s with tr := u }) h

theorem parseHeader_twin (h : s.Unwritten d e m) :
    (parseHeader s).Twin v (State.Unwritten d e) (State.Unwritten d e)
      (parseHeader (s.twin m v)) :=
  State.withSrcLe_twin 0 8 fun c => State.withSrcLe_twin 8 2 fun n =>
    .ok (t := s.withTr fun t => { t with
      origCount := BitVec.ofNat 64 c, tableN := BitVec.ofNat 16 n }) h

theorem parseEntry_twin (h : s.Unwritten d e m) (k : Nat) :
    (parseEntry s k).Twin v (State.Unwritten d e) (State.Unwritten d e)
      (parseEntry (s.twin m v) k) :=
  State.withSrc_twin _ fun c => State.withSrcLe_twin _ _ fun f =>
    Run.twin_ite (.raised h) (Run.twin_ite (.raised h)
      (.ok (t := s.withTr fun t => t.setFreq c (BitVec.ofNat 32 f)) h))

theorem parseEntries_twin {n k : Nat} (h : s.Unwritten d e m) :
    (parseEntries n k s).Twin v (State.Unwritten d e) (State.Unwritten d e)
      (parseEntries n k (s.twin m v)) := by
  induction n generalizing k s m with
  | zero => exact .ok h
  | succ n ih => exact (parseEntry_twin h k).andThen fun t m' h' => ih h'

theorem parseBody_twin (h : s.Unwritten d e m) :
    (parseBody s).Twin v (State.Unwritten d e) (State.Unwritten d e)
      (parseBody (s.twin m v)) := by
  refine Run.twin_ite (.raised h) ((parseHeader_twin h).andThen fun t m' h' => ?_)
  refine Run.twin_ite (.raised h') (Run.twin_ite (.raised h')
    ((parseEntries_twin h').andThen fun u m'' h'' => ?_))
  exact Run.twin_ite (.raised (t := setPayload u) h'') (.ok (t := setPayload u) h'')

/-! ### FRAME -/

theorem writeDst_twin {a : Nat} (h : Memory.SameStream d e lo a s.dst m) (b : Byte) :
    (s.writeDst a b).Twin v E
      (fun t m' => t.tr = s.tr ∧ Memory.SameStream d e lo (a + 1) t.dst m')
      ((s.twin m v).writeDst a b) :=
  Run.twin_ite (.ok (t := { s with dst := s.dst.store a b }) ⟨rfl, h.store b⟩) (.stuck _)

theorem writeDstBytes_twin {a : Nat} {bs : List Byte}
    (h : Memory.SameStream d e lo a s.dst m) :
    (s.writeDstBytes a bs).Twin v E
      (fun t m' => t.tr = s.tr ∧ Memory.SameStream d e lo (a + bs.length) t.dst m')
      ((s.twin m v).writeDstBytes a bs) := by
  induction bs generalizing a s m with
  | nil => exact .ok ⟨rfl, h⟩
  | cons b bs ih =>
    refine (writeDst_twin h b).andThen fun t m' ⟨htr, ht⟩ => (ih ht).mono (fun _ _ => id) ?_
    rintro u m'' ⟨hur, hu⟩
    rw [List.length_cons, Nat.add_comm bs.length 1, ← Nat.add_assoc]
    exact ⟨hur.trans htr, hu⟩

/-- The header is the stream's first ten bytes (R147). -/
theorem writeHeader_twin :
    (writeHeader s).Twin v E
      (fun t m' => t.tr.wptr = headerLen ∧ State.Streamed 0 s.dst m t m')
      (writeHeader (s.twin m v)) := by
  refine (writeDstBytes_twin (a := 0) .start).andThen fun t m' ⟨_, ht⟩ => ?_
  rw [leBytes_length] at ht
  refine (writeDstBytes_twin ht).andThen fun u m'' ⟨_, hu⟩ => ?_
  rw [leBytes_length] at hu
  exact .ok (t := u.withTr fun t => { t with wptr := headerLen }) ⟨rfl, hu⟩

theorem writeEntry_twin (h : s.Streamed lo d e m) (x : Byte × BitVec 32) :
    (writeEntry s x).Twin v E
      (fun t m' => t.tr.wptr = s.tr.wptr + 5 ∧ State.Streamed lo d e t m')
      (writeEntry (s.twin m v) x) := by
  refine (writeDst_twin h x.1).andThen fun t m' ⟨htr, ht⟩ => ?_
  rw [State.twin_tr, htr]
  refine (writeDstBytes_twin ht).andThen fun u m'' ⟨hur, hu⟩ => ?_
  have hw : u.tr.wptr + 5 = s.tr.wptr + 5 := by rw [hur, htr]
  rw [leBytes_length, Nat.add_assoc, ← hw] at hu
  exact .ok (t := u.withTr fun t => { t with wptr := t.wptr + 5 }) ⟨hw, hu⟩

theorem writeTable_twin {es : List (Byte × BitVec 32)} (h : s.Streamed lo d e m) :
    (writeTable es s).Twin v E
      (fun t m' => t.tr.wptr = s.tr.wptr + 5 * es.length ∧ State.Streamed lo d e t m')
      (writeTable es (s.twin m v)) := by
  induction es generalizing s m with
  | nil => exact .ok ⟨rfl, h⟩
  | cons x es ih =>
    refine (writeEntry_twin h x).andThen fun t m' ⟨hw, ht⟩ => (ih ht).mono (fun _ _ => id) ?_
    rintro u m'' ⟨hw', hu⟩
    rw [List.length_cons]
    exact ⟨by omega, hu⟩

/-- FRAME writes nothing before an error, and else the stream of 10 + 5 n bytes (R146 to R148). -/
theorem frameBody_twin :
    (frameBody s).Twin v (State.Unwritten s.dst m)
      (fun t m' => t.tr.wptr = 10 + 5 * s.tr.alphabetSize ∧ State.Streamed 0 s.dst m t m')
      (frameBody (s.twin m v)) := by
  refine Run.twin_ite (.raised (t := s.withTr fun t => { t with totalBits := t.codeBits })
    ⟨rfl, rfl⟩) ?_
  refine (writeHeader_twin (s := (s.withTr fun t => { t with totalBits := t.codeBits }).withTr
    fun t => { t with wptr := 0 })).andThen fun t m' ⟨hw, ht⟩ => ?_
  refine (writeTable_twin ht).mono (fun _ _ => id) fun u m'' ⟨hw', hu⟩ => ⟨?_, hu⟩
  rw [hw', hw]
  rfl

/-! ### ENCODE -/

theorem emitByte_twin (h : s.Streamed lo d e m) (b : Byte) :
    (s.emitByte b).Twin v E (State.Streamed lo d e) ((s.twin m v).emitByte b) := by
  refine (writeDst_twin h b).andThen fun t m' ⟨htr, ht⟩ => ?_
  rw [← htr] at ht
  exact .ok (t := t.withTr fun t => { t with wptr := t.wptr + 1 }) ht

theorem pushBit_twin (h : s.Streamed lo d e m) (b : Bool) :
    (pushBit s b).Twin v E (State.Streamed lo d e) (pushBit (s.twin m v) b) := by
  have hshift : (s.withTr fun t =>
      { t with acc := shiftIn t.acc b, accN := t.accN + 1 }).Streamed lo d e m := h
  refine Run.twin_ite ((emitByte_twin hshift _).andThen fun t m' ht => ?_) (.ok hshift)
  exact .ok (t := t.withTr fun t => { t with acc := 0, accN := 0 }) ht

theorem pushBits_twin {bs : List Bool} (h : s.Streamed lo d e m) :
    (pushBits bs s).Twin v E (State.Streamed lo d e) (pushBits bs (s.twin m v)) := by
  induction bs generalizing s m with
  | nil => exact .ok h
  | cons b bs ih => exact (pushBit_twin h b).andThen fun t m' ht => ih ht

theorem encodeLoop_twin {n : Nat} (h : s.Streamed lo d e m) :
    (encodeLoop n s).Twin v E (State.Streamed lo d e) (encodeLoop n (s.twin m v)) := by
  induction n generalizing s m with
  | zero => exact .ok h
  | succ n ih =>
    exact State.withSrc_twin _ fun b => (pushBits_twin h).andThen fun t m' ht =>
      ih (s := t.withTr fun t => { t with rptr := t.rptr + 1 }) ht

theorem encodeBody_twin (h : s.Streamed lo d e m) :
    (encodeBody s).Twin v E (State.Streamed lo d e) (encodeBody (s.twin m v)) := by
  refine (encodeLoop_twin (s := s.withTr fun t => { t with rptr := 0, acc := 0, accN := 0 })
    h).andThen fun t m' ht => ?_
  refine Run.twin_ite (.ok ht) ((emitByte_twin ht _).andThen fun u m'' hu => ?_)
  exact .ok (t := u.withTr fun t => { t with acc := 0, accN := 0 }) hu

/-! ### DECODE -/

theorem emitSymbol_twin (h : s.Streamed lo d e m) (c : Byte) :
    (emitSymbol s c).Twin v E (State.Streamed lo d e) (emitSymbol (s.twin m v) c) :=
  (emitByte_twin h c).andThen fun t _ ht =>
    .ok (t := t.withTr fun t => { t with emitted := t.emitted + 1 }) ht

theorem stepLeafRoot_twin (h : s.Streamed lo d e m) :
    (stepLeafRoot s).Twin v E (State.Streamed lo d e) (stepLeafRoot (s.twin m v)) := by
  unfold stepLeafRoot
  rw [State.twin_tr]
  cases s.tr.nodeAt s.tr.root with
  | none => exact .stuck _
  | some x => exact emitSymbol_twin h x.sym

theorem stepWalk_twin (h : s.Streamed lo d e m) (b : Bool) :
    (stepWalk s b).Twin v E (State.Streamed lo d e) (stepWalk (s.twin m v) b) := by
  unfold stepWalk
  rw [State.twin_tr]
  cases s.tr.childOf b with
  | none => exact .stuck _
  | some c =>
    have hcur : (s.withTr fun t => { t with cur := c }).Streamed lo d e m := h
    simp only [State.withTr_tr, State.twin_tr]
    cases Transient.nodeAt { s.tr with cur := c } c with
    | none => exact .stuck _
    | some x =>
      refine Run.twin_ite ((emitSymbol_twin hcur x.sym).andThen fun t m' ht => ?_) (.ok hcur)
      exact .ok (t := t.withTr fun t => { t with cur := t.root }) ht

theorem decodeLoop_twin {n : Nat} (h : s.Streamed lo d e m) :
    (decodeLoop n s).Twin v E (State.Streamed lo d e) (decodeLoop n (s.twin m v)) := by
  induction n generalizing s m with
  | zero => exact .ok h
  | succ n ih =>
    refine Run.twin_ite ?_ (.ok h)
    rw [State.twin_tr, State.payloadBit, State.payloadBit, State.twin_readSrc]
    cases (s.readSrc _).map _ with
    | none => exact .stuck _
    | some b =>
      have hbit : (s.withTr fun t => { t with bitpos := t.bitpos + 1 }).Streamed lo d e m := h
      exact (Run.twin_ite (stepLeafRoot_twin hbit) (stepWalk_twin hbit b)).andThen
        fun t m' ht => ih ht

/-- DECODE starts its stream at address 0 (R170). -/
theorem decodeBody_twin :
    (decodeBody s).Twin v (State.Streamed 0 s.dst m) (State.Streamed 0 s.dst m)
      (decodeBody (s.twin m v)) :=
  (decodeLoop_twin (s := decodeInit s) .start).andThen fun _ _ ht =>
    Run.twin_ite (.raised ht) (.ok ht)

end

/-! ### The engine -/

/-- Two buffers that have taken the same stream, from some address to some other. -/
def Memory.SameStores (d e d' e' : Memory) : Prop := ∃ lo hi, Memory.SameStream d e lo hi d' e'

theorem Memory.SameStores.refl (d e : Memory) : Memory.SameStores d e d e := ⟨0, 0, .start⟩

/-- A phase and its twin do the same and store the same. -/
theorem phaseBody_twin (p : Phase) (s v : State) (m : Memory) :
    (phaseBody p s).Twin v (fun t m' => Memory.SameStores s.dst m t.dst m')
      (fun t m' => Memory.SameStores s.dst m t.dst m') (phaseBody p (s.twin m v)) := by
  have hunwritten : ∀ t m', State.Unwritten s.dst m t m' → Memory.SameStores s.dst m t.dst m' := by
    rintro t m' ⟨hd, rfl⟩
    rw [hd]
    exact .refl _ _
  have hstreamed : ∀ lo t m', State.Streamed lo s.dst m t m' →
      Memory.SameStores s.dst m t.dst m' := fun lo t m' h => ⟨lo, _, h⟩
  cases p with
  | idle => exact .ok (.refl _ _)
  | count => exact (countBody_twin ⟨rfl, rfl⟩).mono hunwritten hunwritten
  | build => exact (buildBody_twin ⟨rfl, rfl⟩).mono hunwritten hunwritten
  | gencode => exact (gencodeBody_twin ⟨rfl, rfl⟩).mono hunwritten hunwritten
  | parse => exact (parseBody_twin ⟨rfl, rfl⟩).mono hunwritten hunwritten
  | frame => exact frameBody_twin.mono hunwritten fun t m' ⟨_, h⟩ => hstreamed 0 t m' h
  | encode => exact (encodeBody_twin .start).mono (hstreamed s.tr.wptr) (hstreamed _)
  | decode => exact decodeBody_twin.mono (hstreamed 0) (hstreamed 0)

theorem State.runPhase_twin {s t : State} {p : Phase}
    (h : s.runPhase p (phaseBody p) = .next t) (v : State) (m : Memory) :
    ∃ m', (s.twin m v).runPhase p (phaseBody p) = .next (t.twin m' v) ∧
      Memory.SameStores s.dst m t.dst m' := by
  have hbody := phaseBody_twin p s v m
  have hlatch : (s.twin m v).cmdLatch = s.cmdLatch := rfl
  unfold State.runPhase at h ⊢
  rw [hlatch]
  cases hafter : phaseAfter p (phasePath s.cmdLatch) with
  | none => rw [hafter] at h; cases h
  | some after =>
    rw [hafter] at h
    generalize phaseBody p s = r, phaseBody p (s.twin m v) = q at *
    cases hbody with
    | stuck f => cases h
    | raised hstores => cases h; exact ⟨_, rfl, hstores⟩
    | ok hstores =>
      cases after with
      | none => cases h; exact ⟨_, rfl, hstores⟩
      | some q => cases h; exact ⟨_, rfl, hstores⟩

/-- Dispatch tests nothing that the twin has different (R92 to R99), and a phase does as its twin. -/
theorem exec_twin {i : Instr} {s t : State} (h : exec i s = .next t) (v : State) (m : Memory) :
    ∃ m', exec i (s.twin m v) = .next (t.twin m' v) ∧ Memory.SameStores s.dst m t.dst m' := by
  cases i with
  | nop => cases h; exact ⟨m, rfl, .refl _ _⟩
  | clear => cases h; exact ⟨m, rfl, .refl _ _⟩
  | illegal w => cases h; exact ⟨m, rfl, .refl _ _⟩
  | compress =>
    by_cases hlong : s.cfg.srcCap < s.srcLen
    · cases (if_pos hlong).symm.trans h
      exact ⟨m, if_pos hlong, .refl _ _⟩
    by_cases hempty : s.srcLen = 0
    · cases ((if_neg hlong).trans (if_pos hempty)).symm.trans h
      exact ⟨m, (if_neg hlong).trans (if_pos hempty), .refl _ _⟩
    · cases ((if_neg hlong).trans (if_neg hempty)).symm.trans h
      exact ⟨m, (if_neg hlong).trans (if_neg hempty), .refl _ _⟩
  | decompress =>
    by_cases hlong : s.cfg.srcCap < s.srcLen
    · cases (if_pos hlong).symm.trans h
      exact ⟨m, if_pos hlong, .refl _ _⟩
    · cases (if_neg hlong).symm.trans h
      exact ⟨m, if_neg hlong, .refl _ _⟩
  | count => exact State.runPhase_twin (p := .count) h v m
  | build => exact State.runPhase_twin (p := .build) h v m
  | gencode => exact State.runPhase_twin (p := .gencode) h v m
  | frame => exact State.runPhase_twin (p := .frame) h v m
  | encode => exact State.runPhase_twin (p := .encode) h v m
  | parse => exact State.runPhase_twin (p := .parse) h v m
  | decode => exact State.runPhase_twin (p := .decode) h v m

/-- The engine neither sees the host nor reads DST (R50, R52, R55). -/
theorem engineStep_twin {s t : State} (h : engineStep s = .next t) (v : State) (m : Memory) :
    ∃ m', engineStep (s.twin m v) = .next (t.twin m' v) ∧ Memory.SameStores s.dst m t.dst m' := by
  by_cases hb : s.busy = true
  · rw [engineStep_busy hb] at h
    obtain ⟨m', hm', hstores⟩ := exec_twin h v m
    exact ⟨m', (engineStep_busy (s := s.twin m v) hb).trans hm', hstores⟩
  · have hb' := Bool.eq_false_iff.2 hb
    cases (engineStep_idle hb').symm.trans h
    exact ⟨m, engineStep_idle (s := s.twin m v) hb', .refl _ _⟩

end Sys2Proof.Machine
end

section
/-! SUPPORT. DST, the host and the engine: what the engine writes to DST, and that it sees neither what
DST holds nor what the host does while BUSY = 1 (20_memory.md R50, R52, R55). -/

namespace Sys2Proof.Machine

/-- The engine leaves the host's fields as they are, since it ends in a state that is its own twin. -/
theorem engineStep_twin_self {s t : State} (h : engineStep s = .next t) : t.twin t.dst s = t := by
  obtain ⟨m', hm', lo, hi, hstream⟩ := engineStep_twin h s s.dst
  rw [← hstream.eq_of_eq]
  exact Host.Outcome.next.inj (hm'.symm.trans h)

/-- Settles O46: both cases store the same stream. -/
theorem engineNeverReadsDst : Obligations.EngineNeverReadsDst := by
  intro s t m h
  obtain ⟨m', hm', lo, hi, hstream⟩ := engineStep_twin h s m
  have hhost : t.twin m' s = { t with dst := m' } :=
    congrArg (fun u : State => { u with dst := m' }) (engineStep_twin_self h)
  refine ⟨m', hm'.trans (congrArg _ hhost), fun a => ?_⟩
  rcases hstream.lookup a with ⟨-, -, hsame⟩ | ⟨ht, hm⟩
  · exact .inl hsame
  · exact .inr ⟨hm, ht⟩

/-- Settles O45: a host move while BUSY = 1 leads to a twin with the same DST. -/
theorem busyHostMovesDoNotDisturbTheEngine : Obligations.BusyHostMovesDoNotDisturbTheEngine := by
  intro s t s' hb hhost heng
  obtain ⟨m', hm', lo, hi, hstream⟩ := engineStep_twin heng t s.dst
  obtain rfl := hstream.eq_of_eq
  rw [hostStep_busy hb hhost]
  exact hm'

/-! ### The bytes of DST that a phase leaves alone -/

/-- What the body of a phase and its twin are known to leave holds of what the phase answers. -/
theorem PhaseNext.of_twin {s t v : State} {p : Phase} {P : State → Memory → Prop} {q : Run}
    (h : PhaseNext s p t) (hbody : (phaseBody p s).Twin v P P q) :
    ∃ m, P { s with dst := t.dst, tr := t.tr } m := by
  cases h with
  | fails hb => exact hbody.of_raised hb
  | goesOn hb => exact hbody.of_ok hb
  | ends hb => exact hbody.of_ok hb

theorem PhaseWrite.dst_eq {p : Phase} {s t : State} (h : PhaseWrite p s t)
    (hp : p ≠ .frame ∧ p ≠ .encode ∧ p ≠ .decode) : t.dst = s.dst := by
  cases h with
  | frameDst => exact absurd rfl hp.1
  | encodeEmit => exact absurd rfl hp.2.1
  | decodeEmit => exact absurd rfl hp.2.2
  | _ => rfl

theorem exec_dst_eq {i : Instr} {s t : State} (h : exec i s = .next t)
    (hi : i ≠ .frame ∧ i ≠ .encode ∧ i ≠ .decode) : t.dst = s.dst := by
  cases exec_next h with
  | @phase _ p _ hp hnext =>
    have hp' : p ≠ .frame ∧ p ≠ .encode ∧ p ≠ .decode := by
      refine ⟨?_, ?_, ?_⟩ <;> (rintro rfl; cases hp; simp at hi)
    exact hnext.wrote.keeps (P := fun u => u.dst = s.dst)
      (fun hw hu => (hw.dst_eq hp').trans hu) rfl
  | _ => rfl

/-- FRAME writes the header and the table, ten bytes and five for each symbol, or raises before its
first write (R146 to R148). -/
theorem execFrame_lookup {s t : State} (h : exec .frame s = .next t) (hb : s.busy = true) {a : Nat}
    (ha : 10 + 5 * s.tr.alphabetSize ≤ a ∨ t.err = some .dstOverflow ∧ t.busy = false) :
    t.dst.lookup a = s.dst.lookup a := by
  have htwin := frameBody_twin (v := s) (s := s) (m := s.dst)
  cases State.runPhase_phaseNext (p := .frame) h with
  | fails hbody =>
    obtain ⟨_, hdst, -⟩ := htwin.of_raised hbody
    exact congrArg (Memory.lookup a) hdst
  | goesOn hbody hafter =>
    obtain ⟨_, hw, hstream⟩ := htwin.of_ok hbody
    have hend : 10 + 5 * s.tr.alphabetSize ≤ a :=
      ha.resolve_right fun ⟨_, hidle⟩ => absurd (hb.symm.trans hidle) nofun
    exact hstream.lookup_outside (.inr (hw.trans_le hend))
  | ends hbody hafter => exact absurd (phaseAfter_phasePath_last hafter) (by decide)

/-- ENCODE writes from the WPTR it starts at to the WPTR it ends at (R135 to R138). -/
theorem execEncode_lookup {s t : State} (h : exec .encode s = .next t) {a : Nat}
    (ha : a < s.tr.wptr ∨ t.tr.wptr ≤ a) : t.dst.lookup a = s.dst.lookup a := by
  obtain ⟨m, hstream⟩ := (State.runPhase_phaseNext (p := .encode) h).of_twin
    (encodeBody_twin (v := s) (m := s.dst) .start)
  exact hstream.lookup_outside ha

/-- DECODE writes from address 0 to the WPTR it ends at (R170 to R173). -/
theorem execDecode_lookup {s t : State} (h : exec .decode s = .next t) {a : Nat}
    (ha : t.tr.wptr ≤ a) : t.dst.lookup a = s.dst.lookup a := by
  obtain ⟨m, hstream⟩ := (State.runPhase_phaseNext (p := .decode) h).of_twin
    (decodeBody_twin (v := s) (m := s.dst))
  exact hstream.lookup_outside (.inr ha)

/-- Settles O41, by the instruction. -/
theorem dstBytesOutsideTheStreamStay : Obligations.DstBytesOutsideTheStreamStay := by
  intro i s t h a
  refine ⟨fun hf he hd => congrArg (Memory.lookup a) (exec_dst_eq h ⟨hf, he, hd⟩), ?_, ?_, ?_⟩
  · rintro rfl ha hb
    exact execFrame_lookup h hb ha
  · rintro rfl ha
    exact execEncode_lookup h ha
  · rintro rfl ha
    exact execDecode_lookup h ha

end Sys2Proof.Machine
end

section
/-! SUPPORT. The control words and their codes (30_encoding.md R66 to R71): which command words the opcode
map claims, which phase a code stands for, and that decoding and encoding are inverse. -/

namespace Sys2Proof

/-! ### Command words -/

/-- A command word is one of the four the opcode map claims, or at least 4 (R67). -/
theorem command_cases (w : Word) : w = 0#32 ∨ w = 1#32 ∨ w = 2#32 ∨ w = 3#32 ∨ 4 ≤ w.toNat := by
  bv_omega

/-- Every word from 4 on, by its opcode or by a reserved bit, is ILLEGAL (R71). -/
theorem decodeCommand_of_four_le {w : Word} (h : 4 ≤ w.toNat) : decodeCommand w = .illegal w :=
  (Laws.Coding.illegal w).resolve_right (by simp [Instr.wellFormed, h])

/-- Settles O2, by the four claimed words and the rest. -/
theorem everyCommandWordDecodes : Obligations.EveryCommandWordDecodes := by
  intro w
  obtain rfl | rfl | rfl | rfl | h := command_cases w
  · rfl
  · rfl
  · rfl
  · rfl
  · have hne : w ≠ 0#32 ∧ w ≠ 1#32 ∧ w ≠ 2#32 ∧ w ≠ 3#32 := by bv_omega
    simp [decode, decodeCommand_of_four_le h, hne]

/-! ### Phase codes -/

/-- A code stands for no other phase than the one it is the code of (R69). -/
theorem Phase.code_of_ofCode {c : BitVec 4} {p : Phase} (h : Phase.ofCode c = some p) :
    p.code = c := by
  unfold Phase.ofCode at h
  split at h <;> cases h
  all_goals next hc => exact BitVec.eq_of_toNat_eq hc.symm

/-- A code that decodes is that of a phase other than IDLE. -/
theorem phase_of_decodePhase {c : BitVec 4} {i : Instr} (h : decodePhase c = .ok i) :
    ∃ p : Phase, p.code = c ∧ p ≠ .idle := by
  unfold decodePhase at h
  split at h <;> cases h
  all_goals next hc => exact ⟨_, Phase.code_of_ofCode hc, nofun⟩

theorem encode_of_decodePhase {c : BitVec 4} {i : Instr} (h : decodePhase c = .ok i) :
    encode i = .phase c ∧ i.wellFormed = true := by
  obtain ⟨p, rfl, -⟩ := phase_of_decodePhase h
  cases p <;> cases h
  all_goals exact ⟨rfl, rfl⟩

/-! ### The whole decoder -/

theorem decode_encode {i : Instr} (h : i.wellFormed = true) : decode (encode i) = .ok i := by
  cases i with
  | illegal w => exact congrArg Except.ok (decodeCommand_of_four_le (of_decide_eq_true h))
  | _ => rfl

theorem encode_of_decode {cw : ControlWord} {i : Instr} (h : decode cw = .ok i) :
    encode i = cw ∧ i.wellFormed = true := by
  cases cw with
  | phase c => exact encode_of_decodePhase h
  | command w =>
    obtain rfl := Except.ok.inj h
    obtain rfl | rfl | rfl | rfl | hw := command_cases w
    · exact ⟨rfl, rfl⟩
    · exact ⟨rfl, rfl⟩
    · exact ⟨rfl, rfl⟩
    · exact ⟨rfl, rfl⟩
    · rw [decodeCommand_of_four_le hw]
      exact ⟨rfl, decide_eq_true hw⟩

/-- Settles O1, by the instruction one way and by the control word the other. -/
theorem decodeAndEncodeAgree : Obligations.DecodeAndEncodeAgree :=
  ⟨fun _ => decode_encode, fun _ _ => encode_of_decode⟩

/-- Settles O3, by evaluation of the decoder on each word. -/
theorem writtenOutWordsDecode : Obligations.WrittenOutWordsDecode := by
  unfold Obligations.WrittenOutWordsDecode
  decide

end Sys2Proof
end

section
/-! SUPPORT. Words in the machine: the fields of STATUS (30_encoding.md R68), and the placing of a row of
the opcode table where the next step runs it (30_encoding.md R67, R69; log 11). -/

namespace Sys2Proof.Machine

/-! ### The STATUS word -/

/-- The bits of STATUS, from PHASE downwards; PHASE has none above bit 11 (R68). -/
theorem State.getLsbD_statusWord (s : State) (i : Nat) :
    s.statusWord.getLsbD i =
      if 8 ≤ i then s.phase.code.getLsbD (i - 8)
      else if 4 ≤ i then (errField s.err).getLsbD (i - 4)
      else if i = 3 then false else if i = 2 then s.fail else if i = 1 then s.done else s.busy := by
  change BitVec.getLsbD (0#20 ++ s.phase.code ++ errField s.err ++ 0#1 ++ BitVec.ofBool s.fail
    ++ BitVec.ofBool s.done ++ BitVec.ofBool s.busy) i = _
  simp only [BitVec.getLsbD_append]
  obtain _ | _ | _ | _ | j := i
  · simp
  · simp
  · simp
  · simp
  · by_cases h : j < 4
    · simp [h]
    · simpa [h, Nat.not_lt.1 h] using BitVec.lt_of_getLsbD

/-- Settles O4, bit by bit. -/
theorem statusWordHoldsTheFields : Obligations.StatusWordHoldsTheFields := by
  intro s
  refine ⟨s.getLsbD_statusWord 0, s.getLsbD_statusWord 1, s.getLsbD_statusWord 2,
    s.getLsbD_statusWord 3, ?_, ?_, ?_⟩
  · ext i hi
    rw [BitVec.getElem_extractLsb', s.getLsbD_statusWord, if_neg (by omega), if_pos (by omega),
      Nat.add_sub_cancel_left, BitVec.getLsbD_eq_getElem]
  · ext i hi
    rw [BitVec.getElem_extractLsb', s.getLsbD_statusWord, if_pos (by omega),
      Nat.add_sub_cancel_left, BitVec.getLsbD_eq_getElem]
  · ext i hi
    rw [BitVec.getElem_extractLsb', s.getLsbD_statusWord, if_pos (by omega),
      BitVec.getLsbD_of_ge _ _ (by omega), BitVec.getElem_zero]

/-! ### The host's turn -/

/-- An idle machine whose schedule is over does the host's next primitive. -/
theorem step_op {s : State} {o : HostOp} {rest : List ScriptItem} (hb : s.busy = false)
    (hs : s.sched = []) (hscript : s.script = .op o :: rest) :
    step s = hostOp o { s with script := rest } := by
  rw [step_nil_idle hs hb, hostStep, hscript]

/-! ### Placed rows -/

theorem decodeTableWord_eq_some {nbits w : Nat} {i : Instr} (h : decodeTableWord nbits w = some i) :
    ∃ cw, tableControlWord nbits w = some cw ∧ decode cw = .ok i := by
  unfold decodeTableWord at h
  split at h
  · cases h
  · next cw hcw =>
    split at h <;> cases h
    exact ⟨cw, hcw, ‹_›⟩

theorem State.withFetchWord_eq {nbits w : Nat} {cw : ControlWord}
    (h : tableControlWord nbits w = some cw) (s : State) :
    s.withFetchWord nbits w = s.placeControlWord cw := by
  rw [State.withFetchWord, State.placeTableWord, h]

theorem State.placeControlWord_command {v : Word} (hv : v ≠ 0) (s : State) :
    s.placeControlWord (.command v) = { s with sched := [] }.accept v := if_neg hv

theorem State.placeControlWord_phase {p : Phase} (hp : p ≠ .idle) (s : State) :
    s.placeControlWord (.phase p.code) =
      { s with sched := [], busy := true, phase := p, cmdLatch := latchForPhase p } := by
  cases p with
  | idle => exact absurd rfl hp
  | _ => rfl

/-- Placing sets the schedule, the flags and the sequencer, and keeps what the host has written. -/
theorem State.placeControlWord_frame {cw : ControlWord} {i : Instr} (h : decode cw = .ok i)
    (s : State) :
    (s.placeControlWord cw).src = s.src ∧ (s.placeControlWord cw).cfg = s.cfg ∧
      (s.placeControlWord cw).srcLen = s.srcLen := by
  cases cw with
  | command v =>
    by_cases hv : v = 0
    · obtain rfl := hv
      exact ⟨rfl, rfl, rfl⟩
    · rw [State.placeControlWord_command hv]
      exact ⟨rfl, rfl, rfl⟩
  | phase c =>
    obtain ⟨p, rfl, hp⟩ := phase_of_decodePhase h
    rw [State.placeControlWord_phase hp]
    exact ⟨rfl, rfl, rfl⟩

theorem State.engineInstr_accept {v : Word} (hv : v ≠ 0) (s : State) :
    (s.accept v).engineInstr = decodeCommand v := if_neg hv

theorem State.engineInstr_of_decodePhase {s : State} {i : Instr}
    (h : decodePhase s.phase.code = .ok i) : s.engineInstr = i := by rw [State.engineInstr, h]

/-- The host writes the zero word, and the engine runs every other instruction (R91, R92, R100). -/
theorem step_placeControlWord {cw : ControlWord} {i : Instr} (h : decode cw = .ok i) (s : State) :
    step (s.placeControlWord cw) =
      exec i { s.placeControlWord cw with script := if i = .nop then [] else s.script } := by
  cases cw with
  | command v =>
    obtain rfl := Except.ok.inj h
    by_cases hv : v = 0
    · obtain rfl := hv
      exact step_op (s := s.placeControlWord (.command 0)) rfl rfl rfl
    · rw [State.placeControlWord_command hv, step_nil_busy rfl rfl, engineStep_busy rfl,
        State.engineInstr_accept hv, if_neg (mt decodeCommand_eq_nop hv)]
      rfl
  | phase c =>
    obtain ⟨hi, -⟩ := encode_of_decodePhase h
    have hnop : i ≠ .nop := by
      rintro rfl
      cases hi
    obtain ⟨p, rfl, hp⟩ := phase_of_decodePhase h
    rw [State.placeControlWord_phase hp, step_nil_busy rfl rfl, engineStep_busy rfl,
      State.engineInstr_of_decodePhase (by exact h), if_neg hnop]

/-- Settles O43, by the control word that the row stands for. -/
theorem placedWordRunsNext : Obligations.PlacedWordRunsNext := by
  intro s nbits w i h
  obtain ⟨cw, hcw, hdec⟩ := decodeTableWord_eq_some h
  rw [State.withFetchWord_eq hcw]
  obtain ⟨hsrc, hcfg, hlen⟩ := s.placeControlWord_frame hdec
  exact ⟨hsrc, hcfg, hlen, step_placeControlWord hdec s⟩

end Sys2Proof.Machine
end

section
/-! SUPPORT. The host's `load` (30_encoding.md R73, R74) from an idle machine whose schedule is over: its
bytes go to SRC one a step, and then the two halves of its length to SRC_LEN. -/

namespace Sys2Proof.Machine

theorem core_run_succ {M : Host.Core} {s t : M.State} (h : M.step s = .next t) (k : Nat) :
    M.run (k + 1) s = M.run k t := by rw [Host.Core.run, h]

/-! ### The three primitives that `load` is made of -/

section
variable {s : State} {rest : List ScriptItem} {a k : Nat} {b : Byte} {v : Word}
  (hb : s.busy = false) (hs : s.sched = [])
include hb hs

theorem run_writeSrc (ha : a < s.cfg.srcCap)
    (hscript : s.script = .op (.writeSrc a b) :: rest) :
    Host.Core.run Sys2Proof.core (k + 1) s =
      Host.Core.run Sys2Proof.core k { s with src := s.src.store a b, script := rest } :=
  core_run_succ (M := Sys2Proof.core)
    ((step_op hb hs hscript).trans ((if_pos ha).trans (if_neg (by simp [hb])))) k

theorem run_writeSrcLenLo (hscript : s.script = .op (.writeCsr 2 v) :: rest) :
    Host.Core.run Sys2Proof.core (k + 1) s =
      Host.Core.run Sys2Proof.core k { s with srcLenLo := v, script := rest } :=
  core_run_succ (M := Sys2Proof.core)
    ((step_op hb hs hscript).trans (if_neg (by simp [hb]))) k

theorem run_writeSrcLenHi (hscript : s.script = .op (.writeCsr 3 v) :: rest) :
    Host.Core.run Sys2Proof.core (k + 1) s =
      Host.Core.run Sys2Proof.core k { s with srcLenHi := v, script := rest } :=
  core_run_succ (M := Sys2Proof.core)
    ((step_op hb hs hscript).trans (if_neg (by simp [hb]))) k

end

/-! ### The statements `wsrc` and `wlen` -/

theorem run_wsrc {bs : List Byte} {a k : Nat} {rest : List ScriptItem} {s : State}
    (hb : s.busy = false) (hs : s.sched = []) (hcap : a + bs.length ≤ s.cfg.srcCap)
    (hscript : s.script = wsrc a bs ++ rest) :
    Host.Core.run Sys2Proof.core (bs.length + k) s =
      Host.Core.run Sys2Proof.core k { s with src := Memory.storeAll a bs s.src, script := rest } := by
  induction bs generalizing a s with
  | nil =>
    obtain rfl : s.script = rest := hscript
    rw [List.length_nil, Nat.zero_add]
    rfl
  | cons b bs ih =>
    rw [List.length_cons] at hcap ⊢
    rw [Nat.add_right_comm, run_writeSrc hb hs (by omega) hscript]
    exact ih hb hs (by simp only; omega) rfl

theorem run_wlen {n k : Nat} {rest : List ScriptItem} {s : State} (hb : s.busy = false)
    (hs : s.sched = []) (hscript : s.script = wlen n ++ rest) :
    Host.Core.run Sys2Proof.core (k + 2) s = Host.Core.run Sys2Proof.core k
      { s with srcLenLo := loHalf n, srcLenHi := hiHalf n, script := rest } := by
  rw [run_writeSrcLenLo hb hs hscript]
  exact run_writeSrcLenHi hb hs rfl

/-! ### The whole `load` -/

/-- Bytes stored from address 0 with their number in SRC_LEN are the input (00_scope.md R2). -/
theorem State.input_eq {s : State} {bs : List Byte} (hlen : s.srcLen = bs.length)
    (hsrc : ∀ i, i < bs.length → s.src.lookup i = bs[i]?) : s.input = bs := by
  refine List.ext_getElem (s.input_length.trans hlen) fun i _ hi => ?_
  have hlookup : s.src.lookup i = some bs[i] := (hsrc i hi).trans (List.getElem?_eq_getElem hi)
  simp [State.input, State.srcByte_of_lookup hlookup]

/-- Settles O12: the writes of `wsrc`, then those of `wlen`. -/
theorem loadPlacesTheInput : Obligations.LoadPlacesTheInput := by
  intro bs rest s hb hs hcap hcfg hscript
  rw [load, List.append_assoc] at hscript
  refine ⟨_, (run_wsrc hb hs (by omega) hscript).trans (run_wlen (k := 0) hb hs rfl), ?_, rfl, rfl⟩
  refine State.input_eq (pairNat_halves bs.length (by omega)) fun i hi => ?_
  exact (Memory.lookup_storeAll i 0 bs s.src).trans (if_pos (by omega))

end Sys2Proof.Machine
end

section
/-! SUPPORT. The queue of R113 as a sorted list, and what the merging of `buildRef` spends: at most d bits
for each symbol when at most 2^d trees stand in the queue (41_tree_builder.md R112, R113,
47_decoder.md R171). -/

namespace Sys2Proof.Machine

/-! ### The order of the queue -/

theorem QItem.before_iff {x y : QItem} :
    x.before y = true ↔ x.weight < y.weight ∨ x.weight = y.weight ∧ x.index < y.index := by
  simp [QItem.before]

/-- No item stands behind one that comes after it in the order of R112. -/
abbrev SortedQueue (q : List QItem) : Prop := q.Pairwise fun x y => ¬ y.before x = true

theorem QItem.weight_le_of_not_before {x y : QItem} (h : ¬ y.before x = true) :
    x.weight ≤ y.weight := by
  rw [QItem.before_iff] at h
  omega

theorem enqueue_perm (x : QItem) (q : List QItem) : (enqueue x q).Perm (x :: q) := by
  induction q with
  | nil => exact .refl _
  | cons y q ih =>
    rw [enqueue]
    split
    · exact .refl _
    · exact (ih.cons y).trans (.swap x y q)

@[simp] theorem mem_enqueue {x z : QItem} {q : List QItem} : z ∈ enqueue x q ↔ z = x ∨ z ∈ q := by
  rw [(enqueue_perm x q).mem_iff, List.mem_cons]

@[simp] theorem enqueue_length (x : QItem) (q : List QItem) :
    (enqueue x q).length = q.length + 1 := (enqueue_perm x q).length_eq

theorem SortedQueue.enqueue {q : List QItem} (h : SortedQueue q) (x : QItem) :
    SortedQueue (enqueue x q) := by
  induction q with
  | nil => exact List.pairwise_singleton _ _
  | cons y q ih =>
    obtain ⟨hy, hq⟩ := List.pairwise_cons.1 h
    rw [Machine.enqueue]
    split
    · next hxy =>
      refine List.pairwise_cons.2 ⟨fun z hz => ?_, h⟩
      rw [QItem.before_iff] at hxy ⊢
      rcases List.mem_cons.1 hz with rfl | hz
      · omega
      · have := hy z hz
        rw [QItem.before_iff] at this
        omega
    · next hxy =>
      refine List.pairwise_cons.2 ⟨fun z hz => ?_, ih hq⟩
      rcases mem_enqueue.1 hz with rfl | hz
      · exact hxy
      · exact hy z hz

theorem SortedQueue.leafQueue (f : Byte → Nat) (syms : List Byte) (k : Nat) :
    SortedQueue (leafQueue f syms k) := by
  induction syms generalizing k with
  | nil => exact .nil
  | cons s syms ih => exact (ih (k + 1)).enqueue _

theorem leafQueue_length (f : Byte → Nat) (syms : List Byte) (k : Nat) :
    (leafQueue f syms k).length = syms.length := by
  induction syms generalizing k with
  | nil => rfl
  | cons s syms ih => rw [leafQueue, enqueue_length, ih, List.length_cons]

/-! ### What merging spends -/

/-- The weight of a tree's leaves under a frequency function. -/
def HTree.weight (f : Byte → Nat) : HTree → Nat
  | .leaf s => f s
  | .node l r => l.weight f + r.weight f

/-- The weights of a tree's internal nodes, summed up: what its paths spend. -/
def HTree.cost (f : Byte → Nat) : HTree → Nat
  | .leaf _ => 0
  | .node l r => l.cost f + r.cost f + (l.weight f + r.weight f)

/-- The weight in the first k places of a queue. -/
def headWeight (k : Nat) (q : List QItem) : Nat := ((q.take k).map fun x => x.weight).sum

/-- The weight of a whole queue. -/
def totalWeight (q : List QItem) : Nat := (q.map fun x => x.weight).sum

/-- What the trees in a queue have spent so far. -/
def totalCost (f : Byte → Nat) (q : List QItem) : Nat := (q.map fun x => x.tree.cost f).sum

@[simp] theorem headWeight_cons (k : Nat) (x : QItem) (q : List QItem) :
    headWeight (k + 1) (x :: q) = x.weight + headWeight k q := rfl

@[simp] theorem totalWeight_cons (x : QItem) (q : List QItem) :
    totalWeight (x :: q) = x.weight + totalWeight q := rfl

@[simp] theorem totalCost_cons (f : Byte → Nat) (x : QItem) (q : List QItem) :
    totalCost f (x :: q) = x.tree.cost f + totalCost f q := rfl

@[simp] theorem totalWeight_enqueue (x : QItem) (q : List QItem) :
    totalWeight (enqueue x q) = x.weight + totalWeight q := ((enqueue_perm x q).map _).sum_eq

@[simp] theorem totalCost_enqueue (f : Byte → Nat) (x : QItem) (q : List QItem) :
    totalCost f (enqueue x q) = x.tree.cost f + totalCost f q := ((enqueue_perm x q).map _).sum_eq

theorem headWeight_le_totalWeight (k : Nat) (q : List QItem) : headWeight k q ≤ totalWeight q :=
  ((List.take_sublist k q).map _).sum_le_sum fun _ _ => Nat.zero_le _

/-- One place more of a queue brings at least the weight that none of its items is below. -/
theorem add_headWeight_le {w k : Nat} {q : List QItem} (h : ∀ x ∈ q, w ≤ x.weight)
    (hk : k < q.length) : w + headWeight k q ≤ headWeight (k + 1) q := by
  induction q generalizing k with
  | nil => exact absurd hk (Nat.not_lt_zero k)
  | cons y q ih =>
    obtain ⟨hy, hq⟩ := List.forall_mem_cons.1 h
    cases k with
    | zero => rw [headWeight_cons]; exact Nat.add_le_add hy (Nat.zero_le _)
    | succ k =>
      have := ih hq (Nat.lt_of_succ_lt_succ hk)
      rw [headWeight_cons, headWeight_cons]
      omega

/-- A new item only makes the first places of a sorted queue lighter. -/
theorem headWeight_enqueue_le {x : QItem} {k : Nat} {q : List QItem} (h : SortedQueue q)
    (hk : k ≤ q.length) : headWeight k (enqueue x q) ≤ headWeight k q := by
  induction q generalizing k with
  | nil => obtain rfl := Nat.le_zero.1 hk; exact le_rfl
  | cons y q ih =>
    cases k with
    | zero => exact le_rfl
    | succ k =>
      obtain ⟨hy, hq⟩ := List.pairwise_cons.1 h
      rw [enqueue]
      split
      · next hxy =>
        have hx : x.weight ≤ y.weight := by rw [QItem.before_iff] at hxy; omega
        refine add_headWeight_le (List.forall_mem_cons.2 ⟨hx, fun z hz => hx.trans ?_⟩) hk
        exact QItem.weight_le_of_not_before (hy z hz)
      · exact Nat.add_le_add_left (ih hq (Nat.le_of_succ_le_succ hk)) _

/-- Every item carries the weight of its tree. -/
abbrev Weighted (f : Byte → Nat) (q : List QItem) : Prop := ∀ x ∈ q, x.weight = x.tree.weight f

/-- Merging a queue of at most 2^d trees spends at most d bits for each unit of weight. -/
def SpendsAtMost (f : Byte → Nat) (d : Nat) : Prop :=
  ∀ (fuel next : Nat) (q : List QItem) (t : HTree), mergeQueue fuel next q = some t →
    SortedQueue q → Weighted f q → q.length ≤ 2 ^ d → t.cost f ≤ totalCost f q + d * totalWeight q

/-- The idea of the bound: give the 2k lightest trees of a queue d + 1 bits and the others d, which is a
code as long as k + (n - 2k) ≤ 2^d. Merging the two lightest keeps this, and by the order of the
queue spends no more than the bit by which these two had more. -/
theorem SpendsAtMost.pairs {f : Byte → Nat} {d : Nat} (hd : SpendsAtMost f d) (k : Nat) :
    ∀ (fuel next : Nat) (q : List QItem) (t : HTree), mergeQueue fuel next q = some t →
      SortedQueue q → Weighted f q → 2 * k ≤ q.length → k + (q.length - 2 * k) ≤ 2 ^ d →
      t.cost f ≤ totalCost f q + d * totalWeight q + headWeight (2 * k) q := by
  induction k with
  | zero =>
    intro fuel next q t ht hs hw _ hlen
    exact hd fuel next q t ht hs hw (by omega)
  | succ k ih =>
    intro fuel next q t ht hs hw hk hlen
    match q, fuel with
    | [], _ => simp at hk
    | [_], _ => simp only [List.length_singleton] at hk; omega
    | x :: y :: q, 0 => cases ht
    | x :: y :: q, fuel + 1 =>
      rw [mergeQueue] at ht
      simp only [List.length_cons] at hk hlen
      obtain ⟨hx, hw⟩ := List.forall_mem_cons.1 hw
      obtain ⟨hy, hw⟩ := List.forall_mem_cons.1 hw
      have hs := (List.pairwise_cons.1 (List.pairwise_cons.1 hs).2).2
      have hnew := ih fuel (next + 1) _ t ht (SortedQueue.enqueue hs _)
        (fun z hz => (mem_enqueue.1 hz).elim (fun hz => by rw [hz, hx, hy]; rfl) (hw z))
        (by rw [enqueue_length]; omega) (by rw [enqueue_length]; omega)
      have hhead := headWeight_enqueue_le (x := ⟨x.weight + y.weight, next, .node x.tree y.tree⟩)
        (k := 2 * k) hs (by omega)
      rw [totalCost_enqueue, totalWeight_enqueue, HTree.cost, ← hx, ← hy] at hnew
      simp only at hnew
      rw [totalCost_cons, totalCost_cons, totalWeight_cons, totalWeight_cons, Nat.mul_succ,
        headWeight_cons, headWeight_cons, ← Nat.add_assoc x.weight y.weight (totalWeight q)]
      omega

theorem spendsAtMost (f : Byte → Nat) (d : Nat) : SpendsAtMost f d := by
  induction d with
  | zero =>
    intro fuel next q t ht _ _ hlen
    match q with
    | [] => cases fuel <;> cases ht
    | [x] => cases fuel <;> cases ht <;> simp
    | _ :: _ :: q => simp at hlen
  | succ d ih =>
    intro fuel next q t ht hs hw hlen
    have h := ih.pairs (q.length / 2) fuel next q t ht hs hw (by omega)
      (by rw [pow_succ] at hlen; omega)
    have := headWeight_le_totalWeight (2 * (q.length / 2)) q
    rw [Nat.succ_mul]
    omega

/-! ### The leaves -/

theorem leafQueue_weighted (f : Byte → Nat) (syms : List Byte) (k : Nat) :
    Weighted f (leafQueue f syms k) := by
  induction syms generalizing k with
  | nil => exact fun x hx => by cases hx
  | cons s syms ih => exact fun x hx => (mem_enqueue.1 hx).elim (fun hx => by rw [hx]; rfl) (ih _ x)

theorem totalCost_leafQueue (f : Byte → Nat) (syms : List Byte) (k : Nat) :
    totalCost f (leafQueue f syms k) = 0 := by
  induction syms generalizing k with
  | nil => rfl
  | cons s syms ih => rw [leafQueue, totalCost_enqueue, ih]; rfl

theorem totalWeight_leafQueue (f : Byte → Nat) (syms : List Byte) (k : Nat) :
    totalWeight (leafQueue f syms k) = (syms.map f).sum := by
  induction syms generalizing k with
  | nil => rfl
  | cons s syms ih => rw [leafQueue, totalWeight_enqueue, ih]; rfl

/-- The tree of R101 spends at most 8 bits for each symbol, for there are at most 2^8 leaves. -/
theorem buildRef_cost_le {f : Byte → Nat} {t : HTree} (h : buildRef f = some t) :
    t.cost f ≤ 8 * (allSymbols.map f).sum := by
  have hlen : (presentSymbols f).length ≤ 2 ^ 8 :=
    (List.length_filter_le _ _).trans_eq allSymbols_length
  have hspend := spendsAtMost f 8 _ _ _ t h (SortedQueue.leafQueue f _ 0)
    (leafQueue_weighted f _ 0) (by rw [leafQueue_length]; exact hlen)
  rw [totalCost_leafQueue, totalWeight_leafQueue, Nat.zero_add] at hspend
  refine hspend.trans (Nat.mul_le_mul_left 8 ?_)
  exact (List.filter_sublist.map f).sum_le_sum fun _ _ => Nat.zero_le _

/-! ### Paths and cost -/

/-- The frequency of a symbol that has a leaf, 0 for every other symbol. -/
def HTree.freqOf (f : Byte → Nat) (t : HTree) (c : Byte) : Nat :=
  if (t.path c).isSome then f c else 0

/-- What the path to a symbol spends. -/
def HTree.pathCost (f : Byte → Nat) (t : HTree) (c : Byte) : Nat :=
  f c * ((t.path c).getD []).length

/-- A path through a node goes left if the symbol has a leaf there, and right otherwise (R121). -/
theorem HTree.path_node (l r : HTree) (c : Byte) :
    (HTree.node l r).path c = ((l.path c).map (false :: ·)).or ((r.path c).map (true :: ·)) := by
  rw [HTree.path]
  cases l.path c <;> rfl

theorem HTree.freqOf_node_le (f : Byte → Nat) (l r : HTree) (c : Byte) :
    (HTree.node l r).freqOf f c ≤ l.freqOf f c + r.freqOf f c := by
  unfold HTree.freqOf
  rw [HTree.path_node]
  cases l.path c <;> cases r.path c <;> simp

/-- A path through a node spends one bit more than the path below it. -/
theorem HTree.pathCost_node_le (f : Byte → Nat) (l r : HTree) (c : Byte) :
    (HTree.node l r).pathCost f c ≤
      l.pathCost f c + r.pathCost f c + (l.freqOf f c + r.freqOf f c) := by
  unfold HTree.pathCost HTree.freqOf
  rw [HTree.path_node]
  cases l.path c <;> cases r.path c <;> simp [Nat.mul_succ]
  omega

theorem sum_allSymbols (g : Byte → Nat) :
    (allSymbols.map g).sum = ∑ c ∈ allSymbols.toFinset, g c :=
  (List.sum_toFinset g allSymbols_nodup).symm

/-- A sum over the symbols to which one symbol alone adds something. -/
theorem sum_allSymbols_single (g : Byte → Nat) (a : Byte) :
    (allSymbols.map fun c => if a = c then g c else 0).sum = g a := by
  rw [sum_allSymbols, Finset.sum_ite_eq, if_pos (List.mem_toFinset.2 (mem_allSymbols a))]

theorem sum_allSymbols_le {g k : Byte → Nat} (h : ∀ c, g c ≤ k c) :
    (allSymbols.map g).sum ≤ (allSymbols.map k).sum :=
  List.sum_le_sum fun c _ => h c

theorem sum_allSymbols_add (g k : Byte → Nat) :
    (allSymbols.map fun c => g c + k c).sum = (allSymbols.map g).sum + (allSymbols.map k).sum :=
  List.sum_map_add

theorem HTree.sum_freqOf_le (f : Byte → Nat) (t : HTree) :
    (allSymbols.map (t.freqOf f)).sum ≤ t.weight f := by
  induction t with
  | leaf s =>
    refine (sum_allSymbols_le fun c => ?_).trans_eq (sum_allSymbols_single f s)
    unfold HTree.freqOf HTree.path
    split <;> simp
  | node l r ihl ihr =>
    calc _ ≤ _ := sum_allSymbols_le (HTree.freqOf_node_le f l r)
      _ = _ := sum_allSymbols_add _ _
      _ ≤ _ := Nat.add_le_add ihl ihr

theorem HTree.sum_pathCost_le (f : Byte → Nat) (t : HTree) :
    (allSymbols.map (t.pathCost f)).sum ≤ t.cost f := by
  induction t with
  | leaf s =>
    refine (sum_allSymbols_le (k := fun _ => 0) fun c => ?_).trans_eq
      (by rw [List.map_const', List.sum_replicate, smul_zero]; rfl)
    unfold HTree.pathCost HTree.path
    split <;> simp
  | node l r ihl ihr =>
    calc _ ≤ _ := sum_allSymbols_le (HTree.pathCost_node_le f l r)
      _ = _ := by rw [sum_allSymbols_add, sum_allSymbols_add, sum_allSymbols_add]
      _ ≤ _ := Nat.add_le_add (Nat.add_le_add ihl ihr)
        (Nat.add_le_add (l.sum_freqOf_le f) (r.sum_freqOf_le f))

/-- Settles O56: a lone leaf spends one bit a symbol; in every other tree the paths spend the weights of
the internal nodes, and merging keeps these within 8 bits a symbol. -/
theorem buildAndGenCodeSpendAtMostEightBits : Obligations.BuildAndGenCodeSpendAtMostEightBits := by
  intro f t h
  cases t with
  | leaf s =>
    refine (sum_allSymbols_le fun c => ?_).trans (Nat.le_mul_of_pos_left _ (Nat.zero_lt_succ 7))
    rw [HTree.code]
    split <;> simp
  | node l r => exact ((HTree.node l r).sum_pathCost_le f).trans (buildRef_cost_le h)

end Sys2Proof.Machine
end

section
/-! SUPPORT. The host commands one by one: acceptance, NOP, the dispatch of COMPRESS, DECOMPRESS, CLEAR
and the illegal words, the success epilogue, and the step that runs them (40_commands.md R90 to R100). -/

namespace Sys2Proof.Machine

/-! ### Acceptance and NOP -/

theorem hostWriteCsr_zero_of_idle {s : State} (hb : s.busy = false) (v : Word) :
    hostWriteCsr 0 v s = hostWriteCmd v s := if_neg (by simp [hb])

/-- An accepted word leaves BUSY as the only bit of STATUS (R68, R90). -/
theorem State.accept_statusWord (s : State) (v : Word) : (s.accept v).statusWord = 0x00000001#32 :=
  (by decide : (State.reset.accept 0).statusWord = _)

/-- Settles O11: a write while busy, of the zero word, and of every other word. -/
theorem acceptanceRule : Obligations.AcceptanceRule := by
  intro v s
  refine ⟨fun hb => hostWriteCsr_busy hb 0 v, fun hb hv => ?_, fun hb hv => ?_⟩
  · rw [hostWriteCsr_zero_of_idle hb, hv, hostWriteCmd_zero]
  · rw [hostWriteCsr_zero_of_idle hb, hostWriteCmd_of_ne_zero hv]
    exact ⟨s.accept v, rfl, rfl, rfl, rfl, rfl, rfl, rfl, s.accept_dstLen v,
      s.accept_statusWord v, rfl⟩

/-- Settles O13: the write of the zero word is ignored while busy and is NOP otherwise. -/
theorem nopChangesNothing : Obligations.NopChangesNothing := by
  intro s
  refine ⟨rfl, ?_⟩
  cases hb : s.busy with
  | true => exact hostWriteCsr_busy hb 0 _
  | false => rw [hostWriteCsr_zero_of_idle hb]; exact hostWriteCmd_zero s

/-! ### Dispatch -/

/-- Settles O14: the two checks of R94 and R187, in this order. -/
theorem compressDispatches : Obligations.CompressDispatches := by
  intro s
  refine ⟨fun hlong => if_pos hlong, fun hempty => ?_, fun hpos hlen => ?_⟩
  · have hfits : ¬ s.cfg.srcCap < s.srcLen := by omega
    exact (if_neg hfits).trans (if_pos hempty)
  · have hne : ¬ s.srcLen = 0 := by omega
    exact (if_neg (Nat.not_lt.2 hlen)).trans (if_neg hne)

/-- Settles O15: the check of R94. -/
theorem decompressDispatches : Obligations.DecompressDispatches :=
  fun _ => ⟨fun hlong => if_pos hlong, fun hlen => if_neg (Nat.not_lt.2 hlen)⟩

/-- The engine dispatches the word it has latched (R92). -/
theorem engineStep_accepted {s : State} {w : Word} (h : s.accepted w) (hw : w ≠ 0) :
    engineStep s = exec (decodeCommand w) s := by
  obtain ⟨hb, hp, rfl⟩ := h
  rw [engineStep_busy hb, engineInstr_of_phase, hp]
  exact congrArg (exec · s) (if_neg hw)

theorem State.cleared_srcLen (s : State) : s.cleared.srcLen = 0 := s.raise_dstLen .badLength

/-- Settles O16: what CLEAR leaves is `State.cleared`. -/
theorem clearRestoresResetValues : Obligations.ClearRestoresResetValues := fun s =>
  ⟨fun h => engineStep_accepted h (by decide), fun hb => hostWriteCsr_busy hb 0 _,
    s.cleared, rfl, s.cleared_statusWord, s.cleared_srcLen, s.cleared_dstLen, rfl, rfl, rfl⟩

/-- Settles O18. -/
theorem illegalTakesTheError : Obligations.IllegalTakesTheError := fun _ _ => rfl

theorem State.raise_illegalCommand_statusWord (s : State) :
    (s.raise .illegalCommand).statusWord = 0x00000096#32 :=
  (by decide : (State.reset.raise .illegalCommand).statusWord = _)

/-- Settles O17: acceptance, and then the dispatch of a word that decodes to ILLEGAL. -/
theorem illegalWordsFail : Obligations.IllegalWordsFail := by
  intro w s hw hb
  have hne : w ≠ 0 := by rintro rfl; exact absurd hw (by decide)
  refine ⟨s.accept w, (s.accept w).prologue.raise .illegalCommand, ?_, s.accept_statusWord w,
    s.accept_dstLen w, ?_, rfl, State.raise_illegalCommand_statusWord _,
    State.failedWith_raise _ _, rfl, rfl, rfl⟩
  · rw [hostWriteCsr_zero_of_idle hb, hostWriteCmd_of_ne_zero hne]
  · have hacc : (s.accept w).accepted w := ⟨rfl, rfl, rfl⟩
    rw [engineStep_accepted hacc hne, decodeCommand_of_four_le hw]

/-! ### The success epilogue -/

theorem State.succeed_statusWord (s : State) (n : Nat) :
    (s.succeed n).statusWord = 0x00000002#32 :=
  (by decide : (State.reset.succeed 0).statusWord = _)

/-- Settles O20. -/
theorem successEpilogueRule : Obligations.SuccessEpilogueRule := fun n s hn =>
  ⟨s.dstLen_succeed n hn, s.succeed_statusWord n, rfl⟩

/-! ### The step -/

/-- What the control word decodes to is what the engine runs (R92, R100). -/
theorem engineInstr_of_decode_controlWord {s : State} {i : Instr} (hlatch : s.cmdLatch ≠ 0)
    (h : decode s.controlWord = .ok i) : s.engineInstr = i := by
  unfold State.controlWord at h
  split at h
  · next hp =>
    rw [engineInstr_of_phase, hp]
    exact (if_neg hlatch).trans (Except.ok.inj h)
  · exact State.engineInstr_of_decodePhase h

/-- A host turn that writes the zero word to `csr[CMD]` is NOP (R91). -/
theorem hostStep_writes_zero {s : State} {more : List ScriptItem}
    (hscript : s.script = .op (.writeCsr 0 0) :: more) :
    hostStep s = exec .nop { s with script := more } := by
  rw [hostStep, hscript]
  obtain ⟨hexec, hwrite⟩ := nopChangesNothing { s with script := more }
  exact hwrite.trans hexec.symm

/-- Settles O42, by the turn that is due. -/
theorem stepRunsTheDecodedInstruction : Obligations.StepRunsTheDecodedInstruction := by
  intro s i rest more
  refine ⟨fun hb hlatch hdec => ?_, fun hb hscript => ?_⟩
  · have hinstr := engineInstr_of_decode_controlWord hlatch hdec
    refine ⟨fun hs => ?_, fun hs => ?_⟩
    · rw [step_nil_busy hs hb, engineStep_busy hb, hinstr]
    · rw [step_cons hs, ← hinstr]
      exact engineStep_busy (s := { s with sched := rest }) hb
  · refine ⟨fun hs => ?_, fun hs => ?_⟩
    · rw [step_nil_idle hs hb, hostStep_writes_zero hscript]
    · rw [step_cons hs]
      exact hostStep_writes_zero (s := { s with sched := rest }) hscript

end Sys2Proof.Machine
end

section
/-! SUPPORT. How a command ends: a piece of a phase with what it leaves and which errors it can raise
(`Run.meets`), and an engine run that ends with a given result (`State.endsAs`), taken phase by phase
(40_commands.md R95 to R97, R100, R101, R102). -/

namespace Sys2Proof.Machine

/-! ### A piece of a phase -/

/-- The piece is not stuck; where it goes on, the state meets P, and where it raises, the kind meets
E. -/
def Run.meets (P : State → Prop) (E : ErrorKind → Prop) : Run → Prop
  | .ok t => P t
  | .raised k _ => E k
  | .stuck _ => False

theorem Run.meets.mono {P Q : State → Prop} {E : ErrorKind → Prop} {r : Run} (h : r.meets P E)
    (hPQ : ∀ t, P t → Q t) : r.meets Q E := by
  cases r with
  | ok t => exact hPQ t h
  | raised k t => exact h
  | stuck e => exact h

theorem Run.meets.mono_error {P : State → Prop} {E F : ErrorKind → Prop} {r : Run}
    (h : r.meets P E) (hEF : ∀ k, E k → F k) : r.meets P F := by
  cases r with
  | ok t => exact h
  | raised k t => exact hEF k h
  | stuck e => exact h

theorem Run.meets.andThen {P Q : State → Prop} {E : ErrorKind → Prop} {r : Run} {f : State → Run}
    (h : r.meets P E) (hf : ∀ t, P t → (f t).meets Q E) : (r.andThen f).meets Q E := by
  cases r with
  | ok t => exact hf t h
  | raised k t => exact h
  | stuck e => exact h

theorem Run.meets_ite {P : State → Prop} {E : ErrorKind → Prop} {c : Prop} [Decidable c]
    {r r' : Run} (h : c → r.meets P E) (h' : ¬ c → r'.meets P E) :
    (if c then r else r').meets P E := by
  split
  · next hc => exact h hc
  · next hc => exact h' hc

theorem Run.ends_of_meets {P : State → Prop} {E : ErrorKind → Prop} {r : Run} (h : r.meets P E) :
    r.ends P := by
  cases r with
  | ok t => exact h
  | raised k t => trivial
  | stuck e => exact h

/-- A piece that raises nothing goes on. -/
theorem Run.eq_ok_of_meets {P : State → Prop} {r : Run} (h : r.meets P fun _ => False) :
    ∃ t, r = .ok t ∧ P t := by
  cases r with
  | ok t => exact ⟨t, rfl, h⟩
  | raised k t => exact h.elim
  | stuck e => exact h.elim

/-- A body that meets P has written only what its phase writes (R20, R28). -/
theorem phaseBody_meets_written {P : State → Prop} {E : ErrorKind → Prop} {p : Phase} {s : State}
    (h : (phaseBody p s).meets P E) :
    (phaseBody p s).meets (fun t => ∃ m u, t = { s with dst := m, tr := u } ∧
      s.tr.writtenOnly p u ∧ P { s with dst := m, tr := u }) E := by
  have hframe := phaseBody_onlyDstTr p s
  have hwrites := phaseBody_writes p s
  cases hbody : phaseBody p s with
  | stuck e => rw [hbody] at h; exact h
  | raised k t => rw [hbody] at h; exact h
  | ok t =>
    rw [hbody] at h hframe hwrites
    have ht : t = { s with dst := t.dst, tr := t.tr } := hframe
    have hrefl : s.tr.writtenOnly p s.tr := by cases p <;> rfl
    have hwritten : s.tr.writtenOnly p t.tr := hwrites.1.keeps
      (P := fun u => s.tr.writtenOnly p u.tr) (fun hw hu => hu.trans hw.writtenOnly) hrefl
    exact ⟨t.dst, t.tr, ht, hwritten, ht ▸ h⟩

/-! ### The rest of a command -/

/-- The engine needs at most n steps to the end of the command, which ends with this result; SRC and
SRC_LEN stay. -/
def State.endsAs (n : Nat) (r : Except ErrorKind (List Byte)) (s : State) : Prop :=
  ∃ t, engineRun n s = .next t ∧ t.src = s.src ∧ t.srcLen = s.srcLen ∧
    (∀ out, r = .ok out → t.endedWith out) ∧ ∀ k, r = .error k → t.failedWith k

/-- Phase p of the command w is in progress. -/
structure State.Running (w : Word) (p : Phase) (s : State) : Prop where
  busy : s.busy = true
  phase : s.phase = p
  latch : s.cmdLatch = w

theorem State.raise_endsAs (s : State) (k : ErrorKind) (n : Nat) :
    (s.raise k).endsAs n (.error k) := by
  refine ⟨s.raise k, engineRun_idle n rfl, rfl, rfl, nofun, ?_⟩
  rintro _ ⟨⟩
  exact s.failedWith_raise k

theorem State.succeed_endsAs {s : State} {n : Nat} {out : List Byte}
    (h : (s.succeed n).holdsResult out) (k : Nat) : (s.succeed n).endsAs k (.ok out) := by
  refine ⟨s.succeed n, engineRun_idle k rfl, rfl, rfl, ?_, nofun⟩
  rintro _ ⟨⟩
  exact ⟨rfl, rfl, rfl, rfl, rfl, h⟩

theorem State.endsAs_of_step {s t : State} {n : Nat} {r : Except ErrorKind (List Byte)}
    (hb : s.busy = true) (hstep : engineStep s = .next t) (hsrc : t.src = s.src)
    (hlen : t.srcLen = s.srcLen) (h : t.endsAs n r) : s.endsAs (n + 1) r := by
  obtain ⟨u, hrun, husrc, hulen, hend⟩ := h
  exact ⟨u, (engineRun_succ n hb hstep).trans hrun, husrc.trans hsrc, hulen.trans hlen, hend⟩

/-- Transfer of control after a phase (R95, R97, R100): to the next phase of the path, or to the success
epilogue with length WPTR. -/
def State.transfer (after : Option Phase) (t : State) : State :=
  match after with
  | some q => { t with phase := q }
  | none => t.succeed t.tr.wptr

theorem State.runPhase_of_ok {s t : State} {p : Phase} {after : Option Phase} {body : State → Run}
    (hafter : phaseAfter p (phasePath s.cmdLatch) = some after) (hbody : body s = .ok t) :
    s.runPhase p body = .next (t.transfer after) := by
  rw [State.runPhase, hafter]
  simp only [hbody]
  cases after <;> rfl

theorem State.runPhase_of_raised {s t : State} {p : Phase} {after : Option Phase}
    {body : State → Run} {k : ErrorKind}
    (hafter : phaseAfter p (phasePath s.cmdLatch) = some after) (hbody : body s = .raised k t) :
    s.runPhase p body = .next (t.raise k) := by
  rw [State.runPhase, hafter]
  simp only [hbody]

/-- A phase raises the command's error, or the rest of the command ends as the command does. -/
theorem State.Running.endsAs {w : Word} {p : Phase} {after : Option Phase} {s : State}
    (h : s.Running w p) (hp : p ≠ .idle) (hafter : phaseAfter p (phasePath w) = some after)
    {P : State → Prop} {n : Nat} {r : Except ErrorKind (List Byte)}
    (hbody : (phaseBody p s).meets P fun k => r = .error k)
    (hnext : ∀ m u, s.tr.writtenOnly p u → P { s with dst := m, tr := u } →
      (({ s with dst := m, tr := u } : State).transfer after).endsAs n r) :
    s.endsAs (n + 1) r := by
  obtain ⟨hb, rfl, rfl⟩ := h
  have hstep := engineStep_eq_runPhase hb hp
  have hframe := phaseBody_onlyDstTr s.phase s
  have hwritten := phaseBody_meets_written hbody
  cases hrun : phaseBody s.phase s with
  | stuck e => rw [hrun] at hwritten; exact hwritten.elim
  | raised k t =>
    rw [hrun] at hwritten hframe
    rw [State.runPhase_of_raised hafter hrun] at hstep
    have ht : t = { s with dst := t.dst, tr := t.tr } := hframe
    obtain rfl : r = .error k := hwritten
    refine State.endsAs_of_step hb hstep ?_ ?_ (t.raise_endsAs k n)
    · rw [State.raise_src, ht]
    · rw [State.raise_srcLen, ht]; rfl
  | ok t =>
    rw [hrun] at hwritten
    rw [State.runPhase_of_ok hafter hrun] at hstep
    obtain ⟨m, u, rfl, hu, hP⟩ := hwritten
    refine State.endsAs_of_step hb hstep ?_ ?_ (hnext m u hu hP)
    · cases after <;> rfl
    · cases after <;> rfl

/-- Bytes of DST below a length that fits DST_CAP are the result of the success epilogue (R96). -/
theorem State.holdsResult_succeed {s : State} {out : List Byte} (hfit : out.length < 2 ^ 64)
    (hdst : ∀ i, i < out.length → s.dst.lookup i = out[i]?) :
    (s.succeed out.length).holdsResult out := ⟨s.dstLen_succeed out.length hfit, hdst⟩

end Sys2Proof.Machine
end

section
/-! SUPPORT. BUILD and `Build`: the arena beside the queue of trees of R101. What the queue of the arena
holds at every moment is what `mergeQueue` has in its list, so the tree under ROOT is the tree of
`buildRef` (41_tree_builder.md R110 to R115, 40_commands.md R101). -/

namespace Sys2Proof.Machine

/-! ### The symbols of a tree -/

/-- The symbols at the leaves, from left to right. -/
def HTree.symbols : HTree → List Byte
  | .leaf c => [c]
  | .node l r => l.symbols ++ r.symbols

theorem HTree.path_isSome {t : HTree} {c : Byte} : (t.path c).isSome = true ↔ c ∈ t.symbols := by
  induction t with
  | leaf d =>
    rw [HTree.path, HTree.symbols, List.mem_singleton]
    split
    · next h => simp [h]
    · next h => simp [Ne.symm h]
  | node l r ihl ihr => simp [HTree.path_node, HTree.symbols, ihl, ihr]

theorem HTree.path_eq_none {t : HTree} {c : Byte} (h : c ∉ t.symbols) : t.path c = none := by
  rwa [← HTree.path_isSome, Bool.not_eq_true, Option.isSome_eq_false_iff, Option.isNone_iff_eq_none]
    at h

/-- The symbols of all the trees in a queue. -/
def queueSymbols (q : List QItem) : List Byte := q.flatMap fun x => x.tree.symbols

theorem queueSymbols_enqueue (x : QItem) (q : List QItem) :
    (queueSymbols (enqueue x q)).Perm (x.tree.symbols ++ queueSymbols q) :=
  (enqueue_perm x q).flatMap_right _

theorem queueSymbols_leafQueue (f : Byte → Nat) (syms : List Byte) (k : Nat) :
    (queueSymbols (leafQueue f syms k)).Perm syms := by
  induction syms generalizing k with
  | nil => exact .refl _
  | cons s syms ih => exact (queueSymbols_enqueue _ _).trans ((ih (k + 1)).cons s)

/-- Merging keeps the leaves. -/
theorem mergeQueue_symbols {fuel next : Nat} {q : List QItem} {t : HTree}
    (h : mergeQueue fuel next q = some t) : t.symbols.Perm (queueSymbols q) := by
  induction fuel generalizing next q with
  | zero =>
    match q with
    | [] => cases h
    | [x] => cases h; simp [queueSymbols]
    | _ :: _ :: q => cases h
  | succ fuel ih =>
    match q with
    | [] => cases h
    | [x] => cases h; simp [queueSymbols]
    | x :: y :: q =>
      refine ((ih h).trans (queueSymbols_enqueue _ _)).trans ?_
      rw [HTree.symbols, List.append_assoc]
      exact .refl _

/-- The tree of R101 has one leaf for each symbol with a frequency. -/
theorem buildRef_symbols {f : Byte → Nat} {t : HTree} (h : buildRef f = some t) :
    t.symbols.Perm (presentSymbols f) := (mergeQueue_symbols h).trans (queueSymbols_leafQueue f _ 0)

theorem buildRef_symbols_nodup {f : Byte → Nat} {t : HTree} (h : buildRef f = some t) :
    t.symbols.Nodup := (buildRef_symbols h).nodup_iff.2 (allSymbols_nodup.filter _)

/-! ### Trees in the arena -/

/-- Below index i, in the first k slots of the arena, stands this tree. -/
def Transient.holds (t : Transient) (k : Nat) : HTree → Nat → Prop
  | .leaf c, i => i < k ∧ ∃ v, t.nodeAt i = some v ∧ v.isLeaf = true ∧ v.sym = c
  | .node l r, i => i < k ∧ ∃ v, t.nodeAt i = some v ∧ v.isLeaf = false ∧
      t.holds k l v.left ∧ t.holds k r v.right

theorem Transient.holds.lt {t : Transient} {k i : Nat} {T : HTree} (h : t.holds k T i) : i < k := by
  cases T <;> exact h.1

/-- The same slots, and perhaps more of them, hold the same tree. -/
theorem Transient.holds.of_nodes {t u : Transient} {k m i : Nat} {T : HTree} (h : t.holds k T i)
    (hkm : k ≤ m) (hnode : ∀ j, j < k → u.nodeAt j = t.nodeAt j) : u.holds m T i := by
  induction T generalizing i with
  | leaf c =>
    obtain ⟨hi, v, hv, hleaf, hsym⟩ := h
    exact ⟨by omega, v, (hnode i hi).trans hv, hleaf, hsym⟩
  | node l r ihl ihr =>
    obtain ⟨hi, v, hv, hleaf, hl, hr⟩ := h
    exact ⟨by omega, v, (hnode i hi).trans hv, hleaf, ihl hl, ihr hr⟩

theorem Transient.holds.of_node_eq {t u : Transient} {k i : Nat} {T : HTree} (h : t.holds k T i)
    (hnode : u.node = t.node) : u.holds k T i :=
  h.of_nodes le_rfl fun j _ => by rw [Transient.nodeAt, hnode]; rfl

theorem Transient.lt_of_nodeAt {t : Transient} {i : Nat} {v : Node} (h : t.nodeAt i = some v) :
    i < 511 := (Vector.getElem?_eq_some_iff.1 h).1

/-- The arena has 511 slots (R24). -/
theorem Transient.holds.arena {t : Transient} {k i : Nat} {T : HTree} (h : t.holds k T i) :
    t.holds 511 T i := by
  induction T generalizing i with
  | leaf c =>
    obtain ⟨-, v, hv, hleaf, hsym⟩ := h
    exact ⟨Transient.lt_of_nodeAt hv, v, hv, hleaf, hsym⟩
  | node l r ihl ihr =>
    obtain ⟨-, v, hv, hleaf, hl, hr⟩ := h
    exact ⟨Transient.lt_of_nodeAt hv, v, hv, hleaf, ihl hl, ihr hr⟩

/-- A node in the slot after them leaves the first k slots alone. -/
theorem Transient.holds.push {t : Transient} {k i : Nat} {T : HTree} (h : t.holds k T i) (v : Node) :
    ((t.setNode k v).setInq k true).holds (k + 1) T i :=
  h.of_nodes (Nat.le_succ k) fun j hj => by
    rw [Transient.nodeAt_setInq, Transient.nodeAt_setNode, if_neg (by omega)]

/-! ### The queue of the arena -/

/-- The queue of the arena is q: its indices are those of the items, each of which stands, with its
weight, in the first k slots. -/
structure Transient.Queued (t : Transient) (k : Nat) (q : List QItem) : Prop where
  distinct : (q.map fun x => x.index).Nodup
  queued : ∀ i, t.inqAt i = true ↔ ∃ x ∈ q, x.index = i
  weight : ∀ x ∈ q, t.weightAt x.index = x.weight
  holds : ∀ x ∈ q, t.holds k x.tree x.index

theorem Transient.Queued.perm {t : Transient} {k : Nat} {q q' : List QItem} (h : t.Queued k q)
    (hp : q.Perm q') : t.Queued k q' where
  distinct := (hp.map _).nodup_iff.1 h.distinct
  queued i := by simp only [h.queued i, hp.mem_iff]
  weight x hx := h.weight x (hp.mem_iff.2 hx)
  holds x hx := h.holds x (hp.mem_iff.2 hx)

/-- The queue is a matter of NODE and INQ alone. -/
theorem Transient.Queued.of_eq {t u : Transient} {k : Nat} {q : List QItem} (h : t.Queued k q)
    (hnode : u.node = t.node) (hinq : u.inq = t.inq) : u.Queued k q where
  distinct := h.distinct
  queued i := by rw [Transient.inqAt, hinq]; exact h.queued i
  weight x hx := by rw [Transient.weightAt, Transient.nodeAt, hnode]; exact h.weight x hx
  holds x hx := (h.holds x hx).of_node_eq hnode

theorem Transient.Queued.queue_length {t : Transient} {k : Nat} {q : List QItem}
    (h : t.Queued k q) : t.queue.length = q.length := by
  have hp : t.queue.Perm (q.map fun x => x.index) := by
    rw [List.perm_ext_iff_of_nodup (t.queue_pairwise.imp fun hlt => Nat.ne_of_lt hlt) h.distinct]
    intro i
    rw [Transient.mem_queue, h.queued i, List.mem_map]
  rw [hp.length_eq, List.length_map]

theorem Transient.Queued.pop {t : Transient} {k : Nat} {x : QItem} {q : List QItem}
    (h : t.Queued k (x :: q)) : (t.setInq x.index false).Queued k q where
  distinct := (List.nodup_cons.1 h.distinct).2
  queued i := by
    obtain ⟨hx, -⟩ := List.nodup_cons.1 h.distinct
    have hlt : x.index < 511 :=
      Transient.lt_of_inqAt ((h.queued x.index).2 ⟨x, List.mem_cons_self, rfl⟩)
    rw [Transient.inqAt_setInq]
    split
    · next hi =>
      rw [← hi.1]
      exact ⟨nofun, fun hq => absurd (List.mem_map.2 hq) hx⟩
    · next hi =>
      have hne : x.index ≠ i := fun he => hi ⟨he, hlt⟩
      rw [h.queued i, List.exists_mem_cons_iff]
      exact or_iff_right hne
  weight y hy := h.weight y (List.mem_cons_of_mem _ hy)
  holds y hy := (h.holds y (List.mem_cons_of_mem _ hy)).of_node_eq rfl

/-- A node for a new tree in the next slot, put into the queue. -/
theorem Transient.Queued.push {t : Transient} {k : Nat} {q : List QItem} (h : t.Queued k q)
    (hk : k < 511) {v : Node} {T : HTree}
    (hT : ((t.setNode k v).setInq k true).holds (k + 1) T k) :
    ((t.setNode k v).setInq k true).Queued (k + 1) (⟨v.weight, k, T⟩ :: q) := by
  have hlt : ∀ x ∈ q, x.index < k := fun x hx => (h.holds x hx).lt
  refine ⟨List.nodup_cons.2 ⟨fun hmem => ?_, h.distinct⟩, fun i => ?_, ?_, ?_⟩
  · obtain ⟨x, hx, hi⟩ := List.mem_map.1 hmem
    exact absurd hi (hlt x hx).ne
  · rw [Transient.inqAt_setInq, Transient.inqAt_setNode, List.exists_mem_cons_iff]
    split
    · next hi => exact ⟨fun _ => .inl hi.1, fun _ => rfl⟩
    · next hi =>
      rw [h.queued i]
      exact (or_iff_right fun he => hi ⟨he, hk⟩).symm
  · refine List.forall_mem_cons.2 ⟨?_, fun x hx => ?_⟩
    · simp [Transient.weightAt, Transient.nodeAt_setNode, hk]
    · have := (hlt x hx).ne'
      rw [← h.weight x hx, Transient.weightAt, Transient.nodeAt_setInq, Transient.nodeAt_setNode,
        if_neg fun he => this he.1]
      rfl
  · exact List.forall_mem_cons.2 ⟨hT, fun x hx => (h.holds x hx).push v⟩

/-! ### PopMin -/

theorem Transient.before_iff {t : Transient} {i j : Nat} :
    t.before i j = true ↔
      t.weightAt i < t.weightAt j ∨ t.weightAt i = t.weightAt j ∧ i < j := by
  simp [Transient.before]

/-- No index of a list stands before its least one in the order of R112. -/
theorem Transient.not_before_least {t : Transient} {l : List Nat} {i : Nat}
    (h : t.least l = some i) : ∀ j ∈ l, ¬ t.before j i = true := by
  induction l generalizing i with
  | nil => cases h
  | cons k l ih =>
    have hself : ¬ t.before k k = true := by rw [Transient.before_iff]; omega
    by_cases hl : l = []
    · subst hl
      cases h
      exact List.forall_mem_singleton.2 hself
    · obtain ⟨m, -, hm⟩ := t.least_mem hl
      have hrest := ih hm
      rw [Transient.least, hm] at h
      simp only at h
      split at h
      · next hmk =>
        cases h
        refine List.forall_mem_cons.2 ⟨?_, hrest⟩
        rw [Transient.before_iff] at hmk ⊢
        omega
      · next hmk =>
        cases h
        refine List.forall_mem_cons.2 ⟨hself, fun j hj => ?_⟩
        have hjm := hrest j hj
        rw [Transient.before_iff] at hmk hjm ⊢
        omega

/-- PopMin takes the head of the sorted queue (R112). -/
theorem Transient.Queued.popMin {t : Transient} {k : Nat} {x : QItem} {q : List QItem}
    (h : t.Queued k (x :: q)) (hs : SortedQueue (x :: q)) :
    t.popMin = some (x.index, t.setInq x.index false) := by
  have hx : x.index ∈ t.queue :=
    Transient.mem_queue.2 ((h.queued _).2 ⟨x, List.mem_cons_self, rfl⟩)
  obtain ⟨i, hmem, hleast⟩ := t.least_mem (List.ne_nil_of_mem hx)
  obtain ⟨z, hz, rfl⟩ := (h.queued i).1 (Transient.mem_queue.1 hmem)
  have hfirst := t.not_before_least hleast x.index hx
  rw [Transient.before_iff, h.weight x List.mem_cons_self, h.weight z hz] at hfirst
  have hzx : z.index = x.index := by
    rcases List.mem_cons.1 hz with rfl | hz
    · rfl
    · have hsorted := (List.pairwise_cons.1 hs).1 z hz
      rw [QItem.before_iff] at hsorted
      omega
  rw [Transient.popMin, hleast, hzx]
  rfl

/-! ### The leaves (R111) -/

theorem createLeaves_queued {f : Byte → Nat} {es : List (Byte × BitVec 32)} {k : Nat}
    {t : Transient} {q : List QItem} (hf : ∀ e ∈ es, f e.1 = e.2.toNat) (h : t.Queued k q)
    (hk : k + es.length ≤ 511) :
    (createLeaves es k t).Queued (k + es.length) (q ++ leafQueue f (es.map Prod.fst) k) ∧
      (createLeaves es k t).nextFree = k + es.length := by
  induction es generalizing k t q with
  | nil =>
    rw [List.map_nil, leafQueue, List.append_nil]
    exact ⟨h.of_eq rfl rfl, rfl⟩
  | cons e es ih =>
    rw [List.length_cons] at hk ⊢
    obtain ⟨he, hes⟩ := List.forall_mem_cons.1 hf
    have hpush := h.push (v := ⟨e.2.toNat, true, e.1, 0, 0⟩) (T := .leaf e.1) (by omega)
      ⟨Nat.lt_succ_self k, _, by rw [Transient.nodeAt_setInq, Transient.nodeAt_setNode,
        if_pos ⟨rfl, by omega⟩], rfl, rfl⟩
    obtain ⟨hqueued, hnext⟩ := ih hes hpush (by omega)
    rw [Nat.add_right_comm] at hqueued hnext
    refine ⟨hqueued.perm ?_, hnext⟩
    rw [List.map_cons, leafQueue, he, List.cons_append]
    exact List.perm_middle.symm.trans ((enqueue_perm _ _).symm.append_left q)

/-! ### Merging (R113) -/

theorem Transient.Queued.mergeOnce {t : Transient} {x y : QItem} {q : List QItem}
    (h : t.Queued t.nextFree (x :: y :: q)) (hs : SortedQueue (x :: y :: q))
    (hfree : t.nextFree < 511) :
    ∃ u, Machine.mergeOnce t = some u ∧ u.nextFree = t.nextFree + 1 ∧ u.Queued u.nextFree
      (enqueue ⟨x.weight + y.weight, t.nextFree, .node x.tree y.tree⟩ q) := by
  have hfirst := h.popMin hs
  have hsecond := h.pop.popMin (List.pairwise_cons.1 hs).2
  have hx := h.weight x List.mem_cons_self
  have hy := h.weight y (List.mem_cons_of_mem _ List.mem_cons_self)
  have htree : ∀ z ∈ x :: y :: q,
      ((t.setInq x.index false).setInq y.index false).holds t.nextFree z.tree z.index :=
    fun z hz => (h.holds z hz).of_node_eq rfl
  refine ⟨_, mergeOnce_of_popMin hfirst hsecond hfree, rfl, ?_⟩
  have hpush := h.pop.pop.push (v := ⟨t.weightAt x.index + t.weightAt y.index, false, 0, x.index,
      y.index⟩) (T := .node x.tree y.tree) hfree
    ⟨Nat.lt_succ_self _, _, by rw [Transient.nodeAt_setInq, Transient.nodeAt_setNode,
      if_pos ⟨rfl, hfree⟩], rfl, (htree x List.mem_cons_self).push _,
      (htree y (List.mem_cons_of_mem _ List.mem_cons_self)).push _⟩
  rw [← hx, ← hy]
  have hparent : (((t.setInq x.index false).setInq y.index false).pushParent x.index y.index).Queued
      (t.nextFree + 1)
      (⟨t.weightAt x.index + t.weightAt y.index, t.nextFree, .node x.tree y.tree⟩ :: q) :=
    hpush.of_eq rfl rfl
  exact hparent.perm (enqueue_perm _ _).symm

/-- The loop of R113 beside that of R101: both end with the same tree. -/
theorem Transient.Queued.mergeLoop {fuel : Nat} {t : Transient} {q : List QItem}
    (h : t.Queued t.nextFree q) (hs : SortedQueue q) (hpos : q ≠ []) (hfuel : q.length ≤ fuel + 1)
    (hroom : t.nextFree + q.length ≤ 512) :
    ∃ u x, Machine.mergeLoop fuel t = some u ∧
      mergeQueue fuel t.nextFree q = some x.tree ∧ u.Queued u.nextFree [x] := by
  induction fuel generalizing t q with
  | zero =>
    match q with
    | [x] => exact ⟨t, x, rfl, rfl, h⟩
  | succ fuel ih =>
    rw [Machine.mergeLoop, h.queue_length]
    match q with
    | [x] => exact ⟨t, x, rfl, rfl, h⟩
    | x :: y :: q =>
      simp only [List.length_cons] at hfuel hroom
      obtain ⟨u, hu, hnext, hqueued⟩ := h.mergeOnce hs (by omega)
      have htail : SortedQueue q := (List.pairwise_cons.1 (List.pairwise_cons.1 hs).2).2
      obtain ⟨v, z, hv, hz, hdone⟩ := ih hqueued (htail.enqueue _)
        (List.ne_nil_of_length_pos (by simp)) (by simp only [enqueue_length]; omega)
        (by simp only [enqueue_length]; omega)
      refine ⟨v, z, ?_, ?_, hdone⟩
      · rw [if_neg (by simp), hu]; exact hv
      · rw [mergeQueue, ← hnext]; exact hz

/-! ### The whole of BUILD -/

/-- The frequencies of the table as numbers. -/
def Transient.freqs (t : Transient) (c : Byte) : Nat := (t.freqAt c).toNat

/-- The symbols of the table's entries are those with a frequency (R23). -/
theorem Transient.entries_symbols (t : Transient) :
    t.entries.map Prod.fst = presentSymbols t.freqs := by
  have hpred : ((fun e : Byte × BitVec 32 => e.2 != 0) ∘ fun c => (c, t.freqAt c)) =
      fun c => t.freqs c != 0 := by
    funext c
    have hzero : t.freqAt c = 0 ↔ t.freqs c = 0 := by
      rw [Transient.freqs, ← BitVec.toNat_inj]; rfl
    rw [Bool.eq_iff_iff]
    simp only [Function.comp_apply, bne_iff_ne, ne_eq, hzero]
  rw [t.entries_eq_filter_map, List.filter_map, List.map_map, hpred]
  exact List.map_id _

theorem Transient.presentSymbols_length (t : Transient) :
    (presentSymbols t.freqs).length = t.alphabetSize := by
  rw [← t.entries_symbols, List.length_map, Transient.alphabetSize]

/-- BUILD of a non-empty table from an empty queue leaves the tree of R101 under ROOT (R110). -/
theorem buildTree_eq_buildRef {t : Transient} (hq : t.queueEmpty) (hn : 1 ≤ t.alphabetSize) :
    ∃ u T, buildTree t = some u ∧ buildRef t.freqs = some T ∧ u.holds 511 T u.root ∧
      u.treeValid = true ∧ u.isTree 256 u.root = true ∧ t.onlyArena u := by
  obtain ⟨u, hu, hvalid, htree, honly⟩ := buildTree_of_queueEmpty hq hn
  have hle := t.alphabetSize_le
  have hlen : t.entries.length = t.alphabetSize := rfl
  have hempty : t.Queued 0 [] := ⟨List.nodup_nil, fun i => by simp [hq i], nofun, nofun⟩
  obtain ⟨hleaves, hnext⟩ := createLeaves_queued (f := t.freqs) (es := t.entries)
    (fun e he => by rw [(Transient.mem_entries.1 he).1]; rfl) hempty (by omega)
  rw [t.entries_symbols, List.nil_append, ← hnext] at hleaves
  have hsize := leafQueue_length t.freqs (presentSymbols t.freqs) 0
  rw [t.presentSymbols_length] at hsize
  obtain ⟨v, x, hv, hx, hdone⟩ := hleaves.mergeLoop (fuel := t.alphabetSize)
    (SortedQueue.leafQueue ..) (List.ne_nil_of_length_pos (by omega)) (by omega) (by omega)
  have hqueue : v.queue = [x.index] := by
    obtain ⟨r, hr⟩ := List.length_eq_one_iff.1 hdone.queue_length
    have hmem : x.index ∈ v.queue := Transient.mem_queue.2 ((hdone.queued _).2 ⟨x, by simp, rfl⟩)
    rw [hr, List.mem_singleton] at hmem
    rw [hr, hmem]
  have hbuild : buildTree t = some { v with root := x.index, treeValid := true } := by
    rw [buildTree, if_neg (by omega), mergeAll, hleaves.queue_length, hsize, hv]
    simp [hqueue]
  obtain rfl := Option.some.inj (hu.symm.trans hbuild)
  have hroot : v.holds v.nextFree x.tree x.index := hdone.holds x List.mem_cons_self
  refine ⟨_, x.tree, hu, ?_, hroot.arena.of_node_eq rfl, hvalid, htree, honly⟩
  rw [buildRef, t.presentSymbols_length, ← hx, hnext, Nat.zero_add]
  rfl

end Sys2Proof.Machine
end

section
/-! SUPPORT. GENCODE and `GenCode`: over a tree with one leaf for each of its symbols, the walk of R121
puts the path of the tree into CODE for each of them (42_code_generator.md R120 to R124). -/

namespace Sys2Proof.Machine

/-- The entry that GENCODE writes for a symbol below a node with path p, if it has a leaf there. -/
def HTree.codeEntry (T : HTree) (p : List Bool) (old : Code) (c : Byte) : Code :=
  (T.path c).elim old fun q => ⟨BitVec.ofNat 8 (p ++ q).length, p ++ q⟩

/-- A symbol without a leaf keeps its entry. -/
theorem HTree.codeEntry_of_not_mem {T : HTree} {c : Byte} (h : c ∉ T.symbols) (p : List Bool)
    (old : Code) : T.codeEntry p old c = old := by rw [HTree.codeEntry, HTree.path_eq_none h]; rfl

/-- The walk below a node writes the entries of the left subtree, then those of the right one. -/
theorem HTree.codeEntry_node {l r : HTree} (h : (HTree.node l r).symbols.Nodup) (p : List Bool)
    (old : Code) (c : Byte) :
    (HTree.node l r).codeEntry p old c =
      r.codeEntry (p ++ [true]) (l.codeEntry (p ++ [false]) old c) c := by
  have hdisjoint : c ∈ l.symbols → c ∉ r.symbols := fun hl => List.disjoint_of_nodup_append h hl
  unfold HTree.codeEntry
  rw [HTree.path_node]
  cases hl : l.path c with
  | none => cases r.path c <;> simp
  | some q =>
    rw [HTree.path_eq_none (hdisjoint (HTree.path_isSome.1 (by rw [hl]; rfl)))]
    simp

theorem assignCodes_codeAt {fuel i k : Nat} {p : List Bool} {t u : Transient} {T : HTree}
    (h : assignCodes fuel i p t = some u) (hp : p.length + fuel ≤ 256) (hT : t.holds k T i)
    (hnodup : T.symbols.Nodup) (c : Byte) : u.codeAt c = T.codeEntry p (t.codeAt c) c := by
  induction T generalizing fuel i p t u with
  | leaf d =>
    obtain ⟨-, v, hv, hleaf, rfl⟩ := hT
    cases fuel with
    | zero => cases h
    | succ fuel =>
      rw [assignCodes, hv] at h
      obtain rfl := Option.some.inj ((if_pos hleaf).symm.trans h)
      rw [Transient.codeAt_setCode, HTree.codeEntry, HTree.path]
      by_cases hc : c = v.sym
      · simp [hc]
      · simp [hc, Ne.symm hc]
  | node l r ihl ihr =>
    obtain ⟨-, v, hv, hleaf, hl, hr⟩ := hT
    cases fuel with
    | zero => cases h
    | succ fuel =>
      have hlen : ∀ b, (p ++ [b]).length + fuel ≤ 256 := fun b => by
        rw [List.length_append, List.length_singleton]; omega
      obtain ⟨hnodupl, hnodupr, -⟩ := List.nodup_append.1 hnodup
      rw [assignCodes, hv] at h
      obtain ⟨w, hwl, hwr⟩ := Option.bind_eq_some_iff.1 ((if_neg (by simp [hleaf])).symm.trans h)
      have hnode : w.node = t.node := by rw [(assignCodes_eq_some hwl (hlen false)).1]
      rw [ihr hwr (hlen true) (hr.of_node_eq hnode) hnodupr, ihl hwl (hlen false) hl hnodupl,
        HTree.codeEntry_node hnodup]

/-- From a cleared code table, the walk of R121 leaves the codes of R101 under an internal root. -/
theorem HTree.codeEntry_root {l r : HTree} (c : Byte) :
    (HTree.node l r).codeEntry [] Code.empty c =
      ⟨BitVec.ofNat 8 ((HTree.node l r).code c).length, (HTree.node l r).code c⟩ := by
  rw [HTree.codeEntry, HTree.code]
  cases (HTree.node l r).path c <;> rfl

/-- GENCODE from a cleared code table leaves the codes of R101, each of at most 255 bits. -/
theorem generateCodes_eq_code {t : Transient} {k : Nat} {T : HTree} (hvalid : t.treeValid = true)
    (htree : t.isTree 256 t.root = true) (hT : t.holds k T t.root) (hnodup : T.symbols.Nodup)
    (hempty : ∀ c, t.codeAt c = Code.empty) :
    ∃ cs, generateCodes t = some { t with code := cs } ∧
      ∀ c, (({ t with code := cs } : Transient).codeAt c).bits = T.code c ∧
        (({ t with code := cs } : Transient).codeAt c).len.toNat = (T.code c).length := by
  have hwf : t.codesWf := fun c => by rw [hempty c]; rfl
  obtain ⟨cs, hcs, hfit⟩ := generateCodes_of_isTree hvalid htree hwf
  suffices hbits : ∀ c, (({ t with code := cs } : Transient).codeAt c).bits = T.code c from
    ⟨cs, hcs, fun c => ⟨hbits c, (hfit c).trans (congrArg List.length (hbits c))⟩⟩
  intro c
  have hrun := hcs
  rw [generateCodes, if_pos hvalid] at hrun
  cases T with
  | leaf d =>
    obtain ⟨-, v, hv, hleaf, rfl⟩ := hT
    rw [hv] at hrun
    obtain hcode := Option.some.inj ((if_pos hleaf).symm.trans hrun)
    rw [← hcode, Transient.codeAt_setCode, HTree.code, hempty c]
    by_cases hc : c = v.sym
    · simp [hc]
    · simp [hc, Ne.symm hc, Code.empty]
  | node l r =>
    obtain ⟨v, hv, hleaf⟩ : ∃ v, t.nodeAt t.root = some v ∧ v.isLeaf = false :=
      ⟨_, hT.2.choose_spec.1, hT.2.choose_spec.2.1⟩
    rw [hv] at hrun
    have hassign := (if_neg (by simp [hleaf])).symm.trans hrun
    rw [assignCodes_codeAt hassign (by decide) hT hnodup, hempty c, HTree.codeEntry_root]

end Sys2Proof.Machine
end

section
/-! SUPPORT. FRAME and ENCODE write the container of R101: the header and the table from address 0 on
(45_framer.md R145 to R148), and from WPTR on the code bits, packed (44_encoder.md R135 to R139,
30_encoding.md R63). -/

namespace Sys2Proof.Machine

/-! ### FRAME -/

theorem Memory.storeAll_append (a : Nat) (bs cs : List Byte) (m : Memory) :
    Memory.storeAll a (bs ++ cs) m = Memory.storeAll (a + bs.length) cs (Memory.storeAll a bs m) := by
  induction bs generalizing a m with
  | nil => rfl
  | cons b bs ih =>
    rw [List.cons_append, Memory.storeAll, Memory.storeAll, ih, List.length_cons]
    congr 1
    omega

theorem State.writeDstLe_of_le {s : State} {a k : Nat} (h : a + k ≤ s.cfg.dstCap) (v : Nat) :
    s.writeDstLe a k v = .ok { s with dst := Memory.storeAll a (leBytes k v) s.dst } :=
  State.writeDstBytes_of_le (by rwa [leBytes_length])

/-- The header in DST (R147). -/
theorem writeHeader_eq {s : State} (h : headerLen ≤ s.cfg.dstCap) :
    writeHeader s = .ok { s with
      dst := Memory.storeAll 0 (leBytes 8 s.srcLen ++ leBytes 2 s.tr.nsym) s.dst
      tr := { s.tr with wptr := headerLen } } := by
  unfold headerLen at h
  rw [writeHeader, State.writeDstLe_of_le (by omega), Run.andThen_ok,
    State.writeDstLe_of_le (by simp only; omega), Run.andThen_ok, Memory.storeAll_append,
    leBytes_length]
  rfl

/-- The five bytes of a table entry (R148). -/
def entryBytes (e : Byte × BitVec 32) : List Byte := e.1 :: leBytes 4 e.2.toNat

theorem writeEntry_eq {s : State} (h : s.tr.wptr + 5 ≤ s.cfg.dstCap) (e : Byte × BitVec 32) :
    writeEntry s e = .ok { s with
      dst := Memory.storeAll s.tr.wptr (entryBytes e) s.dst
      tr := { s.tr with wptr := s.tr.wptr + 5 } } := by
  rw [writeEntry, State.writeDst_of_lt (by omega), Run.andThen_ok,
    State.writeDstLe_of_le (by simp only; omega), Run.andThen_ok]
  rfl

theorem entryBytes_flatMap_length (es : List (Byte × BitVec 32)) :
    (es.flatMap entryBytes).length = 5 * es.length := by
  simp [List.length_flatMap, entryBytes, leBytes_length, Nat.mul_comm]

theorem writeTable_eq {es : List (Byte × BitVec 32)} {s : State}
    (h : s.tr.wptr + 5 * es.length ≤ s.cfg.dstCap) :
    writeTable es s = .ok { s with
      dst := Memory.storeAll s.tr.wptr (es.flatMap entryBytes) s.dst
      tr := { s.tr with wptr := s.tr.wptr + 5 * es.length } } := by
  induction es generalizing s with
  | nil => rfl
  | cons e es ih =>
    rw [List.length_cons] at h ⊢
    rw [writeTable, writeEntry_eq (by omega), Run.andThen_ok, ih (by simp only; omega),
      List.flatMap_cons, Memory.storeAll_append]
    simp only [Nat.mul_add, Nat.mul_one, Nat.add_assoc, Nat.add_comm]
    rfl

/-- The table of a container, from the entries of FREQ (R62, R148). -/
theorem Transient.tableBytes_eq (t : Transient) :
    ((presentSymbols t.freqs).flatMap fun c => c :: leBytes 4 (t.freqs c)) =
      t.entries.flatMap entryBytes := by
  rw [← t.entries_symbols, List.flatMap_map]
  refine List.flatMap_congr fun e he => ?_
  rw [entryBytes, (Transient.mem_entries.1 he).1]
  rfl

theorem Transient.headBytes_length (t : Transient) (len n : Nat) :
    (headBytes len n t.freqs).length = 10 + 5 * t.alphabetSize := by
  rw [headBytes, t.tableBytes_eq, List.length_append, List.length_append, leBytes_length,
    leBytes_length, entryBytes_flatMap_length, Transient.alphabetSize]

/-- FRAME of a container that fits leaves its header and table in DST from address 0 on (R145). -/
theorem frameBody_eq {s : State} (hn : s.tr.nsym = s.tr.alphabetSize)
    (hfits : containerSize s.tr.nsym s.tr.codeBits ≤ s.cfg.dstCap) :
    frameBody s = .ok { s with
      dst := Memory.storeAll 0 (headBytes s.srcLen s.tr.nsym s.tr.freqs) s.dst
      tr := { s.tr with totalBits := s.tr.codeBits, wptr := 10 + 5 * s.tr.nsym } } := by
  have hroom : 10 + 5 * s.tr.entries.length ≤ s.cfg.dstCap := by
    have hlen : s.tr.entries.length = s.tr.nsym := hn.symm
    unfold containerSize at hfits
    omega
  have hheader := writeHeader_eq (s := { s with
    tr := { s.tr with totalBits := s.tr.codeBits, wptr := 0 } }) (by unfold headerLen; simp only; omega)
  have htable := writeTable_eq (es := s.tr.entries) (s := { s with
    dst := Memory.storeAll 0 (leBytes 8 s.srcLen ++ leBytes 2 s.tr.nsym) s.dst
    tr := { s.tr with totalBits := s.tr.codeBits, wptr := headerLen } }) hroom
  rw [headBytes, s.tr.tableBytes_eq, Memory.storeAll_append, List.length_append, leBytes_length,
    leBytes_length]
  have hcheck : frameBody s = (writeHeader { s with
      tr := { s.tr with totalBits := s.tr.codeBits, wptr := 0 } }).andThen
        (writeTable s.tr.entries) := if_neg (Nat.not_lt.2 hfits)
  have hsize : s.tr.entries.length = s.tr.nsym := hn.symm
  rw [hcheck, hheader, Run.andThen_ok]
  refine htable.trans ?_
  rw [hsize]

/-- FRAME refuses a container that does not fit (R146). -/
theorem frameBody_of_not_fits {s : State}
    (h : s.cfg.dstCap < containerSize s.tr.nsym s.tr.codeBits) :
    frameBody s = .raised .dstOverflow (s.withTr fun t => { t with totalBits := t.codeBits }) :=
  if_pos h

/-! ### Bits of a byte -/

/-- Bits as a number, the first most significant. -/
def natOfBits (bs : List Bool) : Nat := bs.foldl (fun acc b => 2 * acc + b.toNat) 0

@[simp] theorem natOfBits_snoc (bs : List Bool) (b : Bool) :
    natOfBits (bs ++ [b]) = 2 * natOfBits bs + b.toNat := by simp [natOfBits]

theorem natOfBits_append_zeros (bs : List Bool) (k : Nat) :
    natOfBits (bs ++ List.replicate k false) = natOfBits bs * 2 ^ k := by
  induction k with
  | zero => simp
  | succ k ih =>
    rw [List.replicate_succ', ← List.append_assoc, natOfBits_snoc, ih, pow_succ, Bool.toNat_false,
      Nat.add_zero]
    ring

/-- At most eight bits as a byte: missing bits are zero (R63). -/
theorem byteOfBits_eq {bs : List Bool} (h : bs.length ≤ 8) :
    byteOfBits bs = BitVec.ofNat 8 (natOfBits bs * 2 ^ (8 - bs.length)) := by
  have hpad : (List.range 8).map (fun i => bs.getD i false) =
      bs ++ List.replicate (8 - bs.length) false := by
    refine List.ext_getElem (by simp; omega) fun i hi _ => ?_
    rw [List.getElem_append]
    split
    · next hlt => simp [hlt]
    · next hlt => simp [Nat.not_lt.1 hlt]
  rw [byteOfBits, ← natOfBits_append_zeros, ← hpad, natOfBits, List.foldl_map]

theorem shiftIn_toNat (a : BitVec 8) (b : Bool) :
    (shiftIn a b).toNat = (2 * a.toNat + b.toNat) % 256 := by
  have hb : b.toNat < 2 ^ 1 := Bool.toNat_lt b
  have hsmall : b.toNat % 2 ^ 8 = b.toNat := Nat.mod_eq_of_lt (by omega)
  have hshift : a.toNat <<< 1 % 2 ^ 8 = 2 ^ 1 * (a.toNat % 128) := by
    rw [Nat.shiftLeft_eq]; omega
  rw [shiftIn, BitVec.toNat_or, BitVec.toNat_shiftLeft, BitVec.toNat_setWidth, BitVec.toNat_ofBool,
    hshift, hsmall, ← Nat.two_pow_add_eq_or_of_lt hb]
  omega

/-- The packer's byte after one more bit holds one more bit (R137). -/
theorem shiftIn_natOfBits (bs : List Bool) (b : Bool) :
    shiftIn (BitVec.ofNat 8 (natOfBits bs)) b = BitVec.ofNat 8 (natOfBits (bs ++ [b])) := by
  refine BitVec.eq_of_toNat_eq ?_
  rw [shiftIn_toNat, natOfBits_snoc, BitVec.toNat_ofNat, BitVec.toNat_ofNat]
  omega

/-! ### `Pack` -/

theorem packBits_length (bits : List Bool) : (packBits bits).length = ceil8 bits.length := by
  simp [packBits]

/-- Eight bits are packed into the next byte. -/
theorem packBits_byte {bs : List Bool} (h : bs.length = 8) (rest : List Bool) :
    packBits (bs ++ rest) = byteOfBits bs :: packBits rest := by
  have hceil : ceil8 (bs ++ rest).length = ceil8 rest.length + 1 := by
    rw [List.length_append, h]; unfold ceil8; omega
  rw [packBits, hceil, List.range_succ_eq_map, List.map_cons, List.map_map]
  congr 1
  · rw [Nat.mul_zero, List.drop_zero, List.take_left' h]
  · refine List.map_congr_left fun j _ => ?_
    have hdrop : 8 * (j + 1) = bs.length + 8 * j := by omega
    rw [Function.comp_apply, Nat.succ_eq_add_one, hdrop, ← List.drop_drop,
      List.drop_left]

/-- Fewer than eight bits, but some, are packed into the last byte. -/
theorem packBits_last {bs : List Bool} (hpos : bs ≠ []) (h : bs.length < 8) :
    packBits bs = [byteOfBits bs] := by
  have hlen := List.length_pos_of_ne_nil hpos
  have hceil : ceil8 bs.length = 1 := by unfold ceil8; omega
  rw [packBits, hceil]
  simp [List.take_of_length_le (Nat.le_of_lt h)]

end Sys2Proof.Machine
end

section
/-! SUPPORT. ENCODE packs the code bits of the input from WPTR on (44_encoder.md R135 to R139). The packer
holds the bits of the byte not yet written; with the bits still to come they are always what is
left to pack. -/

namespace Sys2Proof.Machine

/-- The packer holds these bits, fewer than eight (R137). -/
structure State.Pending (pend : List Bool) (s : State) : Prop where
  count : s.tr.accN = pend.length
  few : pend.length < 8
  acc : s.tr.acc = BitVec.ofNat 8 (natOfBits pend)

/-- DST with these bits packed from WPTR on. -/
def State.packedDst (s : State) (bits : List Bool) : Memory :=
  Memory.storeAll s.tr.wptr (packBits bits) s.dst

/-- t is s after these bits went to the packer, which held `pend` and holds `pend'`: whatever bits come
after them, what is left to pack ends in the same DST. -/
structure State.packs (pend bs pend' : List Bool) (s t : State) : Prop where
  pushed : s.pushed bs.length t
  pending : t.Pending pend'
  dst : ∀ rest, t.packedDst (pend' ++ rest) = s.packedDst (pend ++ bs ++ rest)

theorem State.packs.trans {pend bs pend' cs pend'' : List Bool} {s t u : State}
    (h : s.packs pend bs pend' t) (h' : t.packs pend' cs pend'' u) :
    s.packs pend (bs ++ cs) pend'' u where
  pushed := List.length_append ▸ h.pushed.trans h'.pushed
  pending := h'.pending
  dst rest := by
    rw [h'.dst rest, List.append_assoc, h.dst]
    simp only [List.append_assoc]

/-- The read cursor alone moves. -/
def State.withRptr (s : State) (r : Nat) : State := s.withTr fun t => { t with rptr := r }

@[simp] theorem State.withRptr_packedDst (s : State) (r : Nat) (bits : List Bool) :
    (s.withRptr r).packedDst bits = s.packedDst bits := rfl

theorem State.packs.withRptr {pend bs pend' : List Bool} {s t : State} (h : s.packs pend bs pend' t)
    (r : Nat) : (s.withRptr r).packs pend bs pend' (t.withRptr r) where
  pushed := by
    obtain ⟨hfew, hcount, heq⟩ := h.pushed
    exact ⟨hfew, hcount, by rw [heq]; rfl⟩
  pending := ⟨h.pending.count, h.pending.few, h.pending.acc⟩
  dst := h.dst

/-- A bit that fills the packer's byte writes it (R137). -/
theorem pushBit_full {s : State} {pend : List Bool} (h : s.Pending pend) (b : Bool)
    (hfull : s.tr.accN + 1 = 8) (hroom : s.tr.wptr < s.cfg.dstCap) :
    pushBit s b = .ok { s with
      dst := s.dst.store s.tr.wptr (byteOfBits (pend ++ [b]))
      tr := { s.tr with wptr := s.tr.wptr + 1, acc := 0, accN := 0 } } := by
  have hlen : (pend ++ [b]).length = 8 := by
    rw [List.length_append, List.length_singleton, ← h.count, hfull]
  have hbyte : shiftIn s.tr.acc b = byteOfBits (pend ++ [b]) := by
    rw [h.acc, shiftIn_natOfBits, byteOfBits_eq hlen.le, hlen, Nat.sub_self, pow_zero, Nat.mul_one]
  refine (if_pos hfull).trans ?_
  rw [State.emitByte_of_lt (by exact hroom), Run.andThen_ok, ← hbyte]
  rfl

/-- Every other bit stays in the packer. -/
theorem pushBit_room {s : State} (b : Bool) (hroom : ¬ s.tr.accN + 1 = 8) :
    pushBit s b = .ok { s with
      tr := { s.tr with acc := shiftIn s.tr.acc b, accN := s.tr.accN + 1 } } := if_neg hroom

theorem pushBit_packs {s : State} {pend : List Bool} (h : s.Pending pend)
    (hroom : 8 * s.tr.wptr + s.tr.accN + 1 ≤ 8 * s.cfg.dstCap) (b : Bool) :
    (pushBit s b).meets (fun t => ∃ pend', s.packs pend [b] pend' t) fun _ => False := by
  have hlen : (pend ++ [b]).length = s.tr.accN + 1 := by
    rw [List.length_append, List.length_singleton, h.count]
  by_cases hfull : s.tr.accN + 1 = 8
  · rw [pushBit_full h b hfull (by omega)]
    refine ⟨[], ⟨Nat.zero_lt_succ 7, ?_, rfl⟩, ⟨rfl, Nat.zero_lt_succ 7, rfl⟩, fun rest => ?_⟩
    · change 8 * (s.tr.wptr + 1) + 0 = 8 * s.tr.wptr + s.tr.accN + 1
      omega
    · rw [State.packedDst, State.packedDst, packBits_byte (hlen.trans hfull)]
      rfl
  · have hfew : s.tr.accN + 1 < 8 := Nat.lt_of_le_of_ne (h.count ▸ h.few) hfull
    rw [pushBit_room b hfull]
    refine ⟨pend ++ [b], ⟨hfew, rfl, rfl⟩, ⟨hlen.symm, hlen.trans_lt hfew, ?_⟩, fun rest => rfl⟩
    rw [← shiftIn_natOfBits, ← h.acc]

theorem pushBits_packs {bs : List Bool} {s : State} {pend : List Bool} (h : s.Pending pend)
    (hroom : 8 * s.tr.wptr + s.tr.accN + bs.length ≤ 8 * s.cfg.dstCap) :
    (pushBits bs s).meets (fun t => ∃ pend', s.packs pend bs pend' t) fun _ => False := by
  induction bs generalizing s pend with
  | nil => exact ⟨pend, ⟨h.count ▸ h.few, rfl, rfl⟩, h, fun rest => by rw [List.append_nil]⟩
  | cons b bs ih =>
    rw [List.length_cons] at hroom
    refine (pushBit_packs h (by omega) b).andThen ?_
    rintro t ⟨pend', ht⟩
    obtain ⟨-, hbits, heq⟩ := ht.pushed
    have hcfg : t.cfg = s.cfg := by rw [heq]
    rw [List.length_singleton] at hbits
    refine (ih ht.pending (by rw [hcfg]; omega)).mono ?_
    rintro u ⟨pend'', hu⟩
    exact ⟨pend'', ht.trans hu⟩

/-- The loop of R135 sends the codes of the bytes it reads to the packer. -/
theorem encodeLoop_packs {n : Nat} {s : State} {pend : List Bool} (h : s.Pending pend)
    (hsrc : s.tr.rptr + n ≤ s.cfg.srcCap) {bits : List Bool}
    (hbits : bits = ((List.range' s.tr.rptr n).map s.srcByte).flatMap s.tr.codeBitsOf)
    (hroom : 8 * s.tr.wptr + s.tr.accN + bits.length ≤ 8 * s.cfg.dstCap) :
    (encodeLoop n s).meets
      (fun t => ∃ pend', (s.withRptr (s.tr.rptr + n)).packs pend bits pend' t) fun _ => False := by
  induction n generalizing s pend bits with
  | zero =>
    subst hbits
    refine ⟨pend, ⟨h.count ▸ h.few, rfl, rfl⟩, h, fun rest => ?_⟩
    rw [List.range'_zero, List.map_nil, List.flatMap_nil, List.append_nil]
    rfl
  | succ n ih =>
    rw [List.range'_succ, List.map_cons, List.flatMap_cons] at hbits
    subst hbits
    rw [List.length_append] at hroom
    rw [encodeLoop, State.withSrc_of_lt (by omega)]
    refine (pushBits_packs (bs := s.tr.codeBitsOf (s.srcByte s.tr.rptr)) h (by omega)).andThen ?_
    rintro t ⟨pend', ht⟩
    have hnext := ht.withRptr (s.tr.rptr + (n + 1))
    obtain ⟨-, hcount, heq⟩ := ht.pushed
    have hpend : (t.withRptr (s.tr.rptr + 1)).Pending pend' :=
      ⟨ht.pending.count, ht.pending.few, ht.pending.acc⟩
    generalize t.dst = m, t.tr.wptr = w, t.tr.acc = a, t.tr.accN = c at heq hcount
    subst heq
    refine (ih hpend (by change s.tr.rptr + 1 + n ≤ s.cfg.srcCap; omega) rfl ?_).mono ?_
    · change 8 * w + c + (((List.range' (s.tr.rptr + 1) n).map s.srcByte).flatMap
        s.tr.codeBitsOf).length ≤ 8 * s.cfg.dstCap
      omega
    · rintro u ⟨pend'', hu⟩
      have hsum : s.tr.rptr + 1 + n = s.tr.rptr + (n + 1) := by omega
      refine ⟨pend'', hnext.trans ?_⟩
      rw [← hsum]
      exact hu

theorem Transient.packer_empty (t : Transient) (hacc : t.acc = 0) (hcount : t.accN = 0) :
    { t with acc := 0, accN := 0 } = t := by
  cases t
  simp only at hacc hcount
  rw [hacc, hcount]

/-- Flush writes what the packer holds (R138). -/
theorem flush_eq {s : State} {pend : List Bool} (h : s.Pending pend)
    (hroom : 8 * s.tr.wptr + s.tr.accN ≤ 8 * s.cfg.dstCap) :
    flush s = .ok { s with
      dst := s.packedDst pend
      tr := { s.tr with wptr := s.tr.wptr + ceil8 pend.length, acc := 0, accN := 0 } } := by
  cases pend with
  | nil =>
    have hcount : s.tr.accN = 0 := h.count
    have hacc : s.tr.acc = 0 := h.acc
    refine (if_pos hcount).trans ?_
    have hregs := s.tr.packer_empty hacc hcount
    exact congrArg (fun u => Run.ok { s with tr := u }) hregs.symm
  | cons b bs =>
    have hpos : ¬ s.tr.accN = 0 := by rw [h.count]; exact Nat.succ_ne_zero _
    have hlen : (b :: bs).length ≤ 8 := h.few.le
    have hceil : ceil8 (b :: bs).length = 1 := by
      have := h.few
      rw [← h.count] at this ⊢
      unfold ceil8
      omega
    have hbyte : s.tr.acc <<< (8 - s.tr.accN) = byteOfBits (b :: bs) := by
      refine BitVec.eq_of_toNat_eq ?_
      rw [byteOfBits_eq hlen, h.acc, h.count, BitVec.toNat_shiftLeft, Nat.shiftLeft_eq,
        BitVec.toNat_ofNat, BitVec.toNat_ofNat, Nat.mod_mul_mod]
    refine (if_neg hpos).trans ?_
    rw [State.emitByte_of_lt (by omega), Run.andThen_ok, hbyte, State.packedDst,
      packBits_last (List.cons_ne_nil b bs) h.few, hceil]
    rfl

/-- Room for whole bytes is room for their bits. -/
theorem bits_le_of_ceil8_le {w k cap : Nat} (h : w + ceil8 k ≤ cap) : 8 * w + k ≤ 8 * cap := by
  unfold ceil8 at h
  omega

/-- The bytes of k bits from w on end where the bits do, the last byte filled up. -/
theorem add_ceil8_eq {v a w k : Nat} (h : 8 * v + a = 8 * w + k) :
    v + ceil8 a = w + ceil8 k := by
  unfold ceil8
  omega

theorem State.pushed.cfg_eq {k : Nat} {s t : State} (h : s.pushed k t) : t.cfg = s.cfg := by
  obtain ⟨-, -, heq⟩ := h
  rw [heq]

/-- The loop and the flush, from an empty packer (R135). -/
theorem encodeLoop_flush {n : Nat} {s : State} (hstart : s.Pending [])
    (hsrc : s.tr.rptr + n ≤ s.cfg.srcCap) {bits : List Bool}
    (hbits : bits = ((List.range' s.tr.rptr n).map s.srcByte).flatMap s.tr.codeBitsOf)
    (hroom : s.tr.wptr + ceil8 bits.length ≤ s.cfg.dstCap) :
    (encodeLoop n s).andThen flush = .ok { s with
      dst := s.packedDst bits
      tr := { s.tr with
        rptr := s.tr.rptr + n, wptr := s.tr.wptr + ceil8 bits.length, acc := 0, accN := 0 } } := by
  have hbitsRoom : 8 * s.tr.wptr + s.tr.accN + bits.length ≤ 8 * s.cfg.dstCap := by
    rw [hstart.count]
    exact bits_le_of_ceil8_le hroom
  obtain ⟨t, hloop, pend, ht⟩ :=
    Run.eq_ok_of_meets (encodeLoop_packs hstart hsrc hbits hbitsRoom)
  obtain ⟨-, hcount, heq⟩ := ht.pushed
  have hcfg : t.cfg = s.cfg := ht.pushed.cfg_eq
  have hdst : t.packedDst pend = s.packedDst bits := by
    have hend := ht.dst []
    rwa [List.append_nil, List.append_nil, List.nil_append, State.withRptr_packedDst] at hend
  have hflush := flush_eq ht.pending (by rw [hcfg, hcount]; exact hbitsRoom)
  have hend : t.tr.wptr + ceil8 pend.length = s.tr.wptr + ceil8 bits.length := by
    rw [← ht.pending.count]
    refine add_ceil8_eq (hcount.trans ?_)
    change 8 * s.tr.wptr + s.tr.accN + bits.length = _
    rw [hstart.count]
    rfl
  rw [hloop, Run.andThen_ok, hflush, hdst, hend]
  generalize t.dst = m, t.tr.wptr = w, t.tr.acc = a, t.tr.accN = c at heq
  subst heq
  rfl

/-- ENCODE packs the code bits of the input from WPTR on, and WPTR counts the bytes (R135, R139). -/
theorem encodeBody_eq {s : State} (hlen : s.srcLen ≤ s.cfg.srcCap)
    (hroom : s.tr.wptr + ceil8 s.inputBits.length ≤ s.cfg.dstCap) :
    encodeBody s = .ok { s with
      dst := s.packedDst s.inputBits
      tr := { s.tr with
        rptr := s.srcLen, wptr := s.tr.wptr + ceil8 s.inputBits.length, acc := 0, accN := 0 } } := by
  have hbits : s.inputBits =
      ((List.range' 0 s.srcLen).map s.srcByte).flatMap s.tr.codeBitsOf := by
    rw [← s.input_eq_range']; rfl
  rw [encodeBody]
  generalize s.inputBits = bits at *
  generalize s.srcLen = n at *
  have hrun := encodeLoop_flush (n := n) (bits := bits)
    (s := s.withTr fun t => { t with rptr := 0, acc := 0, accN := 0 })
    ⟨rfl, Nat.zero_lt_succ 7, rfl⟩ ((Nat.zero_add n).trans_le hlen) hbits hroom
  rw [hrun]
  simp only [State.withTr_tr, Nat.zero_add]
  rfl

end Sys2Proof.Machine
end

section
/-! SUPPORT. COMPRESS is the function `Compress` (40_commands.md R101): when COUNT raises FreqOverflow, and
then the phases of the path from the last one back to the dispatch, each with what it needs and the
result that the rest of the command has. -/

namespace Sys2Proof.Machine

/-! ### COUNT -/

theorem Run.meets_of_ends {P : State → Prop} {E : ErrorKind → Prop} {r : Run} (h : r.ends P)
    (hE : ∀ k t, r = .raised k t → E k) : r.meets P E := by
  cases r with
  | ok t => exact h
  | raised k t => exact hE k t rfl
  | stuck e => exact h

/-- An increment raises FreqOverflow, and only at the greatest 32-bit count (R131). -/
theorem increment_raised {s t : State} {c : Byte} {k : ErrorKind}
    (h : s.increment c = .raised k t) : k = .freqOverflow ∧ 2 ^ 32 ≤ (s.tr.freqAt c).toNat + 1 := by
  unfold State.increment at h
  split at h
  · next hmax =>
    cases h
    exact ⟨rfl, by rw [hmax]; decide⟩
  · cases h

/-- The loop of R130 raises FreqOverflow, and only if a count outgrows 32 bits. -/
theorem countLoop_meets {n : Nat} {s : State} (h : s.tr.rptr + n ≤ s.cfg.srcCap) :
    (countLoop n s).meets (fun _ => True) fun k => k = .freqOverflow ∧ ∃ b, 2 ^ 32 ≤
      (s.tr.freqAt b).toNat + ((List.range' s.tr.rptr n).map s.srcByte).count b := by
  induction n generalizing s with
  | zero => trivial
  | succ n ih =>
    rw [countLoop, State.withSrc_of_lt (by omega), List.range'_succ, List.map_cons]
    generalize hc : s.srcByte s.tr.rptr = c
    refine (Run.meets_of_ends (increment_ends s c) fun k t hraise => ?_).andThen ?_
    · obtain ⟨rfl, hmax⟩ := increment_raised hraise
      refine ⟨rfl, c, ?_⟩
      rw [List.count_cons_self]
      omega
    · rintro _ ⟨f, rfl, hinc⟩
      refine (ih (by simp only [State.withTr_tr, State.withTr_cfg]; omega)).mono_error ?_
      rintro k ⟨rfl, b, hb⟩
      refine ⟨rfl, b, hb.trans_eq ?_⟩
      change ((State.withTr s fun tr => { tr with freq := f }).tr.freqAt b).toNat +
        ((List.range' (s.tr.rptr + 1) n).map s.srcByte).count b = _
      rw [hinc, List.count_cons]
      simp only [beq_iff_eq]
      omega

theorem countBody_meets {s : State} (hlen : s.srcLen ≤ s.cfg.srcCap)
    (hzero : s.tr = Transient.zero) :
    (countBody s).meets (fun t =>
        t.tr.queueEmpty ∧ t.tr.codesWf ∧ t.tr.nsym = t.tr.alphabetSize ∧
          ∀ b, (t.tr.freqAt b).toNat = s.input.count b)
      fun k => k = .freqOverflow ∧ ∃ b, 2 ^ 32 ≤ s.input.count b := by
  refine Run.meets_of_ends (countBody_ends hlen hzero) fun k t hraise => ?_
  have hloop := countLoop_meets (n := s.srcLen) (s := s.withTr fun t => { t with rptr := 0 })
    ((Nat.zero_add _).trans_le hlen)
  obtain hraise | ⟨u, -, hnsym⟩ := Run.andThen_eq_raised.1 hraise
  · rw [hraise] at hloop
    obtain ⟨rfl, b, hb⟩ := hloop
    refine ⟨rfl, b, hb.trans_eq ?_⟩
    change (s.tr.freqAt b).toNat + ((List.range' 0 s.srcLen).map s.srcByte).count b = _
    simp [hzero, s.input_eq_range']
  · cases hnsym

/-! ### The result of COMPRESS -/

/-- A container, if it fits DST (R146). -/
def fitted (c : Config) (out : List Byte) : Except ErrorKind (List Byte) :=
  if c.dstCap < out.length then .error .dstOverflow else .ok out

theorem compressRef_of_counts {c : Config} {input : List Byte} {T : HTree}
    (hlen : input.length ≤ c.srcCap) (hpos : input.length ≠ 0)
    (hcount : ∀ b, input.count b < 2 ^ 32) (hT : buildRef (fun b => input.count b) = some T) :
    compressRef c input = fitted c (containerBytes input T) := by
  have hany : ¬ (allSymbols.any fun s => decide (2 ^ 32 - 1 < input.count s)) = true := by
    simp only [List.any_eq_true, decide_eq_true_eq, not_exists, not_and]
    intro b _
    have := hcount b
    omega
  rw [compressRef, if_neg (Nat.not_lt.2 hlen), if_neg hpos, if_neg hany, hT]
  rfl

theorem compressRef_of_overflow {c : Config} {input : List Byte} {b : Byte}
    (hlen : input.length ≤ c.srcCap) (hb : 2 ^ 32 ≤ input.count b) :
    compressRef c input = .error .freqOverflow := by
  have hpos : ¬ input.length = 0 := by
    have := List.count_le_length (a := b) (l := input)
    omega
  have hany : (allSymbols.any fun s => decide (2 ^ 32 - 1 < input.count s)) = true :=
    List.any_eq_true.2 ⟨b, mem_allSymbols b, decide_eq_true (by omega)⟩
  rw [compressRef, if_neg (Nat.not_lt.2 hlen), if_neg hpos, if_pos hany]

/-! ### From a phase to the end -/

/-- CODE holds the codes of a tree, with their lengths (R26, R121). -/
def Transient.holdsCodes (t : Transient) (T : HTree) : Prop :=
  ∀ c, (t.codeAt c).bits = T.code c ∧ (t.codeAt c).len.toNat = (T.code c).length

theorem State.inputBits_eq {s : State} {T : HTree} (h : s.tr.holdsCodes T) :
    s.inputBits = s.input.flatMap T.code := by
  refine List.flatMap_congr fun b _ => ?_
  obtain ⟨hbits, hlen⟩ := h b
  rw [hbits, hlen, List.take_length]

/-- T is the number of code bits of the input (R146). -/
theorem State.codeBits_eq {s : State} {T : HTree} (h : s.tr.holdsCodes T) (hcount : s.countsInput) :
    s.tr.codeBits = (s.input.flatMap T.code).length := by
  rw [← State.sum_codeLen_input hcount, List.length_flatMap]
  exact congrArg List.sum (List.map_congr_left fun b _ => (h b).2)

theorem State.freqs_eq_count {s : State} (h : s.countsInput) :
    s.tr.freqs = fun b => s.input.count b := funext h

/-- The container that FRAME and ENCODE make, by what FRAME finds in its registers. -/
theorem State.containerBytes_eq {s : State} (hcount : s.countsInput)
    (hn : s.tr.nsym = s.tr.alphabetSize) (T : HTree) :
    containerBytes s.input T =
      headBytes s.srcLen s.tr.nsym s.tr.freqs ++ packBits (s.input.flatMap T.code) := by
  rw [containerBytes, State.freqs_eq_count hcount, s.input_length, hn, ← s.tr.presentSymbols_length,
    State.freqs_eq_count hcount]

/-- ENCODE after the head of the container (R135, R96). -/
theorem State.Running.encode_endsAs {s : State} (h : s.Running 1#32 .encode) (hcfg : s.cfg.wf)
    (hlen : s.srcLen ≤ s.cfg.srcCap) {head : List Byte} (hwptr : s.tr.wptr = head.length)
    (hhead : ∀ i, i < head.length → s.dst.lookup i = head[i]?)
    (hroom : (head ++ packBits s.inputBits).length ≤ s.cfg.dstCap) :
    s.endsAs 1 (.ok (head ++ packBits s.inputBits)) := by
  have hsize := hroom
  rw [List.length_append, packBits_length, ← hwptr] at hsize
  refine h.endsAs (after := none) (by decide) rfl
    (P := fun t => t.tr.wptr = (head ++ packBits s.inputBits).length ∧
      t.dst = s.packedDst s.inputBits) ?_ ?_
  · change (encodeBody s).meets _ _
    rw [encodeBody_eq hlen hsize]
    exact ⟨by rw [List.length_append, packBits_length, ← hwptr], rfl⟩
  · rintro m u - ⟨hu, hm⟩
    change (({ s with dst := m, tr := u } : State).succeed u.wptr).endsAs 0 _
    simp only at hu hm
    rw [hu]
    refine State.succeed_endsAs (State.holdsResult_succeed ?_ fun i hi => ?_) 0
    · exact lt_of_le_of_lt hroom hcfg.2.2
    · rw [List.length_append] at hi
      simp only
      rw [hm, State.packedDst, Memory.lookup_storeAll, hwptr]
      by_cases hbelow : i < head.length
      · rw [if_neg (by omega), hhead i hbelow, List.getElem?_append_left hbelow]
      · rw [if_pos (by omega), List.getElem?_append_right (by omega)]

/-- FRAME checks the size of the container, and leaves its head (R145, R146). -/
theorem State.Running.frame_endsAs {s : State} {T : HTree} (h : s.Running 1#32 .frame)
    (hcfg : s.cfg.wf) (hlen : s.srcLen ≤ s.cfg.srcCap) (hcount : s.countsInput)
    (hn : s.tr.nsym = s.tr.alphabetSize) (hcodes : s.tr.holdsCodes T) :
    s.endsAs 2 (fitted s.cfg (containerBytes s.input T)) := by
  have hhead := s.tr.headBytes_length s.srcLen s.tr.nsym
  have hsize : (containerBytes s.input T).length = containerSize s.tr.nsym s.tr.codeBits := by
    rw [State.containerBytes_eq hcount hn, List.length_append, packBits_length, hhead, ← hn,
      ← State.codeBits_eq hcodes hcount, containerSize]
  by_cases hfits : s.cfg.dstCap < containerSize s.tr.nsym s.tr.codeBits
  · refine h.endsAs (P := fun _ => False) (by decide) rfl ?_ fun _ _ _ hfalse => hfalse.elim
    change (frameBody s).meets _ _
    rw [frameBody_of_not_fits hfits]
    exact if_pos (hsize ▸ hfits)
  · have hresult : fitted s.cfg (containerBytes s.input T) = .ok _ := if_neg (hsize ▸ hfits)
    have hroom := Nat.not_lt.1 hfits
    rw [hresult, State.containerBytes_eq hcount hn]
    refine h.endsAs (after := some .encode) (by decide) rfl
      (P := fun t => t.dst = Memory.storeAll 0 (headBytes s.srcLen s.tr.nsym s.tr.freqs) s.dst ∧
        t.tr = { s.tr with totalBits := s.tr.codeBits, wptr := 10 + 5 * s.tr.nsym }) ?_ ?_
    · change (frameBody s).meets _ _
      rw [frameBody_eq hn hroom]
      exact ⟨rfl, rfl⟩
    · rintro m u - ⟨hm, hu⟩
      simp only at hm hu
      subst hm hu
      have hrun : State.Running 1#32 .encode ({ s with
          dst := Memory.storeAll 0 (headBytes s.srcLen s.tr.nsym s.tr.freqs) s.dst, phase := .encode
          tr := { s.tr with totalBits := s.tr.codeBits, wptr := 10 + 5 * s.tr.nsym } }) :=
        ⟨h.busy, rfl, h.latch⟩
      have hbits := State.inputBits_eq hcodes
      rw [← hbits]
      refine hrun.encode_endsAs hcfg hlen (by rw [hhead, hn]) (fun i hi => ?_) ?_
      · exact (Memory.lookup_storeAll ..).trans (if_pos (by omega))
      · change (_ ++ packBits s.inputBits).length ≤ _
        rw [hbits, ← State.containerBytes_eq hcount hn, hsize]
        exact hroom

/-- GENCODE over the tree of R101 (R120). -/
theorem State.Running.gencode_endsAs {s : State} {T : HTree} (h : s.Running 1#32 .gencode)
    (hcfg : s.cfg.wf) (hlen : s.srcLen ≤ s.cfg.srcCap) (hcount : s.countsInput)
    (hn : s.tr.nsym = s.tr.alphabetSize) (hvalid : s.tr.treeValid = true)
    (htree : s.tr.isTree 256 s.tr.root = true) (hT : s.tr.holds 511 T s.tr.root)
    (hnodup : T.symbols.Nodup) (hempty : ∀ c, s.tr.codeAt c = Code.empty) :
    s.endsAs 3 (fitted s.cfg (containerBytes s.input T)) := by
  obtain ⟨cs, hcs, hcodes⟩ := generateCodes_eq_code hvalid htree hT hnodup hempty
  refine h.endsAs (after := some .frame) (by decide) rfl
    (P := fun t => t.dst = s.dst ∧ t.tr = { s.tr with code := cs }) ?_ ?_
  · change (gencodeBody s).meets _ _
    rw [gencodeBody, hcs]
    exact ⟨rfl, rfl⟩
  · rintro m u - ⟨hm, hu⟩
    simp only at hm hu
    subst hm hu
    have hrun : State.Running 1#32 .frame
        ({ s with phase := .frame, tr := { s.tr with code := cs } }) := ⟨h.busy, rfl, h.latch⟩
    exact hrun.frame_endsAs hcfg hlen hcount hn hcodes

/-- BUILD of the counted table leaves the tree of R101 (R110). -/
theorem State.Running.build_endsAs {s : State} {T : HTree} (h : s.Running 1#32 .build)
    (hcfg : s.cfg.wf) (hlen : s.srcLen ≤ s.cfg.srcCap) (hpos : 1 ≤ s.srcLen)
    (hcount : s.countsInput) (hn : s.tr.nsym = s.tr.alphabetSize) (hqueue : s.tr.queueEmpty)
    (hempty : ∀ c, s.tr.codeAt c = Code.empty)
    (hT : buildRef (fun b => s.input.count b) = some T) :
    s.endsAs 4 (fitted s.cfg (containerBytes s.input T)) := by
  obtain ⟨u, T', hu, hT', hholds, hvalid, htree, honly⟩ :=
    buildTree_eq_buildRef hqueue (State.alphabetSize_pos_of_countsInput hpos hcount)
  rw [State.freqs_eq_count hcount] at hT'
  obtain rfl := Option.some.inj (hT.symm.trans hT')
  unfold Transient.onlyArena at honly
  generalize u.node = node, u.inq = inq, u.nextFree = next, u.root = root, u.treeValid = valid at *
  subst honly
  refine h.endsAs (after := some .gencode) (by decide) rfl
    (P := fun t => t.dst = s.dst ∧ t.tr = { s.tr with
      node := node, inq := inq, nextFree := next, root := root, treeValid := valid }) ?_ ?_
  · change (buildBody s).meets _ _
    rw [buildBody, hu]
    simp only [hvalid, if_true]
    exact ⟨rfl, rfl⟩
  · rintro m u - ⟨hm, hu⟩
    simp only at hm hu
    subst hm hu
    have hrun : State.Running 1#32 .gencode { s with
        phase := .gencode
        tr := { s.tr with
          node := node, inq := inq, nextFree := next, root := root, treeValid := valid } } :=
      ⟨h.busy, rfl, h.latch⟩
    exact hrun.gencode_endsAs hcfg hlen hcount hn hvalid htree hholds (buildRef_symbols_nodup hT)
      hempty

/-- COUNT of an input that fits SRC, from the cleared transient state (R130). -/
theorem State.Running.count_endsAs {s : State} (h : s.Running 1#32 .count) (hcfg : s.cfg.wf)
    (hlen : s.srcLen ≤ s.cfg.srcCap) (hpos : 1 ≤ s.srcLen) (hzero : s.tr = Transient.zero) :
    s.endsAs 5 (compressRef s.cfg s.input) := by
  rw [← s.input_length] at hlen hpos
  refine h.endsAs (after := some .build) (by decide) rfl
    ((countBody_meets (s.input_length ▸ hlen) hzero).mono_error ?_) ?_
  · rintro k ⟨rfl, b, hb⟩
    exact compressRef_of_overflow hlen hb
  · rintro m u hu ⟨hqueue, -, hn, hcount⟩
    have hwritten : u = { s.tr with freq := u.freq, nsym := u.nsym, rptr := u.rptr } := hu
    have hrun : State.Running 1#32 .build { s with dst := m, tr := u, phase := .build } :=
      ⟨h.busy, rfl, h.latch⟩
    have hempty : ∀ c, u.codeAt c = Code.empty := fun c => by
      rw [hwritten, ← Transient.codeAt_zero c, ← hzero]; rfl
    rw [s.input_length] at hlen hpos
    obtain ⟨v, T, -, hT, -⟩ := buildTree_eq_buildRef hqueue
      (State.alphabetSize_pos_of_countsInput (s := { s with dst := m, tr := u }) hpos hcount)
    rw [State.freqs_eq_count (s := { s with dst := m, tr := u }) hcount] at hT
    have hresult : compressRef s.cfg s.input = fitted s.cfg (containerBytes s.input T) :=
      compressRef_of_counts (by rwa [s.input_length]) (by rw [s.input_length]; omega)
        (fun b => (hcount b).symm.trans_lt (u.freqAt b).isLt) hT
    rw [hresult]
    exact hrun.build_endsAs hcfg hlen hpos hcount hn hqueue hempty hT

/-- Settles O52: dispatch makes the checks that `Compress` makes of the length, and COUNT starts from the
cleared transient state. -/
theorem compressIsItsFunction : Obligations.CompressIsItsFunction := by
  intro s h hcfg
  change s.endsAs maxEngineSteps (compressRef s.cfg s.input)
  by_cases hlong : s.cfg.srcCap < s.srcLen
  · have hresult : compressRef s.cfg s.input = .error .badLength :=
      if_pos (by rwa [s.input_length])
    rw [hresult]
    exact State.endsAs_of_step h.1 (engineStep_accepted_long h (.inl rfl) hlong) rfl rfl
      (State.raise_endsAs _ _ 5)
  by_cases hempty : s.srcLen = 0
  · have hresult : compressRef s.cfg s.input = .error .emptyInput :=
      (if_neg (by rwa [s.input_length])).trans (if_pos (by rwa [s.input_length]))
    rw [hresult]
    exact State.endsAs_of_step h.1 (engineStep_accepted_empty h hempty) rfl rfl
      (State.raise_endsAs _ _ 5)
  · have hlen := Nat.not_lt.1 hlong
    have hrun : State.Running 1#32 .count { s.prologue with phase := firstPhase 1#32 } :=
      ⟨h.1, rfl, h.2.2⟩
    exact State.endsAs_of_step h.1 (engineStep_accepted_starts h (.inl rfl) hlen fun _ => hempty)
      rfl rfl (hrun.count_endsAs hcfg hlen (Nat.pos_of_ne_zero hempty) rfl)

end Sys2Proof.Machine
end

section
/-! SUPPORT. PARSE and the container of R102: the fields it reads are those of the byte string, and it
raises MalformedContainer exactly on what is no well-formed container (46_parser.md R155 to R163). -/

namespace Sys2Proof.Machine

/-! ### The fields of the input -/

theorem State.input_getElem? {s : State} {a : Nat} (h : a < s.srcLen) :
    s.input[a]? = some (s.srcByte a) := by simp [State.input, h]

theorem State.input_getD {s : State} {a : Nat} (h : a < s.srcLen) (d : Byte) :
    s.input.getD a d = s.srcByte a := by
  rw [List.getD_eq_getElem?_getD, State.input_getElem? h, Option.getD_some]

/-- A field inside the input is the field of its bytes (R46, R65). -/
theorem State.fieldAt_input {s : State} {a k : Nat} (h : a + k ≤ s.srcLen) :
    fieldAt s.input a k = leNat ((List.range k).map fun i => s.srcByte (a + i)) := by
  have hlen := s.input_length
  refine congrArg leNat (List.ext_getElem (by simp [hlen]; omega) fun i hi _ => ?_)
  simp [State.input]

theorem fieldAt_lt (c : List Byte) (a k : Nat) : fieldAt c a k < 256 ^ k :=
  (leNat_lt _).trans_le (Nat.pow_le_pow_right (by decide) (List.length_take_le _ _))

/-! ### The entries -/

/-- The entries of a container from number k on. -/
def entriesFrom (c : List Byte) (k n : Nat) : List (Byte × Nat) :=
  (List.range' k n).map fun j => (c.getD (entrySymAddr j) 0, fieldAt c (entryFreqAddr j) 4)

theorem entriesOf_eq (c : List Byte) (n : Nat) : entriesOf c n = entriesFrom c 0 n := by
  rw [entriesOf, entriesFrom, List.range_eq_range']

/-- Entries that PARSE takes beside the frequencies it has taken before (R159). -/
structure Transient.Takes (t : Transient) (es : List (Byte × Nat)) : Prop where
  nonzero : ∀ e ∈ es, e.2 ≠ 0
  distinct : (es.map Prod.fst).Nodup
  fresh : ∀ e ∈ es, t.freqAt e.1 = 0

theorem Transient.Takes.of_freq_eq {t u : Transient} {es : List (Byte × Nat)} (h : t.Takes es)
    (hfreq : u.freq = t.freq) : u.Takes es where
  nonzero := h.nonzero
  distinct := h.distinct
  fresh e he := by rw [Transient.freqAt, hfreq]; exact h.fresh e he

theorem entryFreq_cons (e : Byte × Nat) (es : List (Byte × Nat)) (c : Byte) :
    entryFreq (e :: es) c = if e.1 = c then e.2 else entryFreq es c := by
  unfold entryFreq
  rw [List.find?_cons]
  by_cases h : e.1 = c
  · simp [h]
  · rw [beq_false_of_ne h, if_neg h]

theorem entryFreq_of_not_mem {es : List (Byte × Nat)} {c : Byte} (h : c ∉ es.map Prod.fst) :
    entryFreq es c = 0 := by
  induction es with
  | nil => rfl
  | cons e es ih =>
    rw [List.map_cons, List.mem_cons, not_or] at h
    rw [entryFreq_cons, if_neg (Ne.symm h.1), ih h.2]

/-- PARSE takes an entry and then, beside it, the others. -/
theorem Transient.takes_cons {t : Transient} {e : Byte × Nat} {es : List (Byte × Nat)}
    {v : BitVec 32} (hv : v ≠ 0) :
    t.Takes (e :: es) ↔ e.2 ≠ 0 ∧ t.freqAt e.1 = 0 ∧ (t.setFreq e.1 v).Takes es := by
  constructor
  · rintro ⟨hnonzero, hdistinct, hfresh⟩
    obtain ⟨hnot, hnodup⟩ := List.nodup_cons.1 hdistinct
    obtain ⟨he, hes⟩ := List.forall_mem_cons.1 hnonzero
    obtain ⟨hefresh, hesfresh⟩ := List.forall_mem_cons.1 hfresh
    refine ⟨he, hefresh, hes, hnodup, fun d hd => ?_⟩
    have hne : d.1 ≠ e.1 := fun heq => hnot (heq ▸ List.mem_map_of_mem hd)
    rw [Transient.freqAt_setFreq, if_neg hne, hesfresh d hd]
  · rintro ⟨he, hefresh, hes, hnodup, hfresh⟩
    have hne : ∀ d ∈ es, d.1 ≠ e.1 := fun d hd heq => hv <| by
      rw [← hfresh d hd, Transient.freqAt_setFreq, if_pos heq]
    refine ⟨List.forall_mem_cons.2 ⟨he, hes⟩, List.nodup_cons.2 ⟨fun hmem => ?_, hnodup⟩,
      List.forall_mem_cons.2 ⟨hefresh, fun d hd => ?_⟩⟩
    · obtain ⟨d, hd, heq⟩ := List.mem_map.1 hmem
      exact hne d hd heq
    · rw [← hfresh d hd, Transient.freqAt_setFreq, if_neg (hne d hd)]

/-- The entry number k as PARSE reads it (R159). -/
theorem parseEntry_eq {s : State} {k : Nat} (hlen : s.srcLen ≤ s.cfg.srcCap)
    (h : 15 + 5 * k ≤ s.srcLen) {e : Byte × Nat}
    (he : e = (s.input.getD (entrySymAddr k) 0, fieldAt s.input (entryFreqAddr k) 4)) :
    parseEntry s k =
      if e.2 = 0 then .raised .malformedContainer s
      else if s.tr.freqAt e.1 ≠ 0 then .raised .malformedContainer s
      else .ok (s.withTr fun t => t.setFreq e.1 (BitVec.ofNat 32 e.2)) := by
  unfold entrySymAddr entryFreqAddr at he
  rw [s.input_getD (by omega), s.fieldAt_input (by omega)] at he
  rw [parseEntry, State.withSrc_of_lt (by unfold entrySymAddr; omega),
    State.withSrcLe_of_le (by unfold entryFreqAddr; omega), he]
  rfl

/-- PARSE takes the entries of a table, or raises MalformedContainer because it cannot (R159). -/
theorem parseEntries_meets {n k : Nat} {s : State} (hlen : s.srcLen ≤ s.cfg.srcCap)
    (h : 10 + 5 * (k + n) ≤ s.srcLen) :
    (parseEntries n k s).meets
      (fun t => s.tr.Takes (entriesFrom s.input k n) ∧
        ∃ f, t = s.withTr (fun tr => { tr with freq := f }) ∧ ∀ b, (t.tr.freqAt b).toNat =
          (s.tr.freqAt b).toNat + entryFreq (entriesFrom s.input k n) b)
      fun e => e = .malformedContainer ∧ ¬ s.tr.Takes (entriesFrom s.input k n) := by
  induction n generalizing k s with
  | zero => exact ⟨⟨nofun, List.nodup_nil, nofun⟩, _, rfl, fun b => rfl⟩
  | succ n ih =>
    have hentries : entriesFrom s.input k (n + 1) =
        (s.input.getD (entrySymAddr k) 0, fieldAt s.input (entryFreqAddr k) 4) ::
          entriesFrom s.input (k + 1) n := by
      rw [entriesFrom, List.range'_succ, List.map_cons, entriesFrom]
    have hlt : fieldAt s.input (entryFreqAddr k) 4 < 2 ^ 32 := fieldAt_lt ..
    rw [hentries, parseEntries, parseEntry_eq hlen (by omega) rfl]
    generalize s.input.getD (entrySymAddr k) 0 = c at *
    generalize fieldAt s.input (entryFreqAddr k) 4 = v at *
    simp only
    by_cases hzero : v = 0
    · rw [if_pos hzero]
      exact ⟨rfl, fun ht => ht.nonzero _ List.mem_cons_self hzero⟩
    by_cases hseen : s.tr.freqAt c ≠ 0
    · rw [if_neg hzero, if_pos hseen]
      exact ⟨rfl, fun ht => hseen (ht.fresh _ List.mem_cons_self)⟩
    rw [if_neg hzero, if_neg hseen, Run.andThen_ok]
    have hv : (BitVec.ofNat 32 v).toNat = v := by rw [BitVec.toNat_ofNat, Nat.mod_eq_of_lt hlt]
    have hv0 : BitVec.ofNat 32 v ≠ 0 := fun h0 => hzero <| by rw [← hv, h0]; rfl
    have hfresh := Decidable.not_not.1 hseen
    have hrest := ih (k := k + 1) (s := s.withTr fun t => t.setFreq c (BitVec.ofNat 32 v)) hlen
      (by rw [State.withTr_srcLen]; omega)
    have htakes := Transient.takes_cons (t := s.tr) (e := (c, v))
      (es := entriesFrom s.input (k + 1) n) hv0
    refine (hrest.mono_error ?_).mono ?_
    · rintro e ⟨rfl, hnot⟩
      exact ⟨rfl, fun ht => hnot (htakes.1 ht).2.2⟩
    · rintro t ⟨htake, f, rfl, hfreq⟩
      refine ⟨htakes.2 ⟨hzero, hfresh, htake⟩, f, rfl, fun b => (hfreq b).trans ?_⟩
      rw [State.withTr_tr, Transient.freqAt_setFreq, entryFreq_cons]
      by_cases hb : b = c
      · have hnot : c ∉ (entriesFrom s.input (k + 1) n).map Prod.fst :=
          (List.nodup_cons.1 (htakes.2 ⟨hzero, hfresh, htake⟩).distinct).1
        subst hb
        rw [if_pos rfl, if_pos rfl, hv, hfresh]
        change v + entryFreq (entriesFrom s.input (k + 1) n) b = 0 + v
        rw [entryFreq_of_not_mem hnot, Nat.zero_add, Nat.add_zero]
      · rw [if_neg hb, if_neg (Ne.symm hb)]
        rfl

/-! ### The whole of PARSE -/

/-- The header fields as PARSE reads them (R157). -/
theorem parseHeader_eq {s : State} (hlen : s.srcLen ≤ s.cfg.srcCap) (h : headerLen ≤ s.srcLen) :
    parseHeader s = .ok (s.withTr fun t => { t with
      origCount := BitVec.ofNat 64 (fieldAt s.input 0 8)
      tableN := BitVec.ofNat 16 (entryCount s.input) }) := by
  unfold headerLen at h
  rw [parseHeader, State.withSrcLe_of_le (by omega), State.withSrcLe_of_le (by omega), entryCount,
    s.fieldAt_input (by omega), s.fieldAt_input (by omega)]

/-- From cleared frequencies PARSE takes the entries of a well-formed container, and only of one (R163). -/
theorem wellFormedContainer_iff {t : Transient} (hzero : ∀ c, t.freqAt c = 0) {c : List Byte} :
    wellFormedContainer c ↔ 10 ≤ c.length ∧ (1 ≤ entryCount c ∧ entryCount c ≤ 256) ∧
      10 + 5 * entryCount c ≤ c.length ∧ t.Takes (entriesFrom c 0 (entryCount c)) := by
  unfold wellFormedContainer
  rw [entriesOf_eq]
  refine and_congr_right fun _ => and_congr_right fun _ => and_congr_right fun _ => ?_
  exact ⟨fun h => ⟨h.1, h.2, fun e _ => hzero e.1⟩, fun h => ⟨h.nonzero, h.distinct⟩⟩

@[simp] theorem State.withTr_input (s : State) (f : Transient → Transient) :
    (s.withTr f).input = s.input := rfl

/-- What PARSE leaves of a container it accepts (R155, R161). -/
structure State.Parsed (s t : State) : Prop where
  wellFormed : wellFormedContainer s.input
  fits : fieldAt s.input 0 8 ≤ s.cfg.dstCap
  count : t.tr.origCount.toNat = fieldAt s.input 0 8
  payBase : t.tr.payBase = 10 + 5 * entryCount s.input
  payLen : t.tr.payLen = s.srcLen - (10 + 5 * entryCount s.input)
  freq : t.tr.freqs = entryFreq (entriesOf s.input (entryCount s.input))

/-- The errors of PARSE (R155, R162, R192). -/
def State.parseError (s : State) (k : ErrorKind) : Prop :=
  (k = .malformedContainer ∧ ¬ wellFormedContainer s.input) ∨
    (k = .dstOverflow ∧ wellFormedContainer s.input ∧ s.cfg.dstCap < fieldAt s.input 0 8)

/-- PARSE after its header fields. -/
def parseTable (s : State) : Run :=
  if s.tr.tableN.toNat = 0 ∨ 256 < s.tr.tableN.toNat then .raised .malformedContainer s
  else if s.srcLen < 10 + 5 * s.tr.tableN.toNat then .raised .malformedContainer s
  else
    (parseEntries s.tr.tableN.toNat 0 s).andThen fun s =>
      if s.cfg.dstCap < s.tr.origCount.toNat then .raised .dstOverflow (setPayload s)
      else .ok (setPayload s)

theorem parseBody_of_header {s : State} (hlen : s.srcLen ≤ s.cfg.srcCap)
    (h : headerLen ≤ s.srcLen) :
    parseBody s = parseTable (s.withTr fun t => { t with
      origCount := BitVec.ofNat 64 (fieldAt s.input 0 8)
      tableN := BitVec.ofNat 16 (entryCount s.input) }) := by
  rw [parseBody, if_neg (Nat.not_lt.2 h), parseHeader_eq hlen h, Run.andThen_ok]
  rfl

theorem setPayload_freqs (s : State) : (setPayload s).tr.freqs = s.tr.freqs := by
  funext b
  simp only [Transient.freqs, Transient.freqAt, setPayload, State.withTr_tr]

/-- The checks of the table, in the order of R192. -/
theorem parseTable_meets {s : State} (hlen : s.srcLen ≤ s.cfg.srcCap) (hhead : headerLen ≤ s.srcLen)
    (hzero : ∀ c, s.tr.freqAt c = 0) (hcount : s.tr.origCount.toNat = fieldAt s.input 0 8)
    (hn : s.tr.tableN.toNat = entryCount s.input) :
    (parseTable s).meets s.Parsed s.parseError := by
  have hwf := wellFormedContainer_iff (c := s.input) hzero
  rw [s.input_length] at hwf
  unfold parseTable
  rw [hn]
  refine Run.meets_ite (fun hbad => .inl ⟨rfl, fun h => ?_⟩) fun hrange => ?_
  · obtain ⟨-, hrange, -⟩ := hwf.1 h
    omega
  refine Run.meets_ite (fun hshort => .inl ⟨rfl, fun h => ?_⟩) fun htable => ?_
  · obtain ⟨-, -, htable, -⟩ := hwf.1 h
    omega
  refine ((parseEntries_meets (n := entryCount s.input) (k := 0) hlen (by omega)).mono_error
    ?_).andThen ?_
  · rintro k ⟨rfl, hnot⟩
    exact .inl ⟨rfl, fun h => hnot (hwf.1 h).2.2.2⟩
  · rintro _ ⟨htakes, f, rfl, hfreq⟩
    have h := hwf.2 ⟨hhead, by omega, Nat.not_lt.1 htable, htakes⟩
    refine Run.meets_ite (fun hbig => .inr ⟨rfl, h, hcount ▸ hbig⟩) fun hfits => ?_
    refine ⟨h, hcount ▸ Nat.not_lt.1 hfits, hcount, ?_, ?_, funext fun b => ?_⟩
    · simp only [setPayload, State.withTr_tr, hn]
    · simp only [setPayload, State.withTr_tr, State.withTr_srcLen, hn]
    · rw [setPayload_freqs, entriesOf_eq, Transient.freqs, hfreq b, hzero b]
      exact Nat.zero_add _

theorem parseTable_of_header {s : State} {count : BitVec 64} {n : BitVec 16}
    (hlen : s.srcLen ≤ s.cfg.srcCap) (hhead : headerLen ≤ s.srcLen)
    (hzero : ∀ c, s.tr.freqAt c = 0) (hcount : count.toNat = fieldAt s.input 0 8)
    (hn : n.toNat = entryCount s.input) :
    (parseTable (s.withTr fun t => { t with origCount := count, tableN := n })).meets s.Parsed
      s.parseError := by
  have htable := parseTable_meets
    (s := s.withTr fun t => { t with origCount := count, tableN := n }) hlen hhead hzero hcount hn
  exact (htable.mono_error fun k hk => hk).mono fun t ht =>
    ⟨ht.wellFormed, ht.fits, ht.count, ht.payBase, ht.payLen, ht.freq⟩

/-- PARSE accepts exactly the well-formed containers whose count fits DST (R163). -/
theorem parseBody_meets {s : State} (hlen : s.srcLen ≤ s.cfg.srcCap)
    (hzero : ∀ c, s.tr.freqAt c = 0) : (parseBody s).meets s.Parsed s.parseError := by
  by_cases hhead : headerLen ≤ s.srcLen
  · rw [parseBody_of_header hlen hhead]
    refine parseTable_of_header hlen hhead hzero ?_ ?_
    · rw [BitVec.toNat_ofNat]
      exact Nat.mod_eq_of_lt (fieldAt_lt ..)
    · rw [BitVec.toNat_ofNat]
      exact Nat.mod_eq_of_lt (fieldAt_lt ..)
  · rw [parseBody, if_pos (Nat.not_le.1 hhead)]
    refine .inl ⟨rfl, fun h => hhead ?_⟩
    rw [← s.input_length]
    exact h.1

end Sys2Proof.Machine
end

section
/-! SUPPORT. DECODE walks the tree of R102: each payload bit moves the machine's cursor as it moves a walk
over the tree, and emits the same symbols (47_decoder.md R170 to R174). -/

namespace Sys2Proof.Machine

/-! ### The walk over a tree -/

/-- Where a walk stands: at a lone leaf, or at an internal node of a tree with an internal root. -/
inductive HTree.WalkAt : HTree → HTree → Prop
  | lone (c : Byte) : HTree.WalkAt (.leaf c) (.leaf c)
  | inner (l r l' r' : HTree) : HTree.WalkAt (.node l r) (.node l' r')

/-- The symbols that bits decode to from where the walk stands (R172, R173). -/
def HTree.emitsFrom (T C : HTree) (bits : List Bool) : List Byte :=
  match T with
  | .leaf c => bits.map fun _ => c
  | .node _ _ => T.emitFrom C bits

theorem HTree.emitsFrom_root (T : HTree) (bits : List Bool) : T.emitsFrom T bits = T.emit bits := by
  cases T <;> rfl

theorem HTree.walkAt_root (T : HTree) : T.WalkAt T := by
  cases T with
  | leaf c => exact .lone c
  | node l r => exact .inner l r l r

@[simp] theorem HTree.emitsFrom_nil (T C : HTree) : T.emitsFrom C [] = [] := by
  cases T with
  | leaf c => rfl
  | node l r => cases C <;> rfl

/-- The child that a bit selects. -/
def HTree.child (l r : HTree) (b : Bool) : HTree := if b then r else l

/-- A bit that leads to a leaf emits its symbol, and the walk is back at the root. -/
theorem HTree.emitsFrom_leaf {l r l' r' : HTree} {b : Bool} {c : Byte}
    (h : HTree.child l' r' b = .leaf c) (bits : List Bool) :
    (HTree.node l r).emitsFrom (.node l' r') (b :: bits) =
      c :: (HTree.node l r).emitsFrom (.node l r) bits := by
  change (HTree.node l r).emitFrom (.node l' r') (b :: bits) = _
  unfold HTree.child at h
  rw [HTree.emitFrom, h]
  rfl

/-- A bit that leads to an internal node emits nothing, and the walk goes on there. -/
theorem HTree.emitsFrom_node {l r l' r' l'' r'' : HTree} {b : Bool}
    (h : HTree.child l' r' b = .node l'' r'') (bits : List Bool) :
    (HTree.node l r).emitsFrom (.node l' r') (b :: bits) =
      (HTree.node l r).emitsFrom (.node l'' r'') bits := by
  change (HTree.node l r).emitFrom (.node l' r') (b :: bits) = _
  unfold HTree.child at h
  rw [HTree.emitFrom, h]
  rfl

/-! ### One step of the machine -/

/-- The arena holds T under ROOT, and CUR stands where the walk over T stands. -/
structure Transient.Walks (t : Transient) (T C : HTree) : Prop where
  valid : t.treeValid = true
  root : t.holds 511 T t.root
  cur : t.holds 511 C t.cur
  walk : T.WalkAt C

/-- Only NODE, ROOT, CUR and TREE_VALID matter to the walk. -/
theorem Transient.Walks.of_eq {t u : Transient} {T C : HTree} (h : t.Walks T C)
    (hvalid : u.treeValid = t.treeValid) (hnode : u.node = t.node) (hroot : u.root = t.root)
    (hcur : u.cur = t.cur) : u.Walks T C where
  valid := hvalid.trans h.valid
  root := hroot ▸ h.root.of_node_eq hnode
  cur := hcur ▸ h.cur.of_node_eq hnode
  walk := h.walk

/-- The walk moves on to another node. -/
theorem Transient.Walks.move {t : Transient} {T C C' : HTree} (h : t.Walks T C) {i : Nat}
    (hcur : t.holds 511 C' i) (hwalk : T.WalkAt C') :
    ({ t with cur := i } : Transient).Walks T C' where
  valid := h.valid
  root := h.root.of_node_eq rfl
  cur := hcur.of_node_eq rfl
  walk := hwalk

theorem Transient.rootIsLeaf_leaf {t : Transient} {c : Byte} {k : Nat} (hvalid : t.treeValid = true)
    (h : t.holds k (.leaf c) t.root) : t.rootIsLeaf = true := by
  obtain ⟨-, v, hv, hleaf, -⟩ := h
  have hnode : t.node[t.root]? = some v := hv
  simp [Transient.rootIsLeaf, hvalid, hnode, hleaf]

theorem Transient.rootIsLeaf_node {t : Transient} {l r : HTree} {k : Nat}
    (h : t.holds k (.node l r) t.root) : t.rootIsLeaf = false := by
  obtain ⟨-, v, hv, hleaf, -⟩ := h
  have hnode : t.node[t.root]? = some v := hv
  simp [Transient.rootIsLeaf, hnode, hleaf]

/-- The state after a step that emitted these symbols and left CUR at i. -/
def State.emitted (s : State) (out : List Byte) (i : Nat) : State :=
  { s with
    dst := Memory.storeAll s.tr.wptr out s.dst
    tr := { s.tr with
      wptr := s.tr.wptr + out.length, cur := i, emitted := s.tr.emitted + out.length } }

theorem stepLeafRoot_emits {s : State} {c : Byte} (h : s.tr.holds 511 (.leaf c) s.tr.root)
    (hroom : s.tr.wptr < s.cfg.dstCap) : stepLeafRoot s = .ok (s.emitted [c] s.tr.cur) := by
  obtain ⟨-, v, hv, -, rfl⟩ := h
  rw [stepLeafRoot, hv]
  exact emitSymbol_of_lt hroom v.sym

theorem Transient.childOf_holds {t : Transient} {l r : HTree} {k : Nat}
    (h : t.holds k (.node l r) t.cur) (b : Bool) :
    ∃ i, t.childOf b = some i ∧ t.holds k (HTree.child l r b) i := by
  obtain ⟨-, v, hv, -, hl, hr⟩ := h
  refine ⟨if b then v.right else v.left, by rw [Transient.childOf, hv]; rfl, ?_⟩
  cases b
  · exact hl
  · exact hr

/-- A step over a tree with an internal root (R172). -/
theorem stepWalk_emits {s : State} {l r l' r' : HTree} (h : s.tr.Walks (.node l r) (.node l' r'))
    (hroom : s.tr.wptr < s.cfg.dstCap) (b : Bool) :
    ∃ out i C, stepWalk s b = .ok (s.emitted out i) ∧ out.length ≤ 1 ∧
      ({ s.tr with cur := i } : Transient).Walks (.node l r) C ∧
      ∀ bits, (HTree.node l r).emitsFrom (.node l' r') (b :: bits) =
        out ++ (HTree.node l r).emitsFrom C bits := by
  obtain ⟨i, hchild, hi⟩ := Transient.childOf_holds h.cur b
  cases hC : HTree.child l' r' b with
  | leaf c =>
    rw [hC] at hi
    obtain ⟨-, v, hv, hleaf, rfl⟩ := hi
    refine ⟨[v.sym], s.tr.root, .node l r, ?_, le_rfl, h.move h.root (.inner l r l r),
      HTree.emitsFrom_leaf hC⟩
    have hv' : (s.withTr fun t => { t with cur := i }).tr.nodeAt i = some v := hv
    rw [stepWalk, hchild]
    simp only [hv', hleaf, if_true]
    rw [emitSymbol_of_lt (by exact hroom), Run.andThen_ok]
    rfl
  | node l'' r'' =>
    rw [hC] at hi
    have hmove := h.move hi (.inner l r l'' r'')
    obtain ⟨-, v, hv, hleaf, -⟩ := hi
    refine ⟨[], i, .node l'' r'', ?_, Nat.zero_le 1, hmove, HTree.emitsFrom_node hC⟩
    have hv' : (s.withTr fun t => { t with cur := i }).tr.nodeAt i = some v := hv
    rw [stepWalk, hchild]
    simp only [hv', hleaf, Bool.false_eq_true, if_false]
    rfl

/-- A step takes one bit of the walk and emits what the walk emits. -/
theorem stepBit_emits {s : State} {T C : HTree} (h : s.tr.Walks T C)
    (hroom : s.tr.wptr < s.cfg.dstCap) (b : Bool) :
    ∃ out i C', stepBit s b = .ok (s.emitted out i) ∧ out.length ≤ 1 ∧
      ({ s.tr with cur := i } : Transient).Walks T C' ∧
      ∀ bits, T.emitsFrom C (b :: bits) = out ++ T.emitsFrom C' bits := by
  have hroot := h.root
  cases h.walk with
  | lone c =>
    refine ⟨[c], s.tr.cur, .leaf c, ?_, le_rfl, h.of_eq rfl rfl rfl rfl, fun bits => rfl⟩
    rw [stepBit, if_pos (Transient.rootIsLeaf_leaf h.valid hroot)]
    exact stepLeafRoot_emits hroot hroom
  | inner l r l' r' =>
    obtain ⟨out, i, C, hstep, hrest⟩ := stepWalk_emits h hroom b
    refine ⟨out, i, C, ?_, hrest⟩
    rw [stepBit, if_neg (by simp [Transient.rootIsLeaf_node hroot]), hstep]

/-! ### The loop -/

/-- Bit i of the payload (R63). -/
def State.bitAt (s : State) (i : Nat) : Bool :=
  (s.srcByte (payloadByteAddr s.tr.payBase i)).getLsbD (payloadBitPos i)

theorem State.payloadBit_eq {s : State} {i : Nat}
    (h : payloadByteAddr s.tr.payBase i < s.cfg.srcCap) :
    s.payloadBit s.tr.payBase i = some (s.bitAt i) := by
  rw [State.payloadBit, State.readSrc_of_lt h]
  rfl

/-- The symbols that the loop of R170 emits from s on, with n bits still under the limit. -/
def State.emission (s : State) (T C : HTree) (n : Nat) : List Byte :=
  (T.emitsFrom C ((List.range' s.tr.bitpos n).map s.bitAt)).take
    (s.tr.origCount.toNat - s.tr.emitted)

theorem decodeLoop_emits {n : Nat} {s : State} {T C : HTree} (h : s.tr.Walks T C)
    (hemitted : s.tr.emitted = s.tr.wptr) (hcap : s.tr.origCount.toNat ≤ s.cfg.dstCap)
    (hbits : s.tr.bitpos + n ≤ 8 * s.tr.payLen) (hpay : s.tr.payBase + s.tr.payLen ≤ s.cfg.srcCap) :
    (decodeLoop n s).meets
      (fun t => t.dst = Memory.storeAll s.tr.wptr (s.emission T C n) s.dst ∧
        t.tr.wptr = s.tr.wptr + (s.emission T C n).length ∧ t.tr.emitted = t.tr.wptr ∧
        t.tr.origCount = s.tr.origCount)
      fun _ => False := by
  induction n generalizing s C with
  | zero =>
    have hnone : s.emission T C 0 = [] := by
      rw [State.emission, List.range'_zero, List.map_nil, HTree.emitsFrom_nil, List.take_nil]
    rw [hnone]
    exact ⟨rfl, rfl, hemitted, rfl⟩
  | succ n ih =>
    refine Run.meets_ite (fun hmore => ?_) fun hdone => ?_
    · rw [State.payloadBit_eq (by unfold payloadByteAddr; omega)]
      obtain ⟨out, i, C', hstep, hout, hwalks, hemits⟩ := stepBit_emits
        (s := s.withTr fun t => { t with bitpos := t.bitpos + 1 })
        (h.of_eq rfl rfl rfl rfl) (by change s.tr.wptr < s.cfg.dstCap; omega) (s.bitAt s.tr.bitpos)
      simp only
      rw [hstep, Run.andThen_ok]
      have hrest := ih (s := (s.withTr fun t => { t with bitpos := t.bitpos + 1 }).emitted out i)
        (hwalks.of_eq rfl rfl rfl rfl) (congrArg (· + out.length) hemitted) hcap
        (by change s.tr.bitpos + 1 + n ≤ 8 * s.tr.payLen; omega) hpay
      have hsplit : s.emission T C (n + 1) = out ++
          ((s.withTr fun t => { t with bitpos := t.bitpos + 1 }).emitted out i).emission T C' n := by
        rw [State.emission, List.range'_succ, List.map_cons, hemits, List.take_append,
          List.take_of_length_le (by omega), Nat.sub_sub]
        rfl
      refine hrest.mono ?_
      rintro t ⟨hdst, hwptr, heq, horig⟩
      refine ⟨?_, ?_, heq, horig⟩
      · rw [hdst, hsplit, Memory.storeAll_append]
        rfl
      · rw [hwptr, hsplit, List.length_append, ← Nat.add_assoc]
        rfl
    · have hnone : s.emission T C (n + 1) = [] := by
        rw [State.emission, Nat.sub_eq_zero_of_le (Nat.not_lt.1 hdone), List.take_zero]
      rw [hnone]
      exact ⟨rfl, rfl, hemitted, rfl⟩

/-! ### The whole of DECODE -/

/-- DECODE leaves the output of R102 in DST, or raises SizeMismatch because it is too short (R174). -/
theorem decodeBody_meets {s : State} {T : HTree} (hvalid : s.tr.treeValid = true)
    (hT : s.tr.holds 511 T s.tr.root) (hcap : s.tr.origCount.toNat ≤ s.cfg.dstCap)
    (hpay : s.tr.payBase + s.tr.payLen ≤ s.cfg.srcCap) {out : List Byte}
    (hout : out = (T.emit s.payloadBits).take s.tr.origCount.toNat) :
    (decodeBody s).meets
      (fun t => out.length = s.tr.origCount.toNat ∧ t.dst = Memory.storeAll 0 out s.dst ∧
        t.tr.wptr = out.length)
      fun k => k = .sizeMismatch ∧ out.length ≠ s.tr.origCount.toNat := by
  have hinit : (decodeInit s).emission T T (decodeInit s).tr.limit = out := by
    rw [hout, State.emission, HTree.emitsFrom_root, State.payloadBits, List.range_eq_range']
    rfl
  have hloop := decodeLoop_emits (s := decodeInit s) (n := (decodeInit s).tr.limit)
    ⟨hvalid, hT.of_node_eq rfl, hT.of_node_eq rfl, T.walkAt_root⟩ rfl hcap
    (by change 0 + min (8 * s.tr.payLen) (8 * s.tr.origCount.toNat) ≤ 8 * s.tr.payLen; omega) hpay
  rw [hinit] at hloop
  refine (hloop.mono_error fun _ h => h.elim).andThen ?_
  rintro t ⟨hdst, hwptr, hemitted, horig⟩
  have hcount : t.tr.emitted = out.length := by
    rw [hemitted, hwptr]
    exact Nat.zero_add _
  have horig' : t.tr.origCount = s.tr.origCount := horig
  rw [hcount, horig']
  refine Run.meets_ite (fun hne => ⟨rfl, hne⟩) fun heq => ⟨Decidable.not_not.1 heq, hdst, ?_⟩
  rw [← hemitted, hcount]

/-! ### The payload of R102 -/

/-- Bit i of a byte string is bit i of its byte i / 8 (R63). -/
theorem unpackBytes_getElem? (bs : List Byte) (i : Nat) :
    (unpackBytes bs)[i]? = bs[i / 8]?.map fun b => b.getLsbD (payloadBitPos i) := by
  induction bs generalizing i with
  | nil => rfl
  | cons b bs ih =>
    have hlen : ((List.range 8).map fun i => b.getLsbD (payloadBitPos i)).length = 8 := by simp
    rw [unpackBytes, List.flatMap_cons]
    by_cases hi : i < 8
    · rw [List.getElem?_append_left (by omega), Nat.div_eq_of_lt hi]
      simp [hi]
    · obtain ⟨j, rfl⟩ := Nat.exists_eq_add_of_le (Nat.not_lt.1 hi)
      have hdiv : (8 + j) / 8 = j / 8 + 1 := by omega
      have hpos : payloadBitPos (8 + j) = payloadBitPos j := by unfold payloadBitPos; omega
      rw [List.getElem?_append_right (by omega), hlen, Nat.add_sub_cancel_left, hdiv, hpos,
        List.getElem?_cons_succ]
      exact ih j

/-- The payload bits that DECODE reads are those of R102. -/
theorem State.payloadBits_eq {s : State} (hpay : s.tr.payBase + s.tr.payLen = s.srcLen) :
    s.payloadBits = (unpackBytes (s.input.drop s.tr.payBase)).take
      (bitLimit s.tr.payLen s.tr.origCount.toNat) := by
  have hlimit : bitLimit s.tr.payLen s.tr.origCount.toNat ≤ 8 * s.tr.payLen := Nat.min_le_left _ _
  unfold State.payloadBits
  generalize bitLimit s.tr.payLen s.tr.origCount.toNat = limit at *
  refine List.ext_getElem? fun i => ?_
  rw [List.getElem?_take, unpackBytes_getElem?, List.getElem?_drop]
  by_cases hi : i < limit
  · rw [if_pos hi, State.input_getElem? (by omega)]
    simp [hi, payloadByteAddr]
  · rw [if_neg hi]
    simp [Nat.not_lt.1 hi]

end Sys2Proof.Machine
end

section
/-! SUPPORT. DECOMPRESS is the function `Decompress` (40_commands.md R102): the phases of its path from the
last one back to the dispatch, each with what it needs and the result that the rest of the command
has. -/

namespace Sys2Proof.Machine

theorem Run.meets.and_ends {P Q : State → Prop} {E : ErrorKind → Prop} {r : Run} (h : r.meets P E)
    (h' : r.ends Q) : r.meets (fun t => P t ∧ Q t) E := by
  cases r with
  | ok t => exact ⟨h, h'⟩
  | raised k t => exact h
  | stuck e => exact h

/-! ### The result of DECOMPRESS -/

/-- The output that R102 reads from a payload by a tree. -/
def decodedBytes (T : HTree) (payload : List Byte) (count : Nat) : List Byte :=
  (T.emit ((unpackBytes payload).take (bitLimit payload.length count))).take count

/-- An output, if it has the length that the header gives (R174). -/
def sized (count : Nat) (out : List Byte) : Except ErrorKind (List Byte) :=
  if out.length = count then .ok out else .error .sizeMismatch

theorem decompressRef_of_malformed {c : Config} {input : List Byte}
    (hlen : input.length ≤ c.srcCap) (hwf : ¬ wellFormedContainer input) :
    decompressRef c input = .error .malformedContainer :=
  (if_neg (Nat.not_lt.2 hlen)).trans (if_pos hwf)

theorem decompressRef_of_too_big {c : Config} {input : List Byte}
    (hlen : input.length ≤ c.srcCap) (hwf : wellFormedContainer input)
    (hbig : c.dstCap < fieldAt input 0 8) : decompressRef c input = .error .dstOverflow :=
  (if_neg (Nat.not_lt.2 hlen)).trans ((if_neg (not_not_intro hwf)).trans (if_pos hbig))

theorem decompressRef_of_tree {c : Config} {input : List Byte} {T : HTree}
    (hlen : input.length ≤ c.srcCap) (hwf : wellFormedContainer input)
    (hfits : fieldAt input 0 8 ≤ c.dstCap)
    (hT : buildRef (entryFreq (entriesOf input (entryCount input))) = some T) :
    decompressRef c input = sized (fieldAt input 0 8)
      (decodedBytes T (input.drop (10 + 5 * entryCount input)) (fieldAt input 0 8)) := by
  rw [decompressRef, if_neg (Nat.not_lt.2 hlen), if_neg (not_not_intro hwf),
    if_neg (Nat.not_lt.2 hfits), hT]
  rfl

/-! ### From a phase to the end -/

/-- The output that DECODE reads is that of R102. -/
theorem State.decodedBytes_eq {s : State} (hpay : s.tr.payBase + s.tr.payLen = s.srcLen)
    (T : HTree) : decodedBytes T (s.input.drop s.tr.payBase) s.tr.origCount.toNat =
      (T.emit s.payloadBits).take s.tr.origCount.toNat := by
  have hlen : (s.input.drop s.tr.payBase).length = s.tr.payLen := by
    rw [List.length_drop, s.input_length, ← hpay, Nat.add_sub_cancel_left]
  rw [State.payloadBits_eq hpay, decodedBytes, hlen]

/-- DECODE over the tree of R102 (R170, R97). -/
theorem State.Running.decode_endsAs {s : State} {T : HTree} (h : s.Running 2#32 .decode)
    (hlen : s.srcLen ≤ s.cfg.srcCap) (hvalid : s.tr.treeValid = true)
    (hT : s.tr.holds 511 T s.tr.root) (hcap : s.tr.origCount.toNat ≤ s.cfg.dstCap)
    (hpay : s.tr.payBase + s.tr.payLen = s.srcLen) (n : Nat) :
    s.endsAs (n + 1) (sized s.tr.origCount.toNat
      (decodedBytes T (s.input.drop s.tr.payBase) s.tr.origCount.toNat)) := by
  have hbody := decodeBody_meets hvalid hT hcap (hpay.trans_le hlen) (State.decodedBytes_eq hpay T)
  generalize decodedBytes T (s.input.drop s.tr.payBase) s.tr.origCount.toNat = out at *
  refine h.endsAs (after := none) (by decide) rfl (hbody.mono_error ?_) ?_
  · rintro k ⟨rfl, hne⟩
    exact if_neg hne
  · rintro m u - ⟨hsize, hm, hu⟩
    change (({ s with dst := m, tr := u } : State).succeed u.wptr).endsAs n _
    simp only at hu hm
    rw [hu, sized, if_pos hsize]
    refine State.succeed_endsAs (State.holdsResult_succeed ?_ fun i hi => ?_) n
    · exact hsize.symm ▸ s.tr.origCount.isLt
    · simp only
      rw [hm, Memory.lookup_storeAll, if_pos (by omega), Nat.sub_zero]

/-- BUILD of the parsed table leaves the tree of R102 (R110). -/
theorem State.Running.build_decode_endsAs {s : State} {T : HTree} (h : s.Running 2#32 .build)
    (hlen : s.srcLen ≤ s.cfg.srcCap) (hsize : 1 ≤ s.tr.alphabetSize)
    (hqueue : s.tr.queueEmpty) (hT : buildRef s.tr.freqs = some T)
    (hcap : s.tr.origCount.toNat ≤ s.cfg.dstCap) (hpay : s.tr.payBase + s.tr.payLen = s.srcLen)
    (n : Nat) :
    s.endsAs (n + 2) (sized s.tr.origCount.toNat
      (decodedBytes T (s.input.drop s.tr.payBase) s.tr.origCount.toNat)) := by
  obtain ⟨u, T', hu, hT', hholds, hvalid, -, honly⟩ := buildTree_eq_buildRef hqueue hsize
  obtain rfl := Option.some.inj (hT.symm.trans hT')
  unfold Transient.onlyArena at honly
  generalize u.node = node, u.inq = inq, u.nextFree = next, u.root = root, u.treeValid = valid at *
  subst honly
  refine h.endsAs (after := some .decode) (by decide) rfl
    (P := fun t => t.dst = s.dst ∧ t.tr = { s.tr with
      node := node, inq := inq, nextFree := next, root := root, treeValid := valid }) ?_ ?_
  · change (buildBody s).meets _ _
    rw [buildBody, hu]
    simp only [hvalid, if_true]
    exact ⟨rfl, rfl⟩
  · rintro m u - ⟨hm, hu⟩
    simp only at hm hu
    subst hm hu
    have hrun : State.Running 2#32 .decode { s with
        phase := .decode
        tr := { s.tr with
          node := node, inq := inq, nextFree := next, root := root, treeValid := valid } } :=
      ⟨h.busy, rfl, h.latch⟩
    exact hrun.decode_endsAs hlen hvalid hholds hcap hpay n

/-- PARSE of an input that fits SRC, from the cleared transient state (R155). -/
theorem State.Running.parse_endsAs {s : State} (h : s.Running 2#32 .parse)
    (hlen : s.srcLen ≤ s.cfg.srcCap) (hzero : s.tr = Transient.zero) (n : Nat) :
    s.endsAs (n + 3) (decompressRef s.cfg s.input) := by
  have hfit : s.input.length ≤ s.cfg.srcCap := s.input_length.trans_le hlen
  refine h.endsAs (after := some .build) (by decide) rfl
    (((parseBody_meets hlen fun c => hzero ▸ Transient.freqAt_zero c).and_ends
      (parseBody_ends hlen hzero)).mono_error ?_) ?_
  · rintro k (⟨rfl, hwf⟩ | ⟨rfl, hwf, hbig⟩)
    · exact decompressRef_of_malformed hfit hwf
    · exact decompressRef_of_too_big hfit hwf hbig
  · rintro m u - ⟨⟨hwf, hfits, hcount, hbase, -, hfreq⟩, hqueue, -, -, hsize, hcap, hpay⟩
    simp only at hcount hbase hfreq hqueue hsize hcap hpay
    have hrun : State.Running 2#32 .build { s with dst := m, tr := u, phase := .build } :=
      ⟨h.busy, rfl, h.latch⟩
    obtain ⟨v, T, -, hT, -⟩ := buildTree_eq_buildRef hqueue hsize
    have hend := hrun.build_decode_endsAs hlen hsize hqueue hT hcap hpay n
    rw [decompressRef_of_tree hfit hwf hfits (hfreq ▸ hT), ← hcount, ← hbase]
    exact hend

/-- Settles O53: dispatch makes the check that `Decompress` makes of the length, and PARSE starts from the
cleared transient state. -/
theorem decompressIsItsFunction : Obligations.DecompressIsItsFunction := by
  intro s h _
  change s.endsAs maxEngineSteps (decompressRef s.cfg s.input)
  by_cases hlong : s.cfg.srcCap < s.srcLen
  · have hresult : decompressRef s.cfg s.input = .error .badLength :=
      if_pos (by rwa [s.input_length])
    rw [hresult]
    exact State.endsAs_of_step h.1 (engineStep_accepted_long h (.inr rfl) hlong) rfl rfl
      (State.raise_endsAs _ _ 5)
  · have hlen := Nat.not_lt.1 hlong
    have hrun : State.Running 2#32 .parse { s.prologue with phase := firstPhase 2#32 } :=
      ⟨h.1, rfl, h.2.2⟩
    exact State.endsAs_of_step h.1 (engineStep_accepted_starts h (.inr rfl) hlen nofun)
      rfl rfl (hrun.parse_endsAs hlen rfl 2)

end Sys2Proof.Machine
end

section
/-! SUPPORT. PopMin, one pass of the loop of R113, and two arenas side by side that agree on the slots
BUILD has made (41_tree_builder.md R112, R113, R115). -/

namespace Sys2Proof.Machine

/-! ### PopMin -/

theorem Transient.queue_eq_nil_iff {t : Transient} : t.queue = [] ↔ t.queueEmpty := by
  refine ⟨fun h i => ?_, Transient.queue_eq_nil_of_queueEmpty⟩
  rw [← Bool.not_eq_true, ← Transient.mem_queue, h]
  exact List.not_mem_nil

theorem Transient.popMin_eq_none {t : Transient} : t.popMin = none ↔ t.queueEmpty := by
  rw [← Transient.queue_eq_nil_iff]
  constructor
  · intro h
    by_contra hq
    obtain ⟨i, hpop, -⟩ := Transient.popMin_of_ne_nil hq
    cases h.symm.trans hpop
  · intro h
    rw [Transient.popMin, h]
    rfl

/-- The order of R112 is total: what does not stand before another index stands behind it. -/
theorem Transient.before_of_not_before {t : Transient} {i j : Nat} (h : ¬ t.before j i = true)
    (hne : j ≠ i) : t.before i j = true := by
  rw [Transient.before_iff] at h ⊢
  omega

theorem Transient.popMin_before {t u : Transient} {i j : Nat} (h : t.popMin = some (i, u))
    (hj : t.inqAt j = true) (hne : j ≠ i) : t.before i j = true := by
  obtain ⟨k, hleast, hk⟩ := Option.map_eq_some_iff.1 h
  cases hk
  exact Transient.before_of_not_before
    (Transient.not_before_least hleast j (Transient.mem_queue.2 hj)) hne

/-- Settles O23: the least of a list stands before every other index of it. -/
theorem popMinTakesTheLeast : Obligations.PopMinTakesTheLeast := by
  refine fun t => ⟨Transient.popMin_eq_none, fun i u h => ?_⟩
  obtain ⟨hi, hu⟩ := Transient.popMin_eq_some h
  exact ⟨hi, hu, fun j hj hne => Transient.before_iff.1 (Transient.popMin_before h hj hne)⟩

/-! ### One pass of the loop -/

/-- A pass of R113 that pops a and then b, and answers u. -/
structure Transient.Merges (t : Transient) (a b : Nat) (u : Transient) : Prop where
  popLeft : t.popMin = some (a, t.setInq a false)
  popRight : (t.setInq a false).popMin = some (b, (t.setInq a false).setInq b false)
  room : t.nextFree < 511
  result : u = ((t.setInq a false).setInq b false).pushParent a b

theorem mergeOnce_merges {t u : Transient} (h : mergeOnce t = some u) :
    ∃ a b, t.Merges a b u := by
  obtain ⟨⟨a, v⟩, hpopA, h⟩ := Option.bind_eq_some_iff.1 h
  obtain ⟨⟨b, w⟩, hpopB, h⟩ := Option.bind_eq_some_iff.1 h
  obtain ⟨-, rfl⟩ := Transient.popMin_eq_some hpopA
  obtain ⟨-, rfl⟩ := Transient.popMin_eq_some hpopB
  by_cases hfree : t.nextFree < 511
  · exact ⟨a, b, hpopA, hpopB, hfree, (Option.some.inj ((if_pos hfree).symm.trans h)).symm⟩
  · exact absurd ((if_neg hfree).symm.trans h) nofun

/-- What every pass of R113 keeps, the loop keeps. -/
theorem mergeLoop_induction {P : Transient → Prop}
    (hmerge : ∀ v w, P v → mergeOnce v = some w → P w) {fuel : Nat} {t u : Transient}
    (ht : P t) (h : mergeLoop fuel t = some u) : P u := by
  induction fuel generalizing t with
  | zero => cases h; exact ht
  | succ fuel ih =>
    rw [mergeLoop] at h
    split at h
    · cases h; exact ht
    · obtain ⟨v, hv, h⟩ := Option.bind_eq_some_iff.1 h
      exact ih (hmerge t v ht hv) h

/-! ### Two arenas with equal slots below k -/

/-- The same queue, inside the first k slots, and the same nodes there. -/
structure Transient.SameArena (k : Nat) (t u : Transient) : Prop where
  inq : u.inq = t.inq
  queued : ∀ i, t.inqAt i = true → i < k
  node : ∀ i, i < k → u.nodeAt i = t.nodeAt i

theorem Transient.SameArena.weightAt {k i : Nat} {t u : Transient} (h : t.SameArena k u)
    (hi : i < k) : u.weightAt i = t.weightAt i := by
  rw [Transient.weightAt, h.node i hi]
  rfl

theorem Transient.SameArena.queue_eq {k : Nat} {t u : Transient} (h : t.SameArena k u) :
    u.queue = t.queue := by
  rw [Transient.queue, h.inq]
  rfl

/-- The least of a list depends on the weights in it alone. -/
theorem Transient.least_congr {t u : Transient} {l : List Nat}
    (h : ∀ i ∈ l, u.weightAt i = t.weightAt i) : u.least l = t.least l := by
  induction l with
  | nil => rfl
  | cons i l ih =>
    obtain ⟨hi, hl⟩ := List.forall_mem_cons.1 h
    rw [Transient.least, Transient.least, ih hl]
    cases hleast : t.least l with
    | none => rfl
    | some j =>
      have hne : l ≠ [] := by rintro rfl; cases hleast
      obtain ⟨m, hm, hleast'⟩ := t.least_mem hne
      obtain rfl := Option.some.inj (hleast.symm.trans hleast')
      have hbefore : u.before j i = t.before j i := by
        rw [Transient.before, Transient.before, hi, hl _ hm]
      simp only [hbefore]

theorem Transient.SameArena.popMin {k i : Nat} {t u : Transient} (h : t.SameArena k u)
    (hpop : t.popMin = some (i, t.setInq i false)) : u.popMin = some (i, u.setInq i false) := by
  have hleast : u.least t.queue = t.least t.queue := Transient.least_congr fun j hj =>
    h.weightAt (h.queued j (Transient.mem_queue.1 hj))
  obtain ⟨j, hj, heq⟩ := Option.map_eq_some_iff.1 hpop
  cases heq
  rw [Transient.popMin, h.queue_eq, hleast, hj]
  rfl

theorem Transient.SameArena.pop {k : Nat} {t u : Transient} (h : t.SameArena k u) (i : Nat) :
    (t.setInq i false).SameArena k (u.setInq i false) where
  inq := by rw [Transient.setInq, Transient.setInq, h.inq]
  queued j hj := h.queued j <| by
    rw [Transient.inqAt_setInq] at hj
    split at hj
    · cases hj
    · exact hj
  node := h.node

theorem Transient.SameArena.push {k : Nat} {t u : Transient} (h : t.SameArena k u) (hk : k < 511)
    (v : Node) :
    ((t.setNode k v).setInq k true).SameArena (k + 1) ((u.setNode k v).setInq k true) where
  inq := by rw [Transient.setInq, Transient.setInq, Transient.setNode_inq, h.inq]; rfl
  queued i hi := by
    rw [Transient.inqAt_setInq, Transient.inqAt_setNode] at hi
    split at hi
    · omega
    · exact Nat.lt_succ_of_lt (h.queued i hi)
  node i hi := by
    rw [Transient.nodeAt_setInq, Transient.nodeAt_setInq, Transient.nodeAt_setNode,
      Transient.nodeAt_setNode]
    split
    · rfl
    · next hne => exact h.node i (by omega)

theorem createLeaves_sameArena {es : List (Byte × BitVec 32)} {k : Nat} {t u : Transient}
    (h : t.SameArena k u) (hk : k + es.length ≤ 511) :
    (createLeaves es k t).SameArena (k + es.length) (createLeaves es k u) ∧
      (createLeaves es k t).nextFree = k + es.length ∧
      (createLeaves es k u).nextFree = k + es.length := by
  induction es generalizing k t u with
  | nil => exact ⟨⟨h.inq, h.queued, h.node⟩, rfl, rfl⟩
  | cons e es ih =>
    rw [List.length_cons] at hk ⊢
    have hrest := ih (h.push (by omega) ⟨e.2.toNat, true, e.1, 0, 0⟩) (by omega)
    rw [Nat.add_right_comm] at hrest
    exact hrest

theorem Transient.SameArena.pushParent {t u : Transient} {a b : Nat}
    (h : t.SameArena t.nextFree u) (hnext : u.nextFree = t.nextFree) (hfree : t.nextFree < 511)
    (ha : a < t.nextFree) (hb : b < t.nextFree) :
    (t.pushParent a b).SameArena (t.nextFree + 1) (u.pushParent a b) := by
  have hpush := h.push hfree ⟨t.weightAt a + t.weightAt b, false, 0, a, b⟩
  rw [Transient.pushParent, Transient.pushParent, hnext, h.weightAt ha, h.weightAt hb]
  exact ⟨hpush.inq, hpush.queued, hpush.node⟩

theorem Transient.SameArena.mergeOnce {t t' u : Transient} (h : t.SameArena t.nextFree u)
    (hnext : u.nextFree = t.nextFree) (ht : Machine.mergeOnce t = some t') :
    ∃ u', Machine.mergeOnce u = some u' ∧ t'.SameArena t'.nextFree u' ∧
      u'.nextFree = t'.nextFree := by
  obtain ⟨a, b, hpopA, hpopB, hfree, rfl⟩ := mergeOnce_merges ht
  have ha := h.queued a (Transient.popMin_eq_some hpopA).1
  have hb := (h.pop a).queued b (Transient.popMin_eq_some hpopB).1
  exact ⟨_, mergeOnce_of_popMin (h.popMin hpopA) ((h.pop a).popMin hpopB) (hnext ▸ hfree),
    ((h.pop a).pop b).pushParent hnext hfree ha hb, congrArg (· + 1) hnext⟩

theorem Transient.SameArena.mergeLoop {fuel : Nat} {t t' u : Transient}
    (h : t.SameArena t.nextFree u) (hnext : u.nextFree = t.nextFree)
    (ht : Machine.mergeLoop fuel t = some t') :
    ∃ u', Machine.mergeLoop fuel u = some u' ∧ t'.SameArena t'.nextFree u' := by
  induction fuel generalizing t u with
  | zero => cases ht; exact ⟨u, rfl, h⟩
  | succ fuel ih =>
    rw [Machine.mergeLoop] at ht ⊢
    rw [h.queue_eq]
    split at ht
    · next hq => cases ht; exact ⟨u, if_pos hq, h⟩
    · next hq =>
      obtain ⟨v, hv, ht⟩ := Option.bind_eq_some_iff.1 ht
      obtain ⟨w, hw, hsame, hnext'⟩ := h.mergeOnce hnext hv
      obtain ⟨u', hu', hdone⟩ := ih hsame hnext' ht
      exact ⟨u', by rw [if_neg hq, hw]; exact hu', hdone⟩

/-- Two empty queues are the same INQ, and hold no slot that could differ. -/
theorem Transient.sameArena_of_queueEmpty {t u : Transient} (ht : t.queueEmpty)
    (hu : u.queueEmpty) : t.SameArena 0 u where
  inq := Vector.ext fun i hi => by
    have hti := ht i
    have hui := hu i
    simp only [Transient.inqAt, Vector.getElem?_eq_getElem hi] at hti hui
    simpa using hui.trans hti.symm
  queued i hi := by rw [ht i] at hi; cases hi
  node i hi := absurd hi (Nat.not_lt_zero i)

end Sys2Proof.Machine
end

section
/-! SUPPORT. The arena while BUILD runs: which slots are leaves, which stand over which, and which are
still roots (41_tree_builder.md R111, R113, R118, 10_state.md R31). -/

namespace Sys2Proof.Machine

/-! ### The leaves (R111) -/

/-- The leaf of a table entry (R111). -/
def leafNode (e : Byte × BitVec 32) : Node := ⟨e.2.toNat, true, e.1, 0, 0⟩

theorem createLeaves_nodeAt {es : List (Byte × BitVec 32)} {k : Nat} {t : Transient}
    (hk : k + es.length ≤ 511) (i : Nat) :
    (createLeaves es k t).nodeAt i =
      if i < k then t.nodeAt i else (es[i - k]?.map leafNode).or (t.nodeAt i) := by
  induction es generalizing k t with
  | nil => simp only [List.getElem?_nil, Option.map_none, Option.none_or, ite_self]; rfl
  | cons e es ih =>
    rw [List.length_cons] at hk
    rw [createLeaves, ih (by omega), Transient.nodeAt_setInq, Transient.nodeAt_setNode]
    rcases lt_trichotomy i k with hik | rfl | hik
    · rw [if_pos (by omega), if_pos hik, if_neg (by omega)]
    · rw [if_pos (Nat.lt_succ_self i), if_neg (lt_irrefl i), if_pos ⟨rfl, by omega⟩, Nat.sub_self]
      rfl
    · have hsub : i - k = i - (k + 1) + 1 := by omega
      rw [if_neg (by omega), if_neg (by omega), if_neg (by omega), hsub, List.getElem?_cons_succ]

theorem createLeaves_inqAt {es : List (Byte × BitVec 32)} {k : Nat} {t : Transient}
    (hk : k + es.length ≤ 511) (i : Nat) :
    (createLeaves es k t).inqAt i = true ↔ (k ≤ i ∧ i < k + es.length) ∨ t.inqAt i = true := by
  induction es generalizing k t with
  | nil =>
    rw [List.length_nil, or_iff_right (by omega)]
    exact Iff.rfl
  | cons e es ih =>
    rw [List.length_cons] at hk ⊢
    rw [createLeaves, ih (by omega), Transient.inqAt_setInq, Transient.inqAt_setNode]
    split
    · next hik => exact iff_of_true (.inr rfl) (.inl (by omega))
    · next hik => exact or_congr_left (by omega)

/-- A pushed node that was not queued brings its own weight. -/
theorem Transient.queueWeight_push {t : Transient} {i : Nat} (hi : i < 511)
    (hq : t.inqAt i = false) (v : Node) :
    ((t.setNode i v).setInq i true).queueWeight = t.queueWeight + v.weight := by
  have hin : ((t.setNode i v).setInq i true).inqAt i = true := by
    rw [Transient.inqAt_setInq, if_pos ⟨rfl, hi⟩]
  have hweight : ((t.setNode i v).setInq i true).weightAt i = v.weight := by
    rw [Transient.weightAt, Transient.nodeAt_setInq, Transient.nodeAt_setNode, if_pos ⟨rfl, hi⟩]
    rfl
  rw [← Transient.queueWeight_pop hin, hweight]
  refine congrArg (· + v.weight) (Finset.sum_congr rfl fun j _ => ?_)
  by_cases hij : i = j
  · subst hij
    have hgone : (((t.setNode i v).setInq i true).setInq i false).inqAt i = false := by
      rw [Transient.inqAt_setInq, if_pos ⟨rfl, hi⟩]
    rw [hgone, hq, if_neg Bool.false_ne_true, if_neg Bool.false_ne_true]
  · have hnot : ¬ (i = j ∧ i < 511) := fun h => hij h.1
    simp only [Transient.inqAt_setInq, Transient.inqAt_setNode, Transient.weightAt,
      Transient.nodeAt_setInq, Transient.nodeAt_setNode, if_neg hnot]

theorem createLeaves_queueWeight {es : List (Byte × BitVec 32)} {k : Nat} {t : Transient}
    (hk : k + es.length ≤ 511) (hq : ∀ i, k ≤ i → t.inqAt i = false) :
    (createLeaves es k t).queueWeight = t.queueWeight + (es.map fun e => e.2.toNat).sum := by
  induction es generalizing k t with
  | nil =>
    rw [createLeaves, List.map_nil, List.sum_nil, Nat.add_zero]
    rfl
  | cons e es ih =>
    rw [List.length_cons] at hk
    rw [createLeaves, ih (by omega), Transient.queueWeight_push (by omega) (hq k le_rfl),
      List.map_cons, List.sum_cons, Nat.add_assoc]
    intro i hi
    rw [Transient.inqAt_setInq, if_neg (by omega), Transient.inqAt_setNode]
    exact hq i (by omega)

/-! ### The slots after a pass (R113) -/

@[simp] theorem Transient.weightAt_setInq (t : Transient) (i j : Nat) (v : Bool) :
    (t.setInq i v).weightAt j = t.weightAt j := rfl

theorem Transient.nodeAt_pushParent (t : Transient) (a b i : Nat) :
    (t.pushParent a b).nodeAt i =
      (t.setNode t.nextFree ⟨t.weightAt a + t.weightAt b, false, 0, a, b⟩).nodeAt i := rfl

theorem Transient.inqAt_pushParent (t : Transient) (a b i : Nat) :
    (t.pushParent a b).inqAt i = (t.setInq t.nextFree true).inqAt i := rfl

section
variable {t u : Transient} {a b : Nat} (h : t.Merges a b u)
include h

theorem Transient.Merges.left_queued : t.inqAt a = true := (Transient.popMin_eq_some h.popLeft).1

theorem Transient.Merges.right_queued : t.inqAt b = true ∧ b ≠ a := by
  have hb := (Transient.popMin_eq_some h.popRight).1
  rw [Transient.inqAt_setInq] at hb
  split at hb
  · cases hb
  · next hne => exact ⟨hb, fun hba => hne ⟨hba.symm, Transient.lt_of_inqAt h.left_queued⟩⟩

/-- The first popped node stands before the second (R112). -/
theorem Transient.Merges.before : t.before a b = true :=
  Transient.popMin_before h.popLeft h.right_queued.1 h.right_queued.2

theorem Transient.Merges.nextFree_eq : u.nextFree = t.nextFree + 1 := by rw [h.result]; rfl

theorem Transient.Merges.nodeAt_eq (i : Nat) :
    u.nodeAt i = if t.nextFree = i then some ⟨t.weightAt a + t.weightAt b, false, 0, a, b⟩
      else t.nodeAt i := by
  rw [h.result, Transient.nodeAt_pushParent, Transient.nodeAt_setNode]
  simp only [Transient.setInq_nextFree, Transient.nodeAt_setInq, Transient.weightAt_setInq, h.room,
    and_true]

theorem Transient.Merges.nodeAt_next :
    u.nodeAt t.nextFree = some ⟨t.weightAt a + t.weightAt b, false, 0, a, b⟩ :=
  (h.nodeAt_eq _).trans (if_pos rfl)

theorem Transient.Merges.nodeAt_of_ne {i : Nat} (hi : i ≠ t.nextFree) :
    u.nodeAt i = t.nodeAt i :=
  (h.nodeAt_eq _).trans (if_neg hi.symm)

theorem Transient.Merges.weightAt_of_ne {i : Nat} (hi : i ≠ t.nextFree) :
    u.weightAt i = t.weightAt i := by
  rw [Transient.weightAt, h.nodeAt_of_ne hi]
  rfl

theorem Transient.Merges.inqAt_iff {i : Nat} :
    u.inqAt i = true ↔ i = t.nextFree ∨ t.inqAt i = true ∧ i ≠ a ∧ i ≠ b := by
  have ha := Transient.lt_of_inqAt h.left_queued
  have hb := Transient.lt_of_inqAt h.right_queued.1
  have hroom := h.room
  rw [h.result, Transient.inqAt_pushParent]
  simp only [Transient.inqAt_setInq, Transient.setInq_nextFree, hroom, ha, hb, and_true]
  by_cases hi : t.nextFree = i
  · simp [hi]
  · by_cases hia : a = i <;> by_cases hib : b = i <;> simp [hi, hia, hib, Ne.symm]

/-- The parent weighs as much as the two popped nodes. -/
theorem Transient.Merges.queueWeight_eq (hnext : t.inqAt t.nextFree = false) :
    u.queueWeight = t.queueWeight := by
  have hpop : ((t.setInq a false).setInq b false).inqAt t.nextFree = false := by
    rw [Transient.inqAt_setInq, Transient.inqAt_setInq, hnext]
    simp
  have hpush := Transient.queueWeight_push h.room hpop
    ⟨t.weightAt a + t.weightAt b, false, 0, a, b⟩
  have hleft := Transient.queueWeight_pop h.left_queued
  have hright := Transient.queueWeight_pop (Transient.popMin_eq_some h.popRight).1
  rw [h.result]
  refine hpush.trans ?_
  rw [← hleft, ← hright]
  change _ + (t.weightAt a + t.weightAt b) = _ + t.weightAt b + t.weightAt a
  omega

end

end Sys2Proof.Machine
end

section
/-! SUPPORT. What holds of the arena from the leaves to the root, and from it the arena that BUILD
leaves (41_tree_builder.md R110 to R118, 10_state.md R31). -/

namespace Sys2Proof.Machine

/-! ### The invariant of the loop -/

/-- Slot i, an internal node of a table with n symbols, has slot c as a child. -/
def Transient.isParent (t : Transient) (n i c : Nat) : Prop :=
  n ≤ i ∧ i < t.nextFree ∧ ∃ v, t.nodeAt i = some v ∧ (v.left = c ∨ v.right = c)

/-- The arena that BUILD of the table s has made so far: leaves, then internal nodes over smaller slots;
the queued slots are the ones without a parent, the newest slot among them, and they share the
weight of the whole table. -/
structure Transient.Grown (s t : Transient) : Prop where
  leaf : ∀ i, i < s.alphabetSize → t.nodeAt i = s.entries[i]?.map leafNode
  inner : ∀ i, s.alphabetSize ≤ i → i < t.nextFree → ∃ v, t.nodeAt i = some v ∧
    v.isLeaf = false ∧ v.left < i ∧ v.right < i ∧ t.before v.left v.right = true ∧
    v.weight = t.weightAt v.left + t.weightAt v.right
  above : ∀ i, t.nextFree ≤ i → t.nodeAt i = s.nodeAt i
  leaves_le : s.alphabetSize ≤ t.nextFree
  queued : ∀ i, t.inqAt i = true → i < t.nextFree
  newest : t.inqAt (t.nextFree - 1) = true
  orphan : ∀ c i, t.inqAt c = true → ¬ t.isParent s.alphabetSize i c
  child : ∀ c, c < t.nextFree → t.inqAt c = false → ∃! i, t.isParent s.alphabetSize i c
  weight : t.queueWeight = (s.entries.map fun e => e.2.toNat).sum

/-- The leaves alone (R111). -/
theorem createLeaves_grown {s : Transient} (hq : s.queueEmpty) (hn : s.alphabetSize ≠ 0) :
    s.Grown (createLeaves s.entries 0 s) := by
  have hle := s.alphabetSize_le
  have hlen : s.entries.length = s.alphabetSize := rfl
  have hroom : 0 + s.entries.length ≤ 511 := by omega
  have hnext : (createLeaves s.entries 0 s).nextFree = s.alphabetSize :=
    (createLeaves_sameArena (Transient.sameArena_of_queueEmpty hq hq) hroom).2.1.trans
      (Nat.zero_add _)
  have hinq : ∀ i, (createLeaves s.entries 0 s).inqAt i = true ↔ i < s.alphabetSize := fun i => by
    rw [createLeaves_inqAt hroom, hq i, hlen]
    simp
  have hnode : ∀ i, (createLeaves s.entries 0 s).nodeAt i =
      (s.entries[i]?.map leafNode).or (s.nodeAt i) := fun i => createLeaves_nodeAt hroom i
  have hparent : ∀ i c, ¬ (createLeaves s.entries 0 s).isParent s.alphabetSize i c :=
    fun i c ⟨hi, hi', _⟩ => by omega
  refine
    { leaf := fun i hi => ?_
      inner := fun i hi hi' => by omega
      above := fun i hi => ?_
      leaves_le := hnext.ge
      queued := fun i hi => hnext ▸ (hinq i).1 hi
      newest := (hinq _).2 (by omega)
      orphan := fun c i _ => hparent i c
      child := fun c hc hout => by rw [← Bool.not_eq_true, hinq] at hout; omega
      weight := ?_ }
  · rw [hnode, List.getElem?_eq_getElem (hlen ▸ hi)]
    rfl
  · rw [hnode, List.getElem?_eq_none (by omega)]
    rfl
  · rw [createLeaves_queueWeight hroom fun i _ => hq i, Transient.queueWeight_of_queueEmpty hq,
      Nat.zero_add]

section
variable {s t u : Transient} {a b : Nat} (h : s.Grown t) (hm : t.Merges a b u)
include h hm

/-- The popped slots lie below the new one, so the new slot's children are older nodes. -/
theorem Transient.Grown.popped_lt : a < t.nextFree ∧ b < t.nextFree :=
  ⟨h.queued a hm.left_queued, h.queued b hm.right_queued.1⟩

theorem Transient.Grown.isParent_iff {i c : Nat} :
    u.isParent s.alphabetSize i c ↔
      t.isParent s.alphabetSize i c ∨ i = t.nextFree ∧ (c = a ∨ c = b) := by
  have hle := h.leaves_le
  unfold Transient.isParent
  rw [hm.nextFree_eq]
  by_cases hi : i = t.nextFree
  · subst hi
    rw [hm.nodeAt_next]
    simp [hle, eq_comm]
  · rw [hm.nodeAt_of_ne hi, or_iff_left fun hn => hi hn.1]
    exact and_congr_right fun _ => and_congr_left fun _ => by omega

theorem Transient.Grown.inner_merge {i : Nat} (hi : s.alphabetSize ≤ i) (hi' : i < u.nextFree) :
    ∃ v, u.nodeAt i = some v ∧ v.isLeaf = false ∧ v.left < i ∧ v.right < i ∧
      u.before v.left v.right = true ∧ v.weight = u.weightAt v.left + u.weightAt v.right := by
  obtain ⟨ha, hb⟩ := h.popped_lt hm
  have hold : ∀ c, c < t.nextFree → u.weightAt c = t.weightAt c := fun c hc =>
    hm.weightAt_of_ne (by omega)
  rw [hm.nextFree_eq] at hi'
  by_cases hnew : i = t.nextFree
  · subst hnew
    refine ⟨_, hm.nodeAt_next, rfl, ha, hb, ?_, ?_⟩
    · rw [Transient.before, hold a ha, hold b hb]
      exact hm.before
    · rw [hold a ha, hold b hb]
  · obtain ⟨v, hv, hleaf, hleft, hright, hbefore, hweight⟩ := h.inner i hi (by omega)
    refine ⟨v, (hm.nodeAt_of_ne hnew).trans hv, hleaf, hleft, hright, ?_, ?_⟩
    · rw [Transient.before, hold _ (by omega), hold _ (by omega)]
      exact hbefore
    · rw [hold _ (by omega), hold _ (by omega)]
      exact hweight

theorem Transient.Grown.orphan_merge {c i : Nat} (hc : u.inqAt c = true) :
    ¬ u.isParent s.alphabetSize i c := by
  obtain ⟨ha, hb⟩ := h.popped_lt hm
  rw [h.isParent_iff hm]
  rcases hm.inqAt_iff.1 hc with rfl | ⟨hq, hca, hcb⟩
  · rintro (⟨hi, hi', v, hv, hchild⟩ | ⟨-, hab⟩)
    · obtain ⟨w, hw, -, hleft, hright, -⟩ := h.inner i hi hi'
      cases hv.symm.trans hw
      omega
    · omega
  · rintro (hparent | ⟨-, hab⟩)
    · exact h.orphan c i hq hparent
    · exact hab.elim hca hcb

theorem Transient.Grown.child_merge {c : Nat} (hc : c < u.nextFree) (hout : u.inqAt c = false) :
    ∃! i, u.isParent s.alphabetSize i c := by
  rw [hm.nextFree_eq] at hc
  rw [← Bool.not_eq_true, hm.inqAt_iff] at hout
  simp only [h.isParent_iff hm]
  by_cases hab : c = a ∨ c = b
  · have hq : t.inqAt c = true := by
      rcases hab with rfl | rfl
      · exact hm.left_queued
      · exact hm.right_queued.1
    exact ⟨t.nextFree, .inr ⟨rfl, hab⟩, fun i hi =>
      hi.elim (fun hi => absurd hi (h.orphan c i hq)) And.left⟩
  · have hq : t.inqAt c = false := by
      rw [← Bool.not_eq_true]
      exact fun hq => hout (.inr ⟨hq, fun ha => hab (.inl ha), fun hb => hab (.inr hb)⟩)
    have hlt : c < t.nextFree := by omega
    simpa only [hab, and_false, or_false] using h.child c hlt hq

/-- Every pass of R113 keeps the invariant. -/
theorem Transient.Grown.merge : s.Grown u where
  leaf i hi := by
    have hle := h.leaves_le
    rw [hm.nodeAt_of_ne (by omega)]
    exact h.leaf i hi
  inner i hi hi' := h.inner_merge hm hi hi'
  above i hi := by
    rw [hm.nextFree_eq] at hi
    rw [hm.nodeAt_of_ne (by omega)]
    exact h.above i (by omega)
  leaves_le := hm.nextFree_eq ▸ Nat.le_succ_of_le h.leaves_le
  queued i hi := by
    rw [hm.nextFree_eq]
    rcases hm.inqAt_iff.1 hi with rfl | ⟨hq, -⟩
    · exact Nat.lt_succ_self _
    · exact Nat.lt_succ_of_lt (h.queued i hq)
  newest := hm.inqAt_iff.2 (.inl (by rw [hm.nextFree_eq, Nat.add_sub_cancel]))
  orphan c i hc := h.orphan_merge hm hc
  child c hc hout := h.child_merge hm hc hout
  weight := by
    refine (hm.queueWeight_eq ?_).trans h.weight
    rw [← Bool.not_eq_true]
    exact fun hq => lt_irrefl _ (h.queued _ hq)

end

/-! ### The arena that BUILD leaves -/

/-- BUILD of a non-empty table t from an empty queue answers u. -/
structure Transient.Built (t u : Transient) : Prop where
  answer : buildTree t = some u
  onlyArena : t.onlyArena u
  valid : u.treeValid = true
  root : u.root = 2 * t.alphabetSize - 2
  nextFree : u.nextFree = 2 * t.alphabetSize - 1
  queue : u.queue = [u.root]
  grown : t.Grown u

theorem Transient.Grown.of_root {s t : Transient} (h : s.Grown t) (r : Nat) (b : Bool) :
    s.Grown { t with root := r, treeValid := b } :=
  ⟨h.leaf, h.inner, h.above, h.leaves_le, h.queued, h.newest, h.orphan, h.child, h.weight⟩

theorem buildTree_eq_some {t u : Transient} (hn : t.alphabetSize ≠ 0) :
    buildTree t = some u ↔ ∃ v r rest,
      mergeLoop (createLeaves t.entries 0 t).queue.length (createLeaves t.entries 0 t) = some v ∧
        v.queue = r :: rest ∧ u = { v with root := r, treeValid := true } := by
  rw [buildTree, if_neg hn, mergeAll, Option.bind_eq_bind, Option.bind_eq_some_iff]
  refine exists_congr fun v => ?_
  cases hq : v.queue with
  | nil => simp
  | cons r rest => simp [eq_comm]

theorem createLeaves_merging {t : Transient} (hq : t.queueEmpty) :
    (createLeaves t.entries 0 t).Merging t.alphabetSize ∧
      (createLeaves t.entries 0 t).queue.length = t.alphabetSize := by
  have hle := t.alphabetSize_le
  have hlen : t.entries.length = t.alphabetSize := rfl
  have hstart : t.Forest t.alphabetSize 0 :=
    ⟨fun i hi => absurd hi (Nat.not_lt_zero i), fun i hi => by rw [hq i] at hi; cases hi⟩
  obtain ⟨hforest, hnext, hqueue, -⟩ := createLeaves_forest (es := t.entries) hstart (by omega)
  rw [Transient.queue_eq_nil_of_queueEmpty hq, List.length_nil] at hqueue
  exact ⟨⟨by rw [hnext]; exact hforest, by omega, by omega⟩, by omega⟩

theorem buildTree_built {t : Transient} (hq : t.queueEmpty) (hn : t.alphabetSize ≠ 0) :
    ∃ u, t.Built u := by
  obtain ⟨hmerging, hqueue⟩ := createLeaves_merging hq
  obtain ⟨u, hu, hdone, hone, -⟩ :=
    hmerging.mergeLoop t.alphabetSize_le (by omega) (Nat.le_succ _)
  have hgrown : t.Grown u := mergeLoop_induction (fun v w hv hw => by
    obtain ⟨a, b, hm⟩ := mergeOnce_merges hw
    exact hv.merge hm) (createLeaves_grown hq hn) hu
  have hsize := hdone.size
  have hnext : u.nextFree = 2 * t.alphabetSize - 1 := by omega
  have hroot : u.queue = [2 * t.alphabetSize - 2] := by
    obtain ⟨r, hr⟩ := List.length_eq_one_iff.1 hone
    have hnewest := Transient.mem_queue.2 hgrown.newest
    rw [hr, List.mem_singleton, hnext] at hnewest
    rw [hr, ← hnewest, Nat.sub_sub]
  have hbuild := (buildTree_eq_some hn).2 ⟨u, _, _, hu, hroot, rfl⟩
  exact ⟨_, hbuild, buildTree_onlyArena hbuild, rfl, rfl, hnext, hroot, hgrown.of_root _ _⟩

/-! ### What the invariant says of the arena -/

theorem Transient.weightAt_of_nodeAt {t : Transient} {i : Nat} {v : Node}
    (h : t.nodeAt i = some v) : t.weightAt i = v.weight := by
  rw [Transient.weightAt, h]
  rfl

section
variable {t u : Transient} (h : t.Built u)
include h

theorem Transient.Built.inqAt_iff {i : Nat} : u.inqAt i = true ↔ i = u.root := by
  rw [← Transient.mem_queue, h.queue, List.mem_singleton]

theorem Transient.Built.freqAt_eq (c : Byte) : u.freqAt c = t.freqAt c := by
  rw [h.onlyArena]
  rfl

/-- Leaf i is that of the i-th table entry (R111). -/
theorem Transient.Built.leaf {i : Nat} (hi : i < t.alphabetSize) :
    u.nodeAt i = some (leafNode (t.entries[i]'hi)) := by
  rw [h.grown.leaf i hi, List.getElem?_eq_getElem hi]
  rfl

/-- The root bears the weight of the whole table, for it alone is queued (R114). -/
theorem Transient.Built.weightAt_root :
    u.weightAt u.root = (t.entries.map fun e => e.2.toNat).sum := by
  have hroot : u.inqAt u.root = true := h.inqAt_iff.2 rfl
  have hempty : (u.setInq u.root false).queueEmpty := fun i => by
    rw [Transient.inqAt_setInq]
    split
    · rfl
    · next hi =>
      rw [← Bool.not_eq_true, h.inqAt_iff]
      rintro rfl
      exact hi ⟨rfl, Transient.lt_of_inqAt hroot⟩
  have hpop := Transient.queueWeight_pop hroot
  rw [Transient.queueWeight_of_queueEmpty hempty, Nat.zero_add] at hpop
  exact hpop.trans h.grown.weight

theorem Transient.Built.exists_nodeAt {i : Nat} (hi : i < 2 * t.alphabetSize - 1) :
    ∃ v, u.nodeAt i = some v := by
  by_cases hleaf : i < t.alphabetSize
  · exact ⟨_, h.leaf hleaf⟩
  · obtain ⟨v, hv, -⟩ := h.grown.inner i (by omega) (h.nextFree ▸ hi)
    exact ⟨v, hv⟩

theorem Transient.Built.leaf_entry {i : Nat} (hi : i < t.alphabetSize) :
    ∃ v, u.nodeAt i = some v ∧ v.isLeaf = true ∧ u.freqAt v.sym ≠ 0 ∧
      v.weight = (u.freqAt v.sym).toNat := by
  obtain ⟨hfreq, hne⟩ := Transient.mem_entries.1 (List.getElem_mem (l := t.entries) hi)
  refine ⟨_, h.leaf hi, rfl, ?_, ?_⟩
  · rw [h.freqAt_eq]
    exact hfreq ▸ hne
  · rw [h.freqAt_eq]
    exact congrArg BitVec.toNat hfreq

theorem Transient.Built.leaves_ascend {i j : Nat} {v w : Node} (hij : i < j)
    (hj : j < t.alphabetSize) (hv : u.nodeAt i = some v) (hw : u.nodeAt j = some w) :
    v.sym < w.sym := by
  obtain rfl := Option.some.inj ((h.leaf (hij.trans hj)).symm.trans hv)
  obtain rfl := Option.some.inj ((h.leaf hj).symm.trans hw)
  exact List.pairwise_iff_getElem.1 t.entries_pairwise i j _ hj hij

theorem Transient.Built.inner {i : Nat} (hi : t.alphabetSize ≤ i)
    (hi' : i < 2 * t.alphabetSize - 1) :
    ∃ v l r, u.nodeAt i = some v ∧ v.isLeaf = false ∧ v.left < i ∧ v.right < i ∧
      v.left ≠ v.right ∧ u.nodeAt v.left = some l ∧ u.nodeAt v.right = some r ∧
      v.weight = l.weight + r.weight := by
  obtain ⟨v, hv, hleaf, hleft, hright, hbefore, hweight⟩ := h.grown.inner i hi (h.nextFree ▸ hi')
  obtain ⟨l, hl⟩ := h.exists_nodeAt (hleft.trans hi')
  obtain ⟨r, hr⟩ := h.exists_nodeAt (hright.trans hi')
  have hne : v.left ≠ v.right := by
    rw [Transient.before_iff] at hbefore
    rintro heq
    rw [heq] at hbefore
    omega
  rw [Transient.weightAt_of_nodeAt hl, Transient.weightAt_of_nodeAt hr] at hweight
  exact ⟨v, l, r, hv, hleaf, hleft, hright, hne, hl, hr, hweight⟩

theorem Transient.Built.child {c : Nat} (hc : c < 2 * t.alphabetSize - 2) :
    ∃! i, u.isParent t.alphabetSize i c := by
  have hroot := h.root
  have hnext := h.nextFree
  refine h.grown.child c (by omega) ?_
  rw [← Bool.not_eq_true, h.inqAt_iff]
  omega

theorem Transient.Built.arenaInv (hn : t.alphabetSize ≠ 0) : u.arenaInv t.alphabetSize := by
  refine ⟨Nat.pos_of_ne_zero hn, t.alphabetSize_le, h.root, fun i hi => h.leaf_entry hi,
    fun i j v w hij hj hv hw => h.leaves_ascend hij hj hv hw, fun i hi hi' => h.inner hi hi',
    fun c hc => ?_⟩
  have hchild := h.child hc
  unfold Transient.isParent at hchild
  rwa [h.nextFree] at hchild

end

end Sys2Proof.Machine
end

section
/-! SUPPORT. The statements about BUILD (41_tree_builder.md R110 to R117). -/

namespace Sys2Proof.Machine

/-! ### The phase -/

/-- A table with symbols becomes a tree, and the command goes on (R110). -/
theorem exec_build_of_valid {s : State} {q : Phase} {u : Transient}
    (hafter : phaseAfter .build (phasePath s.cmdLatch) = some (some q))
    (hu : buildTree s.tr = some u) (hvalid : u.treeValid = true) :
    exec .build s = .next { s with tr := u, phase := q } := by
  have hbody : buildBody s = .ok { s with tr := u } := by
    rw [buildBody, hu]
    exact if_pos hvalid
  exact State.runPhase_of_ok hafter hbody

/-- No tree, and the command ends with the error of R116. -/
theorem exec_build_of_empty {s : State} {after : Option Phase} {k : ErrorKind}
    (hafter : phaseAfter .build (phasePath s.cmdLatch) = some after)
    (hempty : s.tr.alphabetSize = 0) (hk : noTreeError s.cmdLatch = k) :
    exec .build s =
      .next (({ s with tr := { s.tr with treeValid := false } } : State).raise k) := by
  have hbody : buildBody s = .raised k { s with tr := { s.tr with treeValid := false } } := by
    rw [buildBody, buildTree, if_pos hempty, ← hk]
    rfl
  exact State.runPhase_of_raised hafter hbody

/-- After BUILD comes GENCODE in COMPRESS and DECODE in DECOMPRESS (R95, R97). -/
theorem phaseAfter_build {v : Word} (h : v = 1#32 ∨ v = 2#32) :
    phaseAfter .build (phasePath v) = some (some (if v = 1#32 then .gencode else .decode)) := by
  rcases h with rfl | rfl <;> rfl

/-- Settles O28. -/
theorem emptyTableMakesNoTree : Obligations.EmptyTableMakesNoTree := fun s hempty =>
  ⟨fun h => exec_build_of_empty (phaseAfter_build (.inl h)) hempty (by rw [h]; rfl),
    fun h => exec_build_of_empty (phaseAfter_build (.inr h)) hempty (by rw [h]; rfl)⟩

/-- Settles O24: the loop keeps the arena in the shape of R31 with the queued slots as its roots, and at
the end only the newest slot is queued. -/
theorem buildMakesTheTree : Obligations.BuildMakesTheTree := by
  intro s hlatch hn hq
  obtain ⟨u, hu⟩ := buildTree_built hq hn
  refine ⟨_, exec_build_of_valid (phaseAfter_build hlatch) hu.answer hu.valid, ?_,
    hu.arenaInv hn, fun i => hu.inqAt_iff, fun i hi => hu.grown.above i (hu.nextFree ▸ hi),
    hu.weightAt_root⟩
  have honly := hu.onlyArena
  unfold Transient.onlyArena at honly
  rw [hu.nextFree, hu.root, hu.valid] at honly
  exact congrArg (fun v => ({ s with
    tr := v, phase := if s.cmdLatch = 1#32 then .gencode else .decode } : State)) honly

/-- Settles O25: of two popped nodes the first stands before the second. -/
theorem buildPutsTheLighterLeft : Obligations.BuildPutsTheLighterLeft := by
  intro t u hq hbuild i v hi hi' hv
  obtain ⟨u', hu⟩ := buildTree_built hq (by omega)
  obtain rfl := Option.some.inj (hu.answer.symm.trans hbuild)
  obtain ⟨w, hw, -, -, -, hbefore, -⟩ := hu.grown.inner i hi (hu.nextFree ▸ hi')
  cases hv.symm.trans hw
  exact Transient.before_iff.1 hbefore

/-! ### BUILD and FREQ -/

/-- From empty queues and equal tables BUILD makes the same nodes and the same root (R115). -/
theorem buildTree_sameArena {t t' u : Transient} (hfreq : t.freq = u.freq) (hqt : t.queueEmpty)
    (hqu : u.queueEmpty) (hn : t.alphabetSize ≠ 0) (ht : buildTree t = some t') :
    ∃ u', buildTree u = some u' ∧ t'.root = u'.root ∧ t'.SameArena t'.nextFree u' := by
  have hentries : u.entries = t.entries := by rw [Transient.entries, ← hfreq]; rfl
  have hsize : u.alphabetSize = t.alphabetSize := congrArg List.length hentries
  have hroom : 0 + t.entries.length ≤ 511 := by
    have hle : t.entries.length ≤ 256 := t.alphabetSize_le
    omega
  obtain ⟨hsame, hnext, hnext'⟩ :=
    createLeaves_sameArena (Transient.sameArena_of_queueEmpty hqt hqu) hroom
  obtain ⟨v, r, rest, hv, hr, rfl⟩ := (buildTree_eq_some hn).1 ht
  rw [← hnext] at hsame
  obtain ⟨w, hw, hdone⟩ := hsame.mergeLoop (hnext'.trans hnext.symm) hv
  refine ⟨_, (buildTree_eq_some (hsize ▸ hn)).2 ⟨w, r, rest, ?_, hdone.queue_eq.trans hr, rfl⟩, rfl,
    hdone.inq, hdone.queued, hdone.node⟩
  rw [hentries, hsame.queue_eq]
  exact hw

/-- Settles O26: the queue and the slots below NEXT are the same in both runs from the leaves on. -/
theorem buildDependsOnFreqAlone : Obligations.BuildDependsOnFreqAlone := by
  intro t u hfreq hqt hqu hn
  obtain ⟨t', ht⟩ := buildTree_built hqt hn
  obtain ⟨u', hu, hroot, hsame⟩ := buildTree_sameArena hfreq hqt hqu hn ht.answer
  exact ⟨t', u', ht.answer, hu, hroot, fun i hi => (hsame.node i (ht.nextFree ▸ hi)).symm⟩

/-- A frequency table before a cleared arena. -/
def Transient.ofFreq (f : Vector (BitVec 32) 256) : Transient := { Transient.zero with freq := f }

theorem Transient.queueEmpty_ofFreq (f : Vector (BitVec 32) 256) :
    (Transient.ofFreq f).queueEmpty := Transient.inqAt_zero

theorem Transient.widthsFit_ofFreq (f : Vector (BitVec 32) 256) :
    (Transient.ofFreq f).WidthsFit := { Transient.widthsFit_zero with }

/-- Settles O27: the same nodes come out of a cleared arena, in which every field has its width. -/
theorem buildWeightsFitTheirField : Obligations.BuildWeightsFitTheirField := by
  intro t t' hq hn ht i hi
  have hempty := Transient.queueEmpty_ofFreq t.freq
  obtain ⟨v, u, hv, hu, -, hnode⟩ := buildDependsOnFreqAlone t (.ofFreq t.freq) rfl hq hempty hn
  obtain rfl := Option.some.inj (ht.symm.trans hv)
  have hfits := buildTree_widthsFit hu hempty (Transient.widthsFit_ofFreq t.freq)
  rw [Transient.weightAt, hnode i hi]
  cases hw : u.nodeAt i with
  | none => exact Nat.two_pow_pos 40
  | some w => exact (hfits.node i w hw).1

end Sys2Proof.Machine
end

section
/-! SUPPORT. The codes of a tree are its paths (42_code_generator.md R121 to R123): no leaf stands
above another, so no code begins another, and every node has both children, so the codes are
complete. -/

namespace Sys2Proof.Machine

/-! ### The symbol at the end of a path -/

/-- The symbol of the leaf that a string of bits leads to: `0` left, `1` right. -/
def HTree.symbolAt : HTree → List Bool → Option Byte
  | .leaf c, [] => some c
  | .leaf _, _ :: _ => none
  | .node _ _, [] => none
  | .node l _, false :: p => l.symbolAt p
  | .node _ r, true :: p => r.symbolAt p

/-- Only the empty path ends at a lone leaf. -/
theorem HTree.symbolAt_leaf {c d : Byte} {p : List Bool} :
    (HTree.leaf d).symbolAt p = some c ↔ p = [] ∧ d = c := by
  cases p <;> simp [HTree.symbolAt]

/-- A path through a node is a bit and a path through the child that the bit selects. -/
theorem HTree.symbolAt_node {l r : HTree} {c : Byte} {p : List Bool} :
    (HTree.node l r).symbolAt p = some c ↔
      ∃ b q, p = b :: q ∧ (HTree.child l r b).symbolAt q = some c := by
  rcases p with _ | ⟨_ | _, p⟩ <;> simp [HTree.symbolAt, HTree.child]

theorem HTree.symbolAt_of_path {T : HTree} {c : Byte} {p : List Bool} (h : T.path c = some p) :
    T.symbolAt p = some c := by
  induction T generalizing p with
  | leaf d =>
    rw [HTree.path, Option.ite_none_right_eq_some] at h
    exact HTree.symbolAt_leaf.2 ⟨(Option.some.inj h.2).symm, h.1⟩
  | node l r ihl ihr =>
    rw [HTree.path_node, Option.or_eq_some_iff] at h
    rcases h with h | ⟨-, h⟩
    · obtain ⟨q, hq, rfl⟩ := Option.map_eq_some_iff.1 h
      exact ihl hq
    · obtain ⟨q, hq, rfl⟩ := Option.map_eq_some_iff.1 h
      exact ihr hq

theorem HTree.mem_symbols_of_symbolAt {T : HTree} {c : Byte} {p : List Bool}
    (h : T.symbolAt p = some c) : c ∈ T.symbols := by
  induction T generalizing p with
  | leaf d => exact List.mem_singleton.2 (HTree.symbolAt_leaf.1 h).2.symm
  | node l r ihl ihr =>
    obtain ⟨b, q, -, hq⟩ := HTree.symbolAt_node.1 h
    cases b with
    | false => exact List.mem_append_left _ (ihl hq)
    | true => exact List.mem_append_right _ (ihr hq)

theorem HTree.exists_path {T : HTree} {c : Byte} (h : c ∈ T.symbols) : ∃ p, T.path c = some p :=
  Option.isSome_iff_exists.1 (HTree.path_isSome.2 h)

/-- With one leaf for each symbol, the path to a leaf is the path to its symbol. -/
theorem HTree.path_of_symbolAt {T : HTree} (hnodup : T.symbols.Nodup) {c : Byte} {p : List Bool}
    (h : T.symbolAt p = some c) : T.path c = some p := by
  induction T generalizing p with
  | leaf d =>
    obtain ⟨rfl, rfl⟩ := HTree.symbolAt_leaf.1 h
    exact if_pos rfl
  | node l r ihl ihr =>
    obtain ⟨hnodupl, hnodupr, hne⟩ := List.nodup_append.1 hnodup
    obtain ⟨b, q, rfl, hq⟩ := HTree.symbolAt_node.1 h
    rw [HTree.path_node]
    cases b with
    | false => rw [ihl hnodupl hq]; rfl
    | true =>
      have hl : c ∉ l.symbols := fun hl => hne c hl c (HTree.mem_symbols_of_symbolAt hq) rfl
      rw [HTree.path_eq_none hl, ihr hnodupr hq]
      rfl

/-- If no two paths end at the same symbol, no symbol has two leaves. -/
theorem HTree.symbols_nodup {T : HTree}
    (h : ∀ p q c, T.symbolAt p = some c → T.symbolAt q = some c → p = q) : T.symbols.Nodup := by
  induction T with
  | leaf d => exact List.nodup_singleton d
  | node l r ihl ihr =>
    refine List.nodup_append.2 ⟨ihl fun p q c hp hq => ?_, ihr fun p q c hp hq => ?_, ?_⟩
    · exact (List.cons.inj (h (false :: p) (false :: q) c hp hq)).2
    · exact (List.cons.inj (h (true :: p) (true :: q) c hp hq)).2
    · rintro c hl _ hr rfl
      obtain ⟨p, hp⟩ := HTree.exists_path hl
      obtain ⟨q, hq⟩ := HTree.exists_path hr
      have hl := l.symbolAt_of_path hp
      exact absurd (h (false :: p) (true :: q) c hl (r.symbolAt_of_path hq)) nofun

/-- A path that ends at a leaf goes no further (R123). -/
theorem HTree.symbolAt_eq_of_isPrefix {T : HTree} {c d : Byte} {p q : List Bool}
    (hp : T.symbolAt p = some c) (hq : T.symbolAt q = some d) (h : p <+: q) : c = d := by
  induction T generalizing p q with
  | leaf s => exact (HTree.symbolAt_leaf.1 hp).2.symm.trans (HTree.symbolAt_leaf.1 hq).2
  | node l r ihl ihr =>
    obtain ⟨b, p, rfl, hp⟩ := HTree.symbolAt_node.1 hp
    obtain ⟨_, q, rfl, hq⟩ := HTree.symbolAt_node.1 hq
    obtain ⟨rfl, hpre⟩ := List.cons_prefix_cons.1 h
    cases b with
    | false => exact ihl hp hq hpre
    | true => exact ihr hp hq hpre

/-- Every endless string of bits leads to a leaf, for a node has both children (R123). -/
theorem HTree.exists_symbolAt (T : HTree) (f : Nat → Bool) :
    ∃ n c, T.symbolAt ((List.range n).map f) = some c := by
  induction T generalizing f with
  | leaf d => exact ⟨0, d, rfl⟩
  | node l r ihl ihr =>
    have hchild : ∃ n c, (HTree.child l r (f 0)).symbolAt ((List.range n).map (f ∘ Nat.succ)) =
        some c := by
      cases f 0 with
      | false => exact ihl _
      | true => exact ihr _
    obtain ⟨n, c, hc⟩ := hchild
    refine ⟨n + 1, c, HTree.symbolAt_node.2 ⟨_, _, ?_, hc⟩⟩
    rw [List.range_succ_eq_map, List.map_cons, List.map_map]

theorem HTree.symbols_length_pos (T : HTree) : 0 < T.symbols.length := by
  cases T with
  | leaf d => exact Nat.one_pos
  | node l r =>
    rw [HTree.symbols, List.length_append]
    exact Nat.add_pos_left l.symbols_length_pos _

/-- Each edge of a path leaves at least one leaf aside (R118). -/
theorem HTree.length_lt_of_symbolAt {T : HTree} {c : Byte} {p : List Bool}
    (h : T.symbolAt p = some c) : p.length < T.symbols.length := by
  induction T generalizing p with
  | leaf d => rw [(HTree.symbolAt_leaf.1 h).1]; exact Nat.one_pos
  | node l r ihl ihr =>
    obtain ⟨b, q, rfl, hq⟩ := HTree.symbolAt_node.1 h
    have hl := l.symbols_length_pos
    have hr := r.symbols_length_pos
    rw [HTree.symbols, List.length_append, List.length_cons]
    cases b with
    | false => have := ihl hq; omega
    | true => have := ihr hq; omega

/-! ### The codes of a tree -/

/-- Under an internal root the code of a symbol is the path to its leaf (R121). -/
theorem HTree.symbolAt_code {l r : HTree} {c : Byte} (h : c ∈ (HTree.node l r).symbols) :
    (HTree.node l r).symbolAt ((HTree.node l r).code c) = some c := by
  obtain ⟨p, hp⟩ := HTree.exists_path h
  rw [HTree.code, hp]
  exact HTree.symbolAt_of_path hp

theorem HTree.code_of_not_mem {T : HTree} {c : Byte} (h : c ∉ T.symbols) : T.code c = [] := by
  cases T with
  | leaf d => exact if_neg fun hd => h (List.mem_singleton.2 hd.symm)
  | node l r => rw [HTree.code, HTree.path_eq_none h]; rfl

/-- A lone leaf has a code of one bit, every other leaf its path (R122, R123). -/
theorem HTree.code_length {T : HTree} {c : Byte} (h : c ∈ T.symbols) :
    1 ≤ (T.code c).length ∧ (T.code c).length ≤ max 1 (T.symbols.length - 1) := by
  cases T with
  | leaf d =>
    rw [HTree.code, if_pos (List.mem_singleton.1 h).symm]
    exact ⟨le_rfl, le_rfl⟩
  | node l r =>
    have hcode := HTree.symbolAt_code h
    have hlt := HTree.length_lt_of_symbolAt hcode
    obtain ⟨b, q, hq, -⟩ := HTree.symbolAt_node.1 hcode
    exact ⟨by rw [hq]; exact Nat.succ_pos _, by omega⟩

/-- No code begins another symbol's (R123). -/
theorem HTree.eq_of_code_isPrefix {T : HTree} {c d : Byte} (hc : c ∈ T.symbols) (hd : d ∈ T.symbols)
    (h : T.code c <+: T.code d) : c = d := by
  cases T with
  | leaf s => exact (List.mem_singleton.1 hc).trans (List.mem_singleton.1 hd).symm
  | node l r =>
    exact HTree.symbolAt_eq_of_isPrefix (HTree.symbolAt_code hc) (HTree.symbolAt_code hd) h

/-- Every endless string of bits begins with a code (R123). -/
theorem HTree.exists_code_eq_map {l r : HTree} (hnodup : (HTree.node l r).symbols.Nodup)
    (f : Nat → Bool) : ∃ c ∈ (HTree.node l r).symbols, (HTree.node l r).code c =
      (List.range ((HTree.node l r).code c).length).map f := by
  obtain ⟨n, c, hc⟩ := (HTree.node l r).exists_symbolAt f
  have hcode : (HTree.node l r).code c = (List.range n).map f := by
    rw [HTree.code, HTree.path_of_symbolAt hnodup hc]
    rfl
  refine ⟨c, HTree.mem_symbols_of_symbolAt hc, ?_⟩
  rw [hcode, List.length_map, List.length_range]

/-- Of two beginnings of one string of bits the shorter begins the longer. -/
theorem isPrefix_or_isPrefix_of_eq_map {p q : List Bool} {f : Nat → Bool}
    (hp : p = (List.range p.length).map f) (hq : q = (List.range q.length).map f) :
    p <+: q ∨ q <+: p := by
  have hrange : ∀ {m n}, m ≤ n → (List.range m).map f <+: (List.range n).map f := fun {m n} h => by
    rw [← Nat.min_eq_left h, ← List.take_range]
    exact (List.take_prefix m _).map f
  rw [hp, hq]
  exact (le_total p.length q.length).imp hrange hrange

end Sys2Proof.Machine
end

section
/-! SUPPORT. The statements about GENCODE (42_code_generator.md R120 to R125): the walk over the tree
that the arena holds, and the codes that BUILD and GENCODE give to the symbols of a table. -/

namespace Sys2Proof.Machine

/-! ### Trees in the arena -/

theorem Transient.leafSymbol_of_leaf {t : Transient} {i : Nat} {v : Node} (hv : t.nodeAt i = some v)
    (hleaf : v.isLeaf = true) (p : List Bool) :
    t.leafSymbol i p = (HTree.leaf v.sym).symbolAt p := by
  cases p <;> simp [Transient.leafSymbol, Transient.follow, HTree.symbolAt, hv, hleaf]

theorem Transient.leafSymbol_nil {t : Transient} {i : Nat} {v : Node} (hv : t.nodeAt i = some v)
    (hleaf : v.isLeaf = false) : t.leafSymbol i [] = none := by
  simp [Transient.leafSymbol, Transient.follow, hv, hleaf]

theorem Transient.leafSymbol_cons {t : Transient} {i : Nat} {v : Node} (hv : t.nodeAt i = some v)
    (hleaf : v.isLeaf = false) (b : Bool) (p : List Bool) :
    t.leafSymbol i (b :: p) = t.leafSymbol (if b then v.right else v.left) p := by
  simp [Transient.leafSymbol, Transient.follow, hv, hleaf]

theorem Transient.holds.inner {t : Transient} {k i : Nat} {l r : HTree}
    (h : t.holds k (.node l r) i) : ∃ v, t.nodeAt i = some v ∧ v.isLeaf = false := by
  obtain ⟨-, v, hv, hleaf, -⟩ := h
  exact ⟨v, hv, hleaf⟩

/-- The arena's paths are those of the tree it holds. -/
theorem Transient.holds.leafSymbol {t : Transient} {k i : Nat} {T : HTree} (h : t.holds k T i)
    (p : List Bool) : t.leafSymbol i p = T.symbolAt p := by
  induction T generalizing i p with
  | leaf c =>
    obtain ⟨-, v, hv, hleaf, rfl⟩ := h
    exact Transient.leafSymbol_of_leaf hv hleaf p
  | node l r ihl ihr =>
    obtain ⟨-, v, hv, hleaf, hl, hr⟩ := h
    match p with
    | [] => exact Transient.leafSymbol_nil hv hleaf
    | false :: p => exact (Transient.leafSymbol_cons hv hleaf false p).trans (ihl hl p)
    | true :: p => exact (Transient.leafSymbol_cons hv hleaf true p).trans (ihr hr p)

/-- Where the arena has the shape of R118 it holds a tree, with paths shorter than its levels. -/
theorem Transient.exists_holds {t : Transient} {fuel i : Nat} (h : t.isTree fuel i = true) :
    ∃ T, t.holds 511 T i ∧ ∀ p c, T.symbolAt p = some c → p.length < fuel := by
  induction fuel generalizing i with
  | zero => cases h
  | succ fuel ih =>
    obtain ⟨v, hv, hslot⟩ := Transient.isTree_succ.1 h
    cases hleaf : v.isLeaf with
    | true =>
      refine ⟨.leaf v.sym, ⟨Transient.lt_of_nodeAt hv, v, hv, hleaf, rfl⟩, fun p c hp => ?_⟩
      rw [(HTree.symbolAt_leaf.1 hp).1]
      exact Nat.succ_pos fuel
    | false =>
      obtain ⟨hl, hr⟩ := hslot.resolve_left (by simp [hleaf])
      obtain ⟨l, hl, hlenl⟩ := ih hl
      obtain ⟨r, hr, hlenr⟩ := ih hr
      refine ⟨.node l r, ⟨Transient.lt_of_nodeAt hv, v, hv, hleaf, hl, hr⟩, fun p c hp => ?_⟩
      obtain ⟨b, q, rfl, hq⟩ := HTree.symbolAt_node.1 hp
      cases b with
      | false => exact Nat.succ_lt_succ (hlenl q c hq)
      | true => exact Nat.succ_lt_succ (hlenr q c hq)

/-! ### The walk of GENCODE -/

/-- The walk of R121 over a tree answers, whatever stands in CODE before it. -/
theorem exists_assignCodes {fuel i : Nat} {p : List Bool} {t : Transient}
    (h : t.isTree fuel i = true) (hp : p.length + fuel ≤ 256) :
    ∃ u, assignCodes fuel i p t = some u := by
  induction fuel generalizing i p t with
  | zero => cases h
  | succ fuel ih =>
    have hlen : ∀ b, (p ++ [b]).length + fuel ≤ 256 := fun b => by
      rw [List.length_append, List.length_singleton]; omega
    obtain ⟨v, hv, hslot⟩ := Transient.isTree_succ.1 h
    rw [assignCodes, hv]
    by_cases hleaf : v.isLeaf = true
    · exact ⟨_, if_pos hleaf⟩
    · obtain ⟨hl, hr⟩ := hslot.resolve_left hleaf
      obtain ⟨w, hw⟩ := ih hl (hlen false)
      have hnode : w.node = t.node := by rw [(assignCodes_eq_some hw (hlen false)).1]
      obtain ⟨u, hu⟩ := ih (Transient.isTree_of_node_eq hr hnode) (hlen true)
      exact ⟨u, (if_neg hleaf).trans (by rw [hw]; exact hu)⟩

/-- Over a lone leaf GENCODE writes one entry (R122). -/
theorem generateCodes_of_leaf {t : Transient} {v : Node} (hvalid : t.treeValid = true)
    (hv : t.nodeAt t.root = some v) (hleaf : v.isLeaf = true) :
    generateCodes t = some (t.setCode v.sym Config.singleCode) := by
  rw [generateCodes, if_pos hvalid, hv]
  exact if_pos hleaf

/-- Over an internal root GENCODE is the walk of R121. -/
theorem generateCodes_of_inner {t : Transient} {v : Node} (hvalid : t.treeValid = true)
    (hv : t.nodeAt t.root = some v) (hleaf : v.isLeaf = false) :
    generateCodes t = assignCodes 256 t.root [] t := by
  rw [generateCodes, if_pos hvalid, hv]
  exact if_neg (by simp [hleaf])

/-- Under an internal root each symbol of the tree gets its entry, whatever stood in CODE. -/
theorem generateCodes_codeAt {t u : Transient} {k : Nat} {l r : HTree} (hvalid : t.treeValid = true)
    (h : generateCodes t = some u) (hT : t.holds k (.node l r) t.root)
    (hnodup : (HTree.node l r).symbols.Nodup) (c : Byte) :
    u.codeAt c = (HTree.node l r).codeEntry [] (t.codeAt c) c := by
  obtain ⟨v, hv, hleaf⟩ := hT.inner
  rw [generateCodes_of_inner hvalid hv hleaf] at h
  exact assignCodes_codeAt h (by decide) hT hnodup c

/-! ### The phase -/

/-- After GENCODE comes FRAME, and CODE alone differs (R95, R120). -/
theorem exec_gencode {s : State} {u : Transient} (hlatch : s.cmdLatch = 1#32)
    (h : generateCodes s.tr = some u) :
    exec .gencode s = .next { s with phase := .frame, tr := u } ∧
      ({ s with phase := .frame, tr := u } : State) =
        { s with phase := .frame, tr := { s.tr with code := u.code } } := by
  have hbody : gencodeBody s = .ok { s with tr := u } := by rw [gencodeBody, h]
  have hafter : phaseAfter .gencode (phasePath s.cmdLatch) = some (some .frame) := by
    rw [hlatch]
    rfl
  refine ⟨State.runPhase_of_ok hafter hbody, ?_⟩
  conv_lhs => rw [(generateCodes_eq_some h).1]

/-- Settles O30. -/
theorem gencodeWithoutAnInternalRoot : Obligations.GencodeWithoutAnInternalRoot := by
  intro s hlatch
  refine ⟨fun v hvalid hv hleaf => ?_, fun hvalid => ?_⟩
  · obtain ⟨hexec, honly⟩ := exec_gencode hlatch (generateCodes_of_leaf hvalid hv hleaf)
    exact ⟨_, hexec, honly, (Transient.codeAt_setCode ..).trans (if_pos rfl),
      fun c hc => (Transient.codeAt_setCode ..).trans (if_neg hc)⟩
  · exact (exec_gencode hlatch (u := s.tr) (by rw [generateCodes, hvalid]; rfl)).1

/-- Settles O29: the tree that the arena holds has one leaf for each of its symbols, and the walk
writes the path to that leaf. -/
theorem gencodeAssignsThePaths : Obligations.GencodeAssignsThePaths := by
  intro s hlatch hvalid htree hroot hinj
  obtain ⟨T, hT, hlen⟩ := Transient.exists_holds htree
  simp only [hT.leafSymbol] at hinj ⊢
  have hnodup := HTree.symbols_nodup hinj
  cases T with
  | leaf d =>
    obtain ⟨-, v, hv, hleaf, -⟩ := hT
    have hv' : s.tr.node[s.tr.root]? = some v := hv
    simp [Transient.rootIsLeaf, hvalid, hv', hleaf] at hroot
  | node l r =>
    obtain ⟨v, hv, hleaf⟩ := hT.inner
    obtain ⟨u, hu⟩ := exists_assignCodes (p := []) htree (by decide)
    rw [← generateCodes_of_inner hvalid hv hleaf] at hu
    have hcode := generateCodes_codeAt hvalid hu hT hnodup
    obtain ⟨hexec, honly⟩ := exec_gencode hlatch hu
    refine ⟨_, hexec, honly, fun p c hp => ⟨?_, Nat.lt_succ_iff.1 (hlen p c hp), ?_⟩,
      fun c hc => ?_⟩
    · obtain ⟨b, q, rfl, -⟩ := HTree.symbolAt_node.1 hp
      exact Nat.succ_pos _
    · refine (hcode c).trans ?_
      rw [HTree.codeEntry, HTree.path_of_symbolAt hnodup hp]
      rfl
    · refine (hcode c).trans (HTree.codeEntry_of_not_mem (fun hmem => ?_) _ _)
      obtain ⟨p, hp⟩ := HTree.exists_path hmem
      exact hc p (HTree.symbolAt_of_path hp)

/-! ### The codes of a frequency table -/

theorem Transient.mem_presentSymbols {t : Transient} {c : Byte} :
    c ∈ presentSymbols t.freqs ↔ t.freqAt c ≠ 0 := by
  have hzero : t.freqs c = 0 ↔ t.freqAt c = 0 := by
    rw [Transient.freqs, ← BitVec.toNat_inj]
    rfl
  simp [presentSymbols, hzero]

/-- The tree of a table has a leaf for each of its symbols and no others (R118). -/
theorem Transient.mem_buildRef_symbols {t : Transient} {T : HTree} (h : buildRef t.freqs = some T)
    {c : Byte} : c ∈ T.symbols ↔ t.freqAt c ≠ 0 :=
  (buildRef_symbols h).mem_iff.trans Transient.mem_presentSymbols

theorem Transient.buildRef_symbols_length {t : Transient} {T : HTree}
    (h : buildRef t.freqs = some T) :
    T.symbols.length = t.alphabetSize :=
  (buildRef_symbols h).length_eq.trans t.presentSymbols_length

/-- Settles O31: the codes are those of the tree of R101. -/
theorem codesAreAPrefixCode : Obligations.CodesAreAPrefixCode := by
  intro t hq hn hempty
  obtain ⟨u, T, hu, hT, hholds, hvalid, htree, honly⟩ :=
    buildTree_eq_buildRef hq (Nat.pos_of_ne_zero hn)
  have hempty' : ∀ c, u.codeAt c = Code.empty := fun c => by rw [honly]; exact hempty c
  obtain ⟨cs, hcs, hcode⟩ :=
    generateCodes_eq_code hvalid htree hholds (buildRef_symbols_nodup hT) hempty'
  have hmem : ∀ {c}, t.freqAt c ≠ 0 → c ∈ T.symbols := (Transient.mem_buildRef_symbols hT).2
  refine ⟨u, _, hu, hcs, fun c hc => ?_, fun c d hc hd hne hpre => ?_, fun c hc => ?_⟩
  · obtain ⟨hbits, hlen⟩ := hcode c
    rw [hlen, hbits, ← Transient.buildRef_symbols_length hT]
    exact ⟨rfl, HTree.code_length (hmem hc)⟩
  · rw [(hcode c).1, (hcode d).1] at hpre
    exact hne (HTree.eq_of_code_isPrefix (hmem hc) (hmem hd) hpre)
  · obtain ⟨hbits, hlen⟩ := hcode c
    rw [HTree.code_of_not_mem fun h => (Transient.mem_buildRef_symbols hT).1 h hc] at hbits hlen
    generalize ({ u with code := cs } : Transient).codeAt c = e at hbits hlen ⊢
    obtain ⟨len, bits⟩ := e
    exact congrArg₂ Code.mk (BitVec.eq_of_toNat_eq hlen) hbits

/-- For two or more symbols BUILD and GENCODE leave the codes of a tree with an internal root, each
symbol of the table one of its leaves. -/
theorem exists_node_codes {t t1 t2 : Transient} (hq : t.queueEmpty) (hn : 2 ≤ t.alphabetSize)
    (h1 : buildTree t = some t1) (h2 : generateCodes t1 = some t2) :
    ∃ l r, (HTree.node l r).symbols.Nodup ∧
      (∀ c, c ∈ (HTree.node l r).symbols ↔ t.freqAt c ≠ 0) ∧
      ∀ c, t.freqAt c ≠ 0 → (t2.codeAt c).bits = (HTree.node l r).code c := by
  obtain ⟨u, T, hu, hT, hholds, hvalid, -⟩ := buildTree_eq_buildRef hq (by omega)
  obtain rfl := Option.some.inj (hu.symm.trans h1)
  have hnodup := buildRef_symbols_nodup hT
  have hmem := fun c => Transient.mem_buildRef_symbols (c := c) hT
  have hlen := Transient.buildRef_symbols_length hT
  cases T with
  | leaf d => rw [HTree.symbols, List.length_singleton] at hlen; omega
  | node l r =>
    refine ⟨l, r, hnodup, hmem, fun c hc => ?_⟩
    obtain ⟨p, hp⟩ := HTree.exists_path ((hmem c).2 hc)
    rw [generateCodes_codeAt hvalid h2 hholds hnodup c, HTree.codeEntry, HTree.code, hp]
    rfl

/-- Settles O32: the string leads to a leaf, and of the codes of two symbols that both begin it one
begins the other. -/
theorem codesAreComplete : Obligations.CodesAreComplete := by
  intro t t1 t2 hq hn h1 h2 f
  obtain ⟨l, r, hnodup, hmem, hcode⟩ := exists_node_codes hq hn h1 h2
  obtain ⟨c, hc, hf⟩ := HTree.exists_code_eq_map hnodup f
  have hfreq := (hmem c).1 hc
  refine ⟨c, ⟨hfreq, by rw [hcode c hfreq]; exact hf⟩, fun d hd hf' => ?_⟩
  rw [hcode d hd] at hf'
  have hd' := (hmem d).2 hd
  rcases isPrefix_or_isPrefix_of_eq_map hf' hf with hpre | hpre
  · exact HTree.eq_of_code_isPrefix hd' hc hpre
  · exact (HTree.eq_of_code_isPrefix hc hd' hpre).symm

end Sys2Proof.Machine
end

section
/-! SUPPORT. The statements about COUNT (43_freq_counter.md R130 to R132): from any FREQ, the counts of
the input are added to it, or one of the sums outgrows 32 bits and FreqOverflow is raised. -/

namespace Sys2Proof.Machine

/-! ### The phase -/

/-- The loop of R130 moves RPTR on by the bytes it reads, and besides RPTR only FREQ can differ. -/
theorem countLoop_frame {n : Nat} {s : State} (h : s.tr.rptr + n ≤ s.cfg.srcCap) :
    (countLoop n s).ends fun t =>
      ∃ f, t = s.withTr fun tr => { tr with freq := f, rptr := tr.rptr + n } := by
  induction n generalizing s with
  | zero => exact ⟨s.tr.freq, rfl⟩
  | succ n ih =>
    rw [countLoop, State.withSrc_of_lt (by omega)]
    refine (increment_ends s _).andThen ?_
    rintro _ ⟨f, rfl, -⟩
    refine (ih (by simp only [State.withTr_tr, State.withTr_cfg]; omega)).mono ?_
    rintro _ ⟨f', rfl⟩
    refine ⟨f', ?_⟩
    simp only [State.withTr, Nat.add_assoc, Nat.add_comm 1 n]

/-- COUNT adds the counts of the input to FREQ, whatever FREQ holds before, or raises FreqOverflow
because a sum does not fit 32 bits (R130 to R132). -/
theorem countBody_adds {s : State} (hlen : s.srcLen ≤ s.cfg.srcCap) :
    (countBody s).meets
      (fun t => t = s.withTr (fun tr =>
          { tr with freq := t.tr.freq, nsym := t.tr.alphabetSize, rptr := s.srcLen }) ∧
        ∀ b, (t.tr.freqAt b).toNat = (s.tr.freqAt b).toNat + s.input.count b)
      fun k => k = .freqOverflow ∧ ∃ b, 2 ^ 32 ≤ (s.tr.freqAt b).toNat + s.input.count b := by
  rw [countBody, s.input_eq_range']
  generalize s.srcLen = n at hlen ⊢
  have hfit : (s.withTr fun tr => { tr with rptr := 0 }).tr.rptr + n ≤ s.cfg.srcCap :=
    (Nat.zero_add n).trans_le hlen
  refine (((countLoop_meets hfit).and_ends (countLoop_frame hfit)).and_ends
    (countLoop_ends hfit)).andThen ?_
  rintro t ⟨⟨-, f, ht⟩, -, -, hfreq⟩
  refine ⟨?_, hfreq⟩
  simp only [ht, State.withTr, Nat.zero_add]
  rfl

/-- From COUNT the path of COMPRESS goes on to BUILD (R95). -/
theorem phaseAfter_count {v : Word} (h : v = 1#32) :
    phaseAfter .count (phasePath v) = some (some .build) := by rw [h]; rfl

/-! ### The counts fit -/

/-- The symbols that an input counts are its distinct bytes (R132). -/
theorem presentSymbols_count_perm_dedup (input : List Byte) :
    (presentSymbols fun b => input.count b).Perm input.dedup :=
  (List.perm_ext_iff_of_nodup (allSymbols_nodup.filter _) input.nodup_dedup).2 fun b => by
    simp [List.count_eq_zero]

/-- When FREQ holds the input's counts, the alphabet is the set of its distinct bytes (R132). -/
theorem State.alphabetSize_of_countsInput {s : State} (h : s.countsInput) :
    s.tr.alphabetSize = s.input.dedup.length := by
  rw [← s.tr.presentSymbols_length, State.freqs_eq_count h,
    (presentSymbols_count_perm_dedup s.input).length_eq]

/-- Settles O21: from a zero FREQ the sums are the counts, and all of them fit. -/
theorem countCountsTheInput : Obligations.CountCountsTheInput := by
  intro s hlatch hlen hzero hfit
  have hfreq0 : ∀ b, (s.tr.freqAt b).toNat = 0 := fun b => by simp [Transient.freqAt, hzero]
  have hbody := countBody_adds hlen
  simp only [hfreq0, Nat.zero_add] at hbody
  obtain ⟨t, ht, hframe, hcount⟩ := Run.eq_ok_of_meets <|
    hbody.mono_error fun _ ⟨_, b, hb⟩ => Nat.not_lt.2 hb (hfit b)
  refine ⟨_, State.runPhase_of_ok (phaseAfter_count hlatch) ht, ?_, hcount⟩
  have hinput : t.input = s.input := by rw [hframe]; rfl
  have hsize := State.alphabetSize_of_countsInput (s := t) (by rwa [State.countsInput, hinput])
  rw [hinput] at hsize
  rw [hsize] at hframe
  exact congrArg (State.transfer (some .build)) hframe

/-! ### A count does not fit -/

theorem State.raise_freqOverflow_statusWord (s : State) :
    (s.raise .freqOverflow).statusWord = 0x00000066#32 :=
  (by decide : (State.reset.raise .freqOverflow).statusWord = _)

/-- A sum that outgrows 32 bits makes COUNT raise FreqOverflow: no FREQ could hold it (R131). -/
theorem countBody_overflows {s : State} (hlen : s.srcLen ≤ s.cfg.srcCap) {b : Byte}
    (hb : 2 ^ 32 ≤ (s.tr.freqAt b).toNat + s.input.count b) :
    ∃ t, countBody s = .raised .freqOverflow t := by
  have hbody := countBody_adds hlen
  cases hrun : countBody s with
  | ok t =>
    rw [hrun] at hbody
    have hsum := hbody.2 b
    exact absurd (t.tr.freqAt b).isLt (by omega)
  | raised k t =>
    rw [hrun] at hbody
    exact ⟨t, by rw [hbody.1]⟩
  | stuck e => rw [hrun] at hbody; exact hbody.elim

/-- Settles O22: COUNT raises FreqOverflow, and what it changes before is transient state alone. -/
theorem countOverflowFails : Obligations.CountOverflowFails := by
  rintro s hlatch hlen ⟨b, hb⟩
  obtain ⟨t, hraise⟩ := countBody_overflows hlen hb
  have hframe := countBody_onlyTr s
  rw [hraise] at hframe
  have ht : t = { s with tr := t.tr } := hframe
  generalize t.tr = tr at ht
  subst ht
  exact ⟨_, State.runPhase_of_raised (phaseAfter_count hlatch) hraise, State.failedWith_raise _ _,
    State.raise_freqOverflow_statusWord _, rfl, rfl, rfl⟩

end Sys2Proof.Machine
end

section
/-! SUPPORT. The statement about ENCODE (44_encoder.md R135 to R139): the last phase of COMPRESS, which packs
the codes of the input from WPTR on and ends the command with length WPTR (40_commands.md R96). -/

namespace Sys2Proof.Machine

/-- ENCODE is the last phase of the path of COMPRESS (R95). -/
theorem phaseAfter_encode {v : Word} (h : v = 1#32) :
    phaseAfter .encode (phasePath v) = some none := by rw [h]; rfl

/-- Packing bits from WPTR on writes the packed bytes there and no other byte (R55, R139). -/
theorem State.lookup_packedDst (s : State) (bits : List Bool) (a : Nat) :
    (s.packedDst bits).lookup a =
      if s.tr.wptr ≤ a ∧ a < s.tr.wptr + ceil8 bits.length then
        (packBits bits)[a - s.tr.wptr]?
      else s.dst.lookup a := by
  rw [State.packedDst, Memory.lookup_storeAll, packBits_length]

/-- Settles O35: the phase packs the codes, and the success epilogue makes its WPTR the length. -/
theorem encodePacksTheCodes : Obligations.EncodePacksTheCodes := by
  intro s hlatch hlen hcfg hroom
  have hfit : s.tr.wptr + ceil8 s.inputBits.length < 2 ^ 64 := lt_of_le_of_lt hroom hcfg.2.2
  exact ⟨_, State.runPhase_of_ok (phaseAfter_encode hlatch) (encodeBody_eq hlen hroom),
    State.succeed_statusWord _ _, State.dstLen_succeed _ _ hfit, rfl, s.lookup_packedDst _⟩

end Sys2Proof.Machine
end

section
/-! SUPPORT. The statements about FRAME (45_framer.md R145 to R148): the size check decides whether
the header and the table go to DST or the command fails with DST as it was. -/

namespace Sys2Proof.Machine

/-- From FRAME the path of COMPRESS goes on to ENCODE (R95). -/
theorem phaseAfter_frame {v : Word} (h : v = 1#32) :
    phaseAfter .frame (phasePath v) = some (some .encode) := by rw [h]; rfl

/-- Header and table take the first 10 + 5 NSYM bytes of DST, and no other byte changes (R55, R147,
R148). -/
theorem Transient.lookup_storeAll_headBytes (t : Transient) (len n : Nat) (m : Memory) (a : Nat) :
    (Memory.storeAll 0 (headBytes len n t.freqs) m).lookup a =
      if a < 10 + 5 * t.alphabetSize then (headBytes len n t.freqs)[a]? else m.lookup a := by
  rw [Memory.lookup_storeAll, t.headBytes_length]
  simp only [Nat.zero_le, true_and, Nat.zero_add, Nat.sub_zero]

/-- Settles O33: the size check passes, and the phase hands the written head over to ENCODE. -/
theorem frameWritesHeaderAndTable : Obligations.FrameWritesHeaderAndTable := by
  intro s hlatch hn hfits
  refine ⟨_, State.runPhase_of_ok (phaseAfter_frame hlatch) (frameBody_eq hn hfits), rfl, ?_⟩
  intro a
  have hlookup := s.tr.lookup_storeAll_headBytes s.srcLen s.tr.nsym s.dst a
  rwa [← hn] at hlookup

/-- STATUS after a raised error: its code in ERR, FAIL and DONE set, all other bits 0 (R12, R196). -/
theorem State.raise_statusWord (s : State) (k : ErrorKind) :
    (s.raise k).statusWord = 0#24 ++ k.code ++ 0b0110#4 := by
  change (State.reset.raise k).statusWord = _
  cases k <;> decide

/-- Settles O34: the size check comes before the first write, so the error finds DST as it was. -/
theorem frameTooLargeFails : Obligations.FrameTooLargeFails := fun _ hlatch hlarge =>
  ⟨_, State.runPhase_of_raised (phaseAfter_frame hlatch) (frameBody_of_not_fits hlarge),
    State.failedWith_raise _ _, State.raise_statusWord _ .dstOverflow, rfl, rfl, rfl⟩

end Sys2Proof.Machine
end

section
/-! SUPPORT. The statement about PARSE (46_parser.md R155 to R163): the errors are those of a container that
is not well-formed or declares too much, and otherwise the registers are filled from the container. -/

namespace Sys2Proof.Machine

/-- From PARSE the path of DECOMPRESS goes on to BUILD (R97). -/
theorem phaseAfter_parse {v : Word} (h : v = 2#32) :
    phaseAfter .parse (phasePath v) = some (some .build) := by rw [h]; rfl

/-! ### A container that PARSE accepts -/

/-- What PARSE changes on the way to BUILD, for a container of n entries: TABLE_N and the registers set
from it, ORIG_COUNT and FREQ (R155, R161). -/
structure State.ParsedOnly (s : State) (n : Nat) (t : State) : Prop where
  tableN : t.tr.tableN.toNat = n
  frame : t = s.withTr fun tr => { tr with
    origCount := t.tr.origCount, tableN := t.tr.tableN, freq := t.tr.freq, nsym := n
    payBase := 10 + 5 * n, payLen := s.srcLen - (10 + 5 * n), rptr := 10 + 5 * n }

theorem parseTable_parsedOnly {s : State} {count : BitVec 64} {m : BitVec 16} {n : Nat}
    (hlen : s.srcLen ≤ s.cfg.srcCap) (hm : m.toNat = n) :
    (parseTable (s.withTr fun t => { t with origCount := count, tableN := m })).ends
      (s.ParsedOnly n) := by
  subst hm
  refine Run.ends_check fun _ => Run.ends_check fun htable => ?_
  simp only [State.withTr_tr, State.withTr_srcLen] at htable ⊢
  refine (parseEntries_ends (by rw [State.withTr_cfg]; omega)).andThen ?_
  rintro _ ⟨f, rfl, -⟩
  exact Run.ends_check fun _ => ⟨rfl, rfl⟩

/-- Where PARSE goes on, it has set TABLE_N, NSYM, RPTR and the payload's bounds from the entry count of the
input (R157, R161). -/
theorem parseBody_parsedOnly {s : State} (hlen : s.srcLen ≤ s.cfg.srcCap) :
    (parseBody s).ends (s.ParsedOnly (entryCount s.input)) := by
  by_cases hhead : headerLen ≤ s.srcLen
  · rw [parseBody_of_header hlen hhead]
    refine parseTable_parsedOnly hlen ?_
    rw [BitVec.toNat_ofNat]
    exact Nat.mod_eq_of_lt (fieldAt_lt ..)
  · rw [parseBody, if_pos (Nat.not_le.1 hhead)]
    trivial

/-- The transfer to BUILD changes PHASE alone (R97). It is stated for every n: to compare the two states at
an entry count, the kernel would evaluate it. -/
theorem State.ParsedOnly.transfer_build {s t : State} {n : Nat} (h : s.ParsedOnly n t) :
    t.transfer (some .build) = { s with
      phase := .build
      tr := { s.tr with
        origCount := t.tr.origCount, tableN := t.tr.tableN, freq := t.tr.freq, nsym := n
        payBase := 10 + 5 * n, payLen := s.srcLen - (10 + 5 * n), rptr := 10 + 5 * n } } :=
  congrArg (State.transfer (some .build)) h.frame

/-! ### A container that PARSE refuses -/

/-- A piece that never goes on raises. -/
theorem Run.eq_raised_of_meets {E : ErrorKind → Prop} {r : Run} (h : r.meets (fun _ => False) E) :
    ∃ k t, r = .raised k t ∧ E k := by
  cases r with
  | ok t => exact h.elim
  | raised k t => exact ⟨k, t, rfl, h⟩
  | stuck e => exact h.elim

/-- When the body of PARSE can only raise one error, the command fails with it, and DST is as it was
(R196). -/
theorem execParse_fails {s : State} {k : ErrorKind} (hlatch : s.cmdLatch = 2#32)
    (hbody : (parseBody s).meets (fun _ => False) (· = k)) :
    ∃ t, exec .parse s = .next t ∧ t.failedWith k ∧ t.dst = s.dst := by
  obtain ⟨_, t, hraise, rfl⟩ := Run.eq_raised_of_meets hbody
  have hframe := parseBody_onlyTr s
  rw [hraise] at hframe
  have ht : t = { s with tr := t.tr } := hframe
  have hdst : t.dst = s.dst := by rw [ht]
  exact ⟨_, State.runPhase_of_raised (phaseAfter_parse hlatch) hraise, State.failedWith_raise _ _,
    hdst⟩

/-- Settles O36: what PARSE accepts and what it raises exclude one another, so each clause leaves one way
for the body to end. -/
theorem parseAcceptsWellFormedContainers : Obligations.ParseAcceptsWellFormedContainers := by
  intro s hlatch hlen hzero
  have hfreq0 : ∀ c, s.tr.freqAt c = 0 := fun c => by simp [Transient.freqAt, hzero]
  have hbody := parseBody_meets hlen hfreq0
  refine ⟨fun hbad => ?_, fun hwf hbig => ?_, fun hwf hfits => ?_⟩
  · refine execParse_fails hlatch ((hbody.mono fun t ht => hbad ht.wellFormed).mono_error ?_)
    rintro k (⟨hk, -⟩ | ⟨-, hwf, -⟩)
    · exact hk
    · exact absurd hwf hbad
  · refine execParse_fails hlatch
      ((hbody.mono fun t ht => Nat.not_lt.2 ht.fits hbig).mono_error ?_)
    rintro k (⟨-, hbad⟩ | ⟨hk, -⟩)
    · exact absurd hwf hbad
    · exact hk
  · have hok : (parseBody s).meets s.Parsed fun _ => False := hbody.mono_error <| by
      rintro k (⟨-, hbad⟩ | ⟨-, -, hbig⟩)
      · exact hbad hwf
      · exact Nat.not_lt.2 hfits hbig
    obtain ⟨t, ht, hparsed, honly⟩ := Run.eq_ok_of_meets (hok.and_ends (parseBody_parsedOnly hlen))
    exact ⟨_, State.runPhase_of_ok (phaseAfter_parse hlatch) ht, honly.transfer_build,
      hparsed.count, honly.tableN, fun b => congrFun hparsed.freq b⟩

end Sys2Proof.Machine
end

section
/-! SUPPORT. Progress (70_reset_and_hazards.md R222): from a state that meets the invariant the
engine answers, within six steps the command is over, and a host move is refused only at or above a
capacity. -/

namespace Sys2Proof.Machine

/-! ### The engine -/

/-- Dispatch answers whatever word is latched (R92). -/
theorem engineStep_dispatches {s : State} (hb : s.busy = true) (hp : s.phase = .idle) :
    ∃ t, engineStep s = .next t := by
  have hacc : s.accepted s.cmdLatch := ⟨hb, hp, rfl⟩
  rcases dispatchInstr_cases s.cmdLatch with hw | hi | hi
  · by_cases hlong : s.cfg.srcCap < s.srcLen
    · exact ⟨_, engineStep_accepted_long hacc hw hlong⟩
    by_cases hempty : s.cmdLatch = 1#32 ∧ s.srcLen = 0
    · exact ⟨_, engineStep_accepted_empty (hempty.1 ▸ hacc) hempty.2⟩
    exact ⟨_, engineStep_accepted_starts hacc hw (Nat.not_lt.1 hlong) fun hl h0 => hempty ⟨hl, h0⟩⟩
  · exact ⟨s.cleared, by rw [engineStep_busy hb, engineInstr_of_phase, hp, hi]; rfl⟩
  · exact ⟨s.prologue.raise .illegalCommand, by
      rw [engineStep_busy hb, engineInstr_of_phase, hp, hi]; rfl⟩

theorem State.Inv.inPhase {s : State} (h : s.Inv) (hb : s.busy = true) (hp : s.phase ≠ .idle) :
    s.InPhase := ⟨hb, hp, h.path, h.phase⟩

/-- The engine never faults in a state that meets the invariant. -/
theorem State.Inv.engineStep_answers {s : State} (h : s.Inv) :
    ∃ t, Machine.engineStep s = .next t := by
  cases hb : s.busy with
  | false => exact ⟨s, engineStep_idle hb⟩
  | true =>
    by_cases hp : s.phase = .idle
    · exact engineStep_dispatches hb hp
    · obtain ⟨t, ht, -⟩ := (h.inPhase hb hp).engineStep
      exact ⟨t, ht⟩

/-- After a dispatch the command is over, or its first phase is in progress with at most five steps
left (R95, R97). -/
theorem DispatchNext.goesOn {s t : State} (h : DispatchNext s t) (hb : s.busy = true)
    (hp : s.phase = .idle) : t.goesOn 6 := by
  cases h with
  | fails => exact .inl rfl
  | clear => exact .inl rfl
  | starts hlatch hlen hne =>
    refine .inr ⟨firstPhase_inPhase ⟨hb, hp, rfl⟩ hlatch hlen hne, ?_⟩
    change stepsLeft (firstPhase s.cmdLatch) < 6
    rcases hlatch with hl | hl <;> rw [hl] <;> decide

/-- Settles O51: a dispatch leaves at most five steps, and each phase fewer than the one before. -/
theorem everyCommandEnds : Obligations.EveryCommandEnds := by
  intro s h
  cases hb : s.busy with
  | false => exact ⟨s, engineRun_idle _ hb, hb⟩
  | true =>
    by_cases hp : s.phase = .idle
    · obtain ⟨t, ht⟩ := engineStep_dispatches hb hp
      rw [maxEngineSteps, engineRun_succ 5 hb ht]
      rcases (engineStep_dispatchNext hb hp ht).goesOn hb hp with hidle | ⟨hrun, hless⟩
      · exact ⟨t, engineRun_idle 5 hidle, hidle⟩
      · exact hrun.engineRun_ends (Nat.le_of_lt_succ hless)
    · refine (h.inPhase hb hp).engineRun_ends ?_
      cases s.phase <;> decide

/-! ### The host -/

/-- The step goes on, or it is a host access refused at or above a capacity (20_memory.md R43 to
R45). -/
def Config.allows (c : Config) (r : Host.Outcome State Fault Refusal) : Prop :=
  (∃ t, r = .next t) ∨ (∃ a, r = .refused (.noSuchSrcByte a) ∧ c.srcCap ≤ a) ∨
    ∃ a, r = .refused (.noSuchDstByte a) ∧ c.dstCap ≤ a

theorem hostWriteCsr_answers (n : Nat) (v : Word) (s : State) :
    ∃ t, hostWriteCsr n v s = .next t := by
  unfold hostWriteCsr
  split
  · exact ⟨_, rfl⟩
  split
  · by_cases hv : v = 0
    · exact ⟨s, by rw [hv]; rfl⟩
    · exact ⟨_, hostWriteCmd_of_ne_zero hv s⟩
  all_goals exact ⟨_, rfl⟩

/-- A primitive answers, but for an access to a buffer at or above its capacity. -/
theorem hostOp_allowed (o : HostOp) (s : State) : Config.allows s.cfg (hostOp o s) := by
  cases o with
  | writeCsr n v => exact .inl (hostWriteCsr_answers n v s)
  | readCsr n => exact .inl ⟨_, rfl⟩
  | writeSrc a b =>
    by_cases ha : a < s.cfg.srcCap
    · left
      rw [hostOp, hostWriteSrc, if_pos ha]
      split
      · exact ⟨_, rfl⟩
      · exact ⟨_, rfl⟩
    · exact .inr (.inl ⟨a, if_neg ha, Nat.not_lt.1 ha⟩)
  | readSrc a =>
    by_cases ha : a < s.cfg.srcCap
    · exact .inl ⟨_, hostReadSrc_of_lt ha⟩
    · exact .inr (.inl ⟨a, hostReadSrc_of_le (Nat.not_lt.1 ha), Nat.not_lt.1 ha⟩)
  | readDst a =>
    by_cases ha : a < s.cfg.dstCap
    · left
      rw [hostOp, hostReadDst, if_pos ha]
      split
      · exact ⟨_, rfl⟩
      · exact ⟨_, rfl⟩
    · exact .inr (.inr ⟨a, if_neg ha, Nat.not_lt.1 ha⟩)

theorem hostStep_allowed (s : State) : Config.allows s.cfg (hostStep s) := by
  unfold hostStep
  split
  · exact .inl ⟨_, rfl⟩
  · next o rest _ => exact hostOp_allowed o { s with script := rest }
  all_goals exact .inl ⟨_, rfl⟩

/-- Settles O50: the turn that is due is the engine's, the host's or the reset's. -/
theorem noStepIsStuck : Obligations.NoStepIsStuck := by
  intro s h
  change Config.allows s.cfg (step s)
  obtain ⟨s', hs', hturn⟩ := step_cases s
  obtain ⟨hinv, hcfg⟩ : s'.Inv ∧ s'.cfg = s.cfg := by
    rcases hs' with rfl | ⟨rest, rfl⟩
    · exact ⟨h, rfl⟩
    · exact ⟨h.withHost s.script s.seen s.draws rest, rfl⟩
  rcases hturn with hengine | hhost | hreset
  · rw [hengine]
    exact .inl hinv.engineStep_answers
  · rw [hhost, ← hcfg]
    exact hostStep_allowed s'
  · exact .inl ⟨_, hreset⟩

end Sys2Proof.Machine
end

section
/-! SUPPORT. The failure epilogue and the reset turn (60_exceptions.md R186, R196,
70_reset_and_hazards.md R210). -/

namespace Sys2Proof.Machine

/-- Settles O19. -/
theorem raiseIsTheFailureEpilogue : Obligations.RaiseIsTheFailureEpilogue := fun k s =>
  ⟨State.failedWith_raise s k, rfl, s.raise_statusWord .emptyInput,
    s.raise_statusWord .malformedContainer, s.raise_statusWord .sizeMismatch,
    s.raise_statusWord .freqOverflow, s.raise_statusWord .dstOverflow,
    s.raise_statusWord .badLength, s.raise_statusWord .illegalCommand⟩

/-- STATUS is 0 after a reset turn, as it is at reset (R12, R30). -/
theorem State.resetEvent_statusWord (s : State) : s.resetEvent.statusWord = 0x00000000#32 :=
  State.reset_statusWord

/-- SRC_LEN is 0 after a reset turn, as it is at reset (R13, R30). -/
theorem State.resetEvent_srcLen (s : State) : s.resetEvent.srcLen = 0 :=
  (rfl : State.reset.srcLen = 0)

/-- Settles O6: the reset turn leaves the state of R30 but for the host's part and the epoch. -/
theorem resetEventAtAnyTime : Obligations.ResetEventAtAnyTime := fun _ _ hsched =>
  ⟨_, step_cons hsched, State.resetEvent_statusWord _, rfl, State.resetEvent_srcLen _,
    State.reset_dstLen, rfl, rfl, rfl, rfl, rfl, rfl, rfl, rfl⟩

end Sys2Proof.Machine
end

section
/-! SUPPORT. `Pack` undone (30_encoding.md R63): the bits of the packed bytes are the packed bits, and
zero bits up to the end of the last byte. -/

namespace Sys2Proof.Machine

/-- Bit i of a number written as bits, counted from the last one. -/
theorem natOfBits_testBit (bs : List Bool) (i : Nat) :
    (natOfBits bs).testBit i = bs.reverse.getD i false := by
  induction bs using List.reverseRecOn generalizing i with
  | nil => simp [natOfBits]
  | append_singleton bs b ih =>
    rw [natOfBits_snoc, List.reverse_append]
    cases i with
    | zero => cases b <;> simp
    | succ i =>
      have hhalf : (2 * natOfBits bs + b.toNat) / 2 = natOfBits bs := by
        have := Bool.toNat_lt b
        omega
      rw [Nat.testBit_succ, hhalf, ih]
      rfl

/-- Bit i of a packed byte is the bit packed there, 0 where none was (R63). -/
theorem byteOfBits_getLsbD (bs : List Bool) (i : Nat) :
    (byteOfBits bs).getLsbD (payloadBitPos i) = bs.getD (i % 8) false := by
  have hbits : byteOfBits bs =
      BitVec.ofNat 8 (natOfBits ((List.range 8).map fun j => bs.getD j false)) := by
    rw [byteOfBits, natOfBits, List.foldl_map]
  have hmod : i % 8 < 8 := Nat.mod_lt i (by decide)
  have hpos : payloadBitPos i < 8 := by unfold payloadBitPos; omega
  have hback : 7 - payloadBitPos i = i % 8 := by unfold payloadBitPos; omega
  rw [hbits, BitVec.getLsbD_ofNat, natOfBits_testBit, List.getD_eq_getElem?_getD,
    List.getElem?_reverse (by simpa using hpos)]
  simp [hpos, hback, hmod]

theorem packBits_getElem? (bits : List Bool) (j : Nat) :
    (packBits bits)[j]? =
      if j < ceil8 bits.length then some (byteOfBits ((bits.drop (8 * j)).take 8)) else none := by
  unfold packBits
  split
  · next h => simp [h]
  · next h => simp [Nat.not_lt.1 h]

theorem unpackBytes_packBits (bits : List Bool) :
    unpackBytes (packBits bits) =
      bits ++ List.replicate (8 * ceil8 bits.length - bits.length) false := by
  refine List.ext_getElem? fun i => ?_
  have hceil : bits.length ≤ 8 * ceil8 bits.length := by unfold ceil8; omega
  rw [unpackBytes_getElem?, packBits_getElem?]
  by_cases hi : i < 8 * ceil8 bits.length
  · have hsplit : 8 * (i / 8) + i % 8 = i := Nat.div_add_mod i 8
    have hmod : i % 8 < 8 := Nat.mod_lt i (by decide)
    rw [if_pos (by omega), Option.map_some, byteOfBits_getLsbD, List.getD_eq_getElem?_getD,
      List.getElem?_take_of_lt hmod, List.getElem?_drop, hsplit, List.getElem?_append]
    split
    · next h => simp [h]
    · next h => simp [Nat.not_lt.1 h, List.getElem?_replicate]; omega
  · rw [if_neg (by omega), Option.map_none]
    exact (List.getElem?_eq_none (by simp; omega)).symm

/-- The bits of the first bytes are the first bits. -/
theorem unpackBytes_take (bs : List Byte) (k : Nat) :
    unpackBytes (bs.take k) = (unpackBytes bs).take (8 * k) := by
  refine List.ext_getElem? fun i => ?_
  rw [unpackBytes_getElem?, List.getElem?_take, List.getElem?_take, unpackBytes_getElem?]
  by_cases hi : i < 8 * k
  · rw [if_pos hi, if_pos (by omega)]
  · rw [if_neg hi, if_neg (by omega)]
    rfl

end Sys2Proof.Machine
end

section
/-! SUPPORT. The decoder undoes the encoder (47_decoder.md R172, R173): the codes of a string of
symbols decode to it, and a part of them to fewer symbols. -/

namespace Sys2Proof.Machine

/-- The path to a leaf emits its symbol, and the walk goes on from the root (R172). -/
theorem HTree.emitsFrom_of_symbolAt {l r l' r' : HTree} {c : Byte} {p : List Bool}
    (h : (HTree.node l' r').symbolAt p = some c) (bits : List Bool) :
    (HTree.node l r).emitsFrom (.node l' r') (p ++ bits) =
      c :: (HTree.node l r).emitsFrom (.node l r) bits := by
  induction p generalizing l' r' with
  | nil => cases h
  | cons b p ih =>
    obtain ⟨_, _, hcons, hp⟩ := HTree.symbolAt_node.1 h
    obtain ⟨rfl, rfl⟩ := List.cons.inj hcons
    rw [List.cons_append]
    cases hchild : HTree.child l' r' b with
    | leaf d =>
      rw [hchild] at hp
      obtain ⟨rfl, rfl⟩ := HTree.symbolAt_leaf.1 hp
      exact HTree.emitsFrom_leaf hchild bits
    | node l'' r'' =>
      rw [hchild] at hp
      rw [HTree.emitsFrom_node hchild, ih hp]

/-- A path that stops before the leaf emits nothing. -/
theorem HTree.emitsFrom_take_of_symbolAt {l r l' r' : HTree} {c : Byte} {p : List Bool} {m : Nat}
    (h : (HTree.node l' r').symbolAt p = some c) (hm : m < p.length) :
    (HTree.node l r).emitsFrom (.node l' r') (p.take m) = [] := by
  induction p generalizing l' r' m with
  | nil => cases h
  | cons b p ih =>
    cases m with
    | zero => exact HTree.emitsFrom_nil _ _
    | succ m =>
      obtain ⟨_, _, hcons, hp⟩ := HTree.symbolAt_node.1 h
      obtain ⟨rfl, rfl⟩ := List.cons.inj hcons
      have hm' : m < p.length := Nat.lt_of_succ_lt_succ hm
      rw [List.take_succ_cons]
      cases hchild : HTree.child l' r' b with
      | leaf d =>
        rw [hchild] at hp
        rw [(HTree.symbolAt_leaf.1 hp).1] at hm'
        cases hm'
      | node l'' r'' =>
        rw [hchild] at hp
        rw [HTree.emitsFrom_node hchild, ih hp hm']

section
variable {T : HTree} {c : Byte} {input : List Byte}

theorem HTree.emit_code_append (hc : c ∈ T.symbols) (bits : List Bool) :
    T.emit (T.code c ++ bits) = c :: T.emit bits := by
  cases T with
  | leaf d =>
    obtain rfl := List.mem_singleton.1 hc
    rw [HTree.code, if_pos rfl]
    rfl
  | node l r => exact HTree.emitsFrom_of_symbolAt (HTree.symbolAt_code hc) bits

theorem HTree.emit_take_code (hc : c ∈ T.symbols) {m : Nat} (hm : m < (T.code c).length) :
    T.emit ((T.code c).take m) = [] := by
  cases T with
  | leaf d =>
    rw [HTree.code, if_pos (List.mem_singleton.1 hc).symm] at hm
    rw [Nat.lt_one_iff.1 hm]
    rfl
  | node l r => exact HTree.emitsFrom_take_of_symbolAt (HTree.symbolAt_code hc) hm

/-- The codes of an input decode to it, whatever bits follow (R177). -/
theorem HTree.emit_codes_append (hinput : ∀ b ∈ input, b ∈ T.symbols) (bits : List Bool) :
    T.emit (input.flatMap T.code ++ bits) = input ++ T.emit bits := by
  induction input with
  | nil => rfl
  | cons b input ih =>
    obtain ⟨hb, hrest⟩ := List.forall_mem_cons.1 hinput
    rw [List.flatMap_cons, List.append_assoc, HTree.emit_code_append hb, ih hrest, List.cons_append]

/-- The codes of an input, cut short by at least one bit, decode to fewer symbols (R178). -/
theorem HTree.emit_take_codes_length_lt (hinput : ∀ b ∈ input, b ∈ T.symbols) {m : Nat}
    (hm : m < (input.flatMap T.code).length) :
    (T.emit ((input.flatMap T.code).take m)).length < input.length := by
  induction input generalizing m with
  | nil => cases hm
  | cons b input ih =>
    obtain ⟨hb, hrest⟩ := List.forall_mem_cons.1 hinput
    rw [List.flatMap_cons] at hm ⊢
    rw [List.length_append] at hm
    rw [List.take_append, List.length_cons]
    by_cases hcode : m < (T.code b).length
    · rw [Nat.sub_eq_zero_of_le hcode.le, List.take_zero, List.append_nil,
        HTree.emit_take_code hb hcode]
      exact Nat.succ_pos _
    · rw [List.take_of_length_le (Nat.not_lt.1 hcode), HTree.emit_code_append hb, List.length_cons]
      exact Nat.succ_lt_succ (ih hrest (by omega))

end

end Sys2Proof.Machine
end

section
/-! SUPPORT. What R102 reads of a container that R101 made (30_encoding.md R61, R62): its head gives
back the length, the symbols and their frequencies, whatever payload follows. -/

namespace Sys2Proof.Machine

/-! ### Fields -/

theorem fieldAt_append {bs : List Byte} {n : Nat} (hn : bs.length = n) (cs : List Byte)
    (a k : Nat) :
    fieldAt (bs ++ cs) (n + a) k = fieldAt cs a k := by
  rw [← hn, fieldAt, ← List.drop_drop, List.drop_left, fieldAt]

/-- A field at the start that fits its bytes reads back as it was written (R65). -/
theorem fieldAt_leBytes {k v : Nat} (hv : v < 256 ^ k) (cs : List Byte) :
    fieldAt (leBytes k v ++ cs) 0 k = v := by
  rw [fieldAt, List.drop_zero, List.take_left' (leBytes_length k v), leNat_leBytes k v hv]

/-- A field inside the bytes that are left reads as before. -/
theorem fieldAt_take {cs : List Byte} {a k m : Nat} (h : a + k ≤ m) :
    fieldAt (cs.take m) a k = fieldAt cs a k := by
  rw [fieldAt, List.drop_take, List.take_take, Nat.min_eq_left (by omega), fieldAt]

/-! ### The table -/

/-- The table entries of some symbols (R62). -/
def tableBytes (f : Byte → Nat) (syms : List Byte) : List Byte :=
  syms.flatMap fun c => c :: leBytes 4 (f c)

theorem tableBytes_length (f : Byte → Nat) (syms : List Byte) :
    (tableBytes f syms).length = 5 * syms.length := by
  simp [tableBytes, List.length_flatMap, Nat.mul_comm]

/-- The entries of a table read back as they were written (R102). -/
theorem tableBytes_entries {f : Byte → Nat} (hf : ∀ c, f c < 2 ^ 32) (syms cs : List Byte) :
    ((List.range syms.length).map fun k =>
        ((tableBytes f syms ++ cs).getD (5 * k) 0,
          fieldAt (tableBytes f syms ++ cs) (5 * k + 1) 4)) =
      syms.map fun c => (c, f c) := by
  induction syms with
  | nil => rfl
  | cons c syms ih =>
    have hbytes : tableBytes f (c :: syms) ++ cs =
        (c :: leBytes 4 (f c)) ++ (tableBytes f syms ++ cs) := by
      rw [tableBytes, List.flatMap_cons, List.append_assoc]
      rfl
    have hlen : (c :: leBytes 4 (f c)).length = 5 := by simp
    have hnext : ∀ k, 5 * (k + 1) + 1 = 5 + (5 * k + 1) := by omega
    have hfreq : fieldAt ((c :: leBytes 4 (f c)) ++ (tableBytes f syms ++ cs)) 1 4 = f c :=
      (fieldAt_append (bs := [c]) rfl _ 0 4).trans (fieldAt_leBytes (hf c) _)
    rw [List.length_cons, List.range_succ_eq_map, List.map_cons, List.map_cons, List.map_map, ← ih,
      hbytes]
    refine congrArg₂ List.cons (Prod.ext rfl hfreq) (List.map_congr_left fun k _ => Prod.ext ?_ ?_)
    · simp only [Function.comp_apply, Nat.succ_eq_add_one]
      rw [List.getD_append_right _ _ _ _ (by omega), hlen, Nat.mul_succ, Nat.add_sub_cancel]
    · simp only [Function.comp_apply, Nat.succ_eq_add_one]
      rw [hnext, fieldAt_append hlen]

theorem entryFreq_map (f : Byte → Nat) (syms : List Byte) (c : Byte) :
    entryFreq (syms.map fun d => (d, f d)) c = if c ∈ syms then f c else 0 := by
  induction syms with
  | nil => rfl
  | cons d syms ih =>
    rw [List.map_cons, entryFreq_cons, ih]
    by_cases h : d = c
    · simp [h]
    · simp [h, Ne.symm h]

theorem entryFreq_presentSymbols (f : Byte → Nat) :
    entryFreq ((presentSymbols f).map fun c => (c, f c)) = f := by
  funext c
  rw [entryFreq_map]
  split
  · rfl
  · next h =>
    have hzero : f c = 0 := by simpa [presentSymbols] using h
    exact hzero.symm

theorem presentSymbols_length_le (f : Byte → Nat) : (presentSymbols f).length ≤ 256 :=
  (List.length_filter_le _ _).trans_eq allSymbols_length

/-! ### The head -/

/-- The header and the table that R101 gives an input. -/
def headOf (input : List Byte) : List Byte :=
  headBytes input.length (presentSymbols fun b => input.count b).length fun b => input.count b

theorem headOf_eq (input : List Byte) :
    headOf input = leBytes 8 input.length ++
      (leBytes 2 (presentSymbols fun b => input.count b).length ++
        tableBytes (fun b => input.count b) (presentSymbols fun b => input.count b)) :=
  List.append_assoc _ _ _

theorem presentSymbols_count_length (input : List Byte) :
    (presentSymbols fun b => input.count b).length = input.dedup.length :=
  (presentSymbols_count_perm_dedup input).length_eq

theorem headOf_length (input : List Byte) :
    (headOf input).length = 10 + 5 * input.dedup.length := by
  rw [headOf_eq, List.length_append, List.length_append, tableBytes_length, leBytes_length,
    leBytes_length, presentSymbols_count_length]
  omega

theorem containerBytes_eq_headOf (input : List Byte) (T : HTree) :
    containerBytes input T = headOf input ++ packBits (input.flatMap T.code) := rfl

section
variable {input : List Byte} (payload : List Byte)

theorem fieldAt_headOf (hlen : input.length < 2 ^ 64) :
    fieldAt (headOf input ++ payload) 0 8 = input.length := by
  rw [headOf_eq, List.append_assoc, fieldAt_leBytes hlen]

theorem entryCount_headOf : entryCount (headOf input ++ payload) = input.dedup.length := by
  have hsmall := presentSymbols_length_le fun b => input.count b
  rw [entryCount, headOf_eq, List.append_assoc, List.append_assoc]
  refine (fieldAt_append (leBytes_length 8 _) _ 0 2).trans ?_
  rw [fieldAt_leBytes (by omega), presentSymbols_count_length]

/-- The entries of the table are the counted symbols with their counts. -/
theorem entriesOf_headOf (hcount : ∀ b, input.count b < 2 ^ 32) :
    entriesOf (headOf input ++ payload) input.dedup.length =
      (presentSymbols fun b => input.count b).map fun c => (c, input.count c) := by
  rw [← tableBytes_entries hcount _ payload, presentSymbols_count_length, headOf_eq,
    ← List.append_assoc, List.append_assoc, entriesOf]
  generalize hpre : leBytes 8 input.length ++
    leBytes 2 (presentSymbols fun b => input.count b).length = pre
  have hlen : pre.length = 10 := by simp [← hpre]
  refine List.map_congr_left fun k _ => Prod.ext ?_ ?_
  · rw [List.getD_append_right _ _ _ _ (by unfold entrySymAddr; omega), hlen, entrySymAddr,
      Nat.add_sub_cancel_left]
  · have haddr : entryFreqAddr k = 10 + (5 * k + 1) := by unfold entryFreqAddr; omega
    rw [haddr, fieldAt_append hlen]

/-- A head that R101 made is one that PARSE accepts (46_parser.md R163). -/
theorem wellFormedContainer_headOf (hpos : input ≠ []) (hcount : ∀ b, input.count b < 2 ^ 32) :
    wellFormedContainer (headOf input ++ payload) := by
  have hlen := headOf_length input
  have hsome : 1 ≤ input.dedup.length :=
    List.length_pos_of_ne_nil (mt (List.dedup_eq_nil input).1 hpos)
  have hsmall := presentSymbols_length_le fun b => input.count b
  rw [presentSymbols_count_length] at hsmall
  rw [wellFormedContainer, entryCount_headOf, entriesOf_headOf payload hcount, List.length_append]
  refine ⟨by omega, ⟨hsome, hsmall⟩, by omega, fun e he => ?_, ?_⟩
  · obtain ⟨c, hc, rfl⟩ := List.mem_map.1 he
    simpa [presentSymbols] using hc
  · rw [List.map_map]
    exact (List.map_id _).symm ▸ allSymbols_nodup.filter _

end

/-- What is left of a container that is cut within its head is none that PARSE accepts (R178). -/
theorem not_wellFormedContainer_take_headOf {input : List Byte} {m : Nat}
    (hm : m < 10 + 5 * input.dedup.length) (payload : List Byte) :
    ¬ wellFormedContainer ((headOf input ++ payload).take m) := by
  rintro ⟨hten, -, htable, -⟩
  have hlen := List.length_take_le m (headOf input ++ payload)
  have hcount : entryCount ((headOf input ++ payload).take m) = input.dedup.length :=
    (fieldAt_take (by omega)).trans (entryCount_headOf payload)
  omega

end Sys2Proof.Machine
end

section
/-! SUPPORT. A command that ended well, and the payload that R101 makes: at most as many bytes as the
input (47_decoder.md R171), and under R102 exactly the input again, or less of it if it is cut
short. -/

namespace Sys2Proof.Machine

/-! ### A command that ended well -/

theorem State.holdsResult.unique {s : State} {out out' : List Byte} (h : s.holdsResult out)
    (h' : s.holdsResult out') : out = out' := by
  obtain ⟨hlen, hbytes⟩ := h
  obtain ⟨hlen', hbytes'⟩ := h'
  have hsize : out.length = out'.length := hlen.symm.trans hlen'
  refine List.ext_getElem? fun i => ?_
  by_cases hi : i < out.length
  · rw [← hbytes i hi, hbytes' i (hsize ▸ hi)]
  · rw [List.getElem?_eq_none (Nat.not_lt.1 hi), List.getElem?_eq_none (hsize ▸ Nat.not_lt.1 hi)]

/-- A COMPRESS that ended well ended with what `Compress` gives (R101). -/
theorem compressRef_of_endedWith {s t : State} {container : List Byte} (h : s.accepted 1#32)
    (hcfg : s.cfg.wf) (hrun : engineRun maxEngineSteps s = .next t) (hend : t.endedWith container) :
    compressRef s.cfg s.input = .ok container := by
  obtain ⟨t', ht', -, -, hok, herror⟩ := compressIsItsFunction s h hcfg
  cases hrun.symm.trans ht'
  obtain ⟨-, -, hfail, -, -, hresult⟩ := hend
  cases href : compressRef s.cfg s.input with
  | error k =>
    obtain ⟨-, -, hfail', -⟩ := herror k href
    rw [hfail] at hfail'
    cases hfail'
  | ok out =>
    obtain ⟨-, -, -, -, -, hresult'⟩ := hok out href
    rw [hresult.unique hresult']

/-- What `Compress` has found when it gives a container (R101). -/
structure Compressed (input : List Byte) (T : HTree) (container : List Byte) : Prop where
  nonempty : input ≠ []
  counts : ∀ b, input.count b < 2 ^ 32
  tree : buildRef (fun b => input.count b) = some T
  container : container = headOf input ++ packBits (input.flatMap T.code)

theorem compressed_of_compressRef {c : Config} {input container : List Byte}
    (h : compressRef c input = .ok container) : ∃ T, Compressed input T container := by
  rw [compressRef] at h
  split at h
  · cases h
  split at h
  · cases h
  next hpos =>
  split at h
  · cases h
  next hany =>
  split at h
  · cases h
  next T hT =>
  split at h
  · cases h
  · refine ⟨T, fun hnil => hpos (by rw [hnil]; rfl), fun b => ?_, hT,
      (Except.ok.inj h).symm.trans (containerBytes_eq_headOf input T)⟩
    by_contra hb
    exact hany (List.any_eq_true.2 ⟨b, mem_allSymbols b, decide_eq_true (by omega)⟩)

/-! ### The payload -/

theorem sum_counts (input : List Byte) :
    (allSymbols.map fun c => input.count c).sum = input.length := by
  simpa using (sum_map_eq_sum_count input fun _ => 1).symm

section
variable {input container : List Byte} {T : HTree} (h : Compressed input T container)
include h

theorem Compressed.mem_symbols {b : Byte} (hb : b ∈ input) : b ∈ T.symbols :=
  (buildRef_symbols h.tree).mem_iff.2 (by simpa [presentSymbols, List.count_eq_zero] using hb)

/-- The codes of an input spend at most 8 bits a byte (R171). -/
theorem Compressed.bits_le : (input.flatMap T.code).length ≤ 8 * input.length := by
  have hsum := buildAndGenCodeSpendAtMostEightBits _ T h.tree
  rw [sum_counts, ← sum_map_eq_sum_count input fun c => (T.code c).length] at hsum
  rwa [List.length_flatMap]

theorem Compressed.length_eq :
    container.length = 10 + 5 * input.dedup.length + ceil8 (input.flatMap T.code).length := by
  rw [h.container, List.length_append, headOf_length, packBits_length]

theorem Compressed.length_le : container.length ≤ 10 + 5 * input.dedup.length + input.length := by
  have hbits := h.bits_le
  have hlen := h.length_eq
  unfold ceil8 at hlen
  omega

/-- R102 reads the input back from its whole payload: the bit limit cuts off padding only (R177). -/
theorem Compressed.decodedBytes_eq :
    decodedBytes T (packBits (input.flatMap T.code)) input.length = input := by
  have hbits := h.bits_le
  have hlimit : (input.flatMap T.code).length ≤
      bitLimit (packBits (input.flatMap T.code)).length input.length := by
    rw [packBits_length, bitLimit]
    unfold ceil8
    omega
  rw [decodedBytes, unpackBytes_packBits, List.take_append, List.take_of_length_le hlimit,
    HTree.emit_codes_append fun b => h.mem_symbols, List.take_left]

/-- From a payload that is cut short R102 reads fewer symbols (R178). -/
theorem Compressed.decodedBytes_length_lt {m : Nat} (hm : m < ceil8 (input.flatMap T.code).length) :
    (decodedBytes T ((packBits (input.flatMap T.code)).take m) input.length).length <
      input.length := by
  have hless : 8 * m < (input.flatMap T.code).length := by unfold ceil8 at hm; omega
  rw [decodedBytes, unpackBytes_take, unpackBytes_packBits, List.take_append_of_le_length hless.le,
    List.take_take, List.length_take]
  exact (Nat.min_le_right _ _).trans_lt
    (HTree.emit_take_codes_length_lt (fun b => h.mem_symbols)
      ((Nat.min_le_right _ _).trans_lt hless))

/-- `Decompress` of the head and any payload reads the payload by the tree of the input (R102). -/
theorem Compressed.decompressRef_headOf {c : Config} {payload : List Byte}
    (hlen : input.length < 2 ^ 64) (hsrc : (headOf input ++ payload).length ≤ c.srcCap)
    (hdst : input.length ≤ c.dstCap) :
    decompressRef c (headOf input ++ payload) =
      sized input.length (decodedBytes T payload input.length) := by
  have htree : buildRef (entryFreq (entriesOf (headOf input ++ payload)
      (entryCount (headOf input ++ payload)))) = some T := by
    rw [entryCount_headOf, entriesOf_headOf payload h.counts,
      entryFreq_presentSymbols fun b => input.count b, h.tree]
  have hfield := fieldAt_headOf payload hlen
  rw [decompressRef_of_tree hsrc (wellFormedContainer_headOf payload h.nonempty h.counts)
    (hfield.trans_le hdst) htree, hfield, entryCount_headOf, ← headOf_length, List.drop_left]

end

end Sys2Proof.Machine
end

section
/-! SUPPORT. The statements about COMPRESS and DECOMPRESS together: the round trip, a container cut
short, and the size of the payload (47_decoder.md R171, R177, R178). -/

namespace Sys2Proof.Machine

/-- Settles O54: both commands are their functions, and the codes of the input decode to it. -/
theorem roundTrip : Obligations.RoundTrip := by
  intro s t u container hs hscfg hrun hend hu hucfg hin hsrc hdst
  obtain ⟨T, hcomp⟩ := compressed_of_compressRef (compressRef_of_endedWith hs hscfg hrun hend)
  rw [hcomp.container] at hin hsrc
  rw [← s.input_length] at hdst
  obtain ⟨v, hv, -, -, hok, -⟩ := decompressIsItsFunction u hu hucfg
  refine ⟨v, hv, hok s.input ?_⟩
  rw [hin, hcomp.decompressRef_headOf (s.input_length.trans_lt s.srcLen_lt) hsrc hdst,
    hcomp.decodedBytes_eq]
  exact if_pos rfl

/-- Settles O55: a cut within the payload leaves too few code bits for the input, and a cut within
the head leaves no container. -/
theorem truncationIsDetected : Obligations.TruncationIsDetected := by
  intro s t u container j hs hscfg hrun hend hj hjle hu hucfg hin hsrc hdst
  obtain ⟨T, hcomp⟩ := compressed_of_compressRef (compressRef_of_endedWith hs hscfg hrun hend)
  have hlen := hcomp.length_eq
  have hhead := headOf_length s.input
  have hcut : u.input.length ≤ u.cfg.srcCap := by
    rw [hin, List.length_take]
    omega
  rw [← s.input_length] at hdst
  obtain ⟨v, hv, -, -, -, herror⟩ := decompressIsItsFunction u hu hucfg
  refine ⟨v, hv, herror _ ?_⟩
  generalize hm : container.length - j = m at hin ⊢
  rw [hcomp.container] at hin
  by_cases hleft : 10 + 5 * s.input.dedup.length ≤ m
  · rw [List.take_append, List.take_of_length_le (by omega)] at hin
    rw [hin] at hcut
    rw [if_pos hleft, hin,
      hcomp.decompressRef_headOf (s.input_length.trans_lt s.srcLen_lt) hcut hdst]
    exact if_neg (hcomp.decodedBytes_length_lt (by omega)).ne
  · rw [if_neg hleft]
    refine decompressRef_of_malformed hcut ?_
    rw [hin]
    exact not_wellFormedContainer_take_headOf (Nat.not_le.1 hleft) _

/-- The codes that GENCODE writes for the symbols of a tree are no longer than those of R101,
whatever stood in CODE. -/
theorem generateCodes_codeLen_le {t u : Transient} {k : Nat} {T : HTree}
    (hvalid : t.treeValid = true) (h : generateCodes t = some u) (hT : t.holds k T t.root) (hnodup : T.symbols.Nodup) {c : Byte}
    (hc : c ∈ T.symbols) : (u.codeAt c).len.toNat ≤ (T.code c).length := by
  cases T with
  | leaf d =>
    obtain rfl := List.mem_singleton.1 hc
    obtain ⟨-, v, hv, hleaf, rfl⟩ := hT
    obtain rfl := Option.some.inj ((generateCodes_of_leaf hvalid hv hleaf).symm.trans h)
    rw [Transient.codeAt_setCode, if_pos rfl, HTree.code, if_pos rfl]
    exact Nat.mod_le _ _
  | node l r =>
    obtain ⟨p, hp⟩ := HTree.exists_path hc
    rw [generateCodes_codeAt hvalid h hT hnodup c, HTree.codeEntry, HTree.code, hp]
    exact Nat.mod_le _ _

/-- The codes of BUILD and GENCODE spend at most 8 bits for each counted symbol (R171). -/
theorem codeBits_le_of_buildTree {t t1 t2 : Transient} (hq : t.queueEmpty)
    (h1 : buildTree t = some t1) (h2 : generateCodes t1 = some t2) :
    t2.codeBits ≤ 8 * (t.entries.map fun e => e.2.toNat).sum := by
  have hfreq1 : t1.freq = t.freq := by rw [buildTree_onlyArena h1]
  have hfreq : t2.freq = t.freq := by rw [(generateCodes_eq_some h2).1]; exact hfreq1
  have hentries : t2.entries = t.entries := by rw [Transient.entries, hfreq, Transient.entries]
  rw [Transient.codeBits, hentries]
  by_cases hn : t.alphabetSize = 0
  · rw [List.length_eq_zero_iff.1 hn]
    exact Nat.zero_le _
  · obtain ⟨u, T, hu, hT, hholds, hvalid, -⟩ := buildTree_eq_buildRef hq (Nat.pos_of_ne_zero hn)
    obtain rfl := Option.some.inj (hu.symm.trans h1)
    have hlen : ∀ c, t.freqs c * (t2.codeAt c).len.toNat ≤ t.freqs c * (T.code c).length := by
      intro c
      by_cases hc : t.freqAt c = 0
      · simp [Transient.freqs, hc]
      · exact Nat.mul_le_mul_left _ (generateCodes_codeLen_le hvalid h2 hholds
          (buildRef_symbols_nodup hT) ((Transient.mem_buildRef_symbols hT).2 hc))
    have hsum := t.sum_entries fun _ => 1
    simp only [Nat.mul_one] at hsum
    calc _ = _ := t.sum_entries fun c => (t2.codeAt c).len.toNat
      _ ≤ _ := sum_allSymbols_le hlen
      _ ≤ _ := buildAndGenCodeSpendAtMostEightBits _ T hT
      _ = _ := by rw [hsum]; rfl

/-- Settles O58: the machine's codes are no longer than those of the reference functions, and a
container that COMPRESS makes is theirs. -/
theorem compressPayloadIsNoLongerThanTheInput :
    Obligations.CompressPayloadIsNoLongerThanTheInput := by
  refine ⟨fun _ _ _ => codeBits_le_of_buildTree, fun s t container hs hcfg hrun hend => ?_⟩
  obtain ⟨T, hcomp⟩ := compressed_of_compressRef (compressRef_of_endedWith hs hcfg hrun hend)
  rw [← s.input_length]
  exact hcomp.length_le

end Sys2Proof.Machine
end

section
/-! SUPPORT. The statement about DECODE (47_decoder.md R170 to R176): the walk over the arena is the
walk over the tree that it holds, and after the last symbol the cursor stands at the root again. -/

namespace Sys2Proof.Machine

/-! ### The walk over the arena -/

/-- The walk from an internal node emits what the walk over the held tree emits (R172). -/
theorem Transient.holds.walkFrom {t : Transient} {k i : Nat} {l r l' r' : HTree}
    (hroot : t.holds k (.node l r) t.root) (h : t.holds k (.node l' r') i) (bits : List Bool) :
    t.walkFrom i bits = (HTree.node l r).emitsFrom (.node l' r') bits := by
  induction bits generalizing i l' r' with
  | nil => rfl
  | cons b bits ih =>
    obtain ⟨-, v, hv, -, hl, hr⟩ := h
    have hchild : t.holds k (HTree.child l' r' b) (if b then v.right else v.left) := by
      cases b
      · exact hl
      · exact hr
    rw [Transient.walkFrom, hv]
    simp only
    cases hC : HTree.child l' r' b with
    | leaf c =>
      rw [hC] at hchild
      obtain ⟨-, w, hw, hleaf, rfl⟩ := hchild
      rw [hw, HTree.emitsFrom_leaf hC]
      simp only [hleaf, if_true, ih hroot]
    | node l'' r'' =>
      rw [hC] at hchild
      obtain ⟨w, hw, hleaf⟩ := hchild.inner
      rw [hw, HTree.emitsFrom_node hC]
      simp only [hleaf, Bool.false_eq_true, if_false, ih hchild]

/-- The walk over the arena emits what R102 reads by the held tree (R172, R173). -/
theorem Transient.holds.walk {t : Transient} {k : Nat} {T : HTree} (h : t.holds k T t.root)
    (bits : List Bool) : t.walk bits = T.emit bits := by
  rw [Transient.walk]
  cases T with
  | leaf c =>
    obtain ⟨-, v, hv, hleaf, rfl⟩ := h
    rw [hv]
    exact if_pos hleaf
  | node l r =>
    obtain ⟨v, hv, hleaf⟩ := h.inner
    rw [hv]
    simp only [hleaf, Bool.false_eq_true, if_false]
    exact h.walkFrom h bits

/-! ### The cursor between two symbols -/

/-- CUR is at the root, but for a walk over an internal root with symbols still to come. -/
def Transient.AtRest (t : Transient) : Prop :=
  t.cur = t.root ∨ t.rootIsLeaf = false ∧ t.emitted ≠ t.origCount.toNat

theorem emitSymbol_eq_ok {s t : State} {c : Byte} (h : emitSymbol s c = .ok t) :
    t.tr = { s.tr with wptr := s.tr.wptr + 1, emitted := s.tr.emitted + 1 } := by
  obtain ⟨u, hu, ht⟩ := Run.andThen_eq_ok.1 h
  obtain ⟨v, hv, hu⟩ := Run.andThen_eq_ok.1 hu
  obtain ⟨-, rfl⟩ := State.writeDst_eq_ok.1 hv
  cases hu
  cases ht
  rfl

/-- A step ends at the root, or it has emitted nothing (R172, R173). -/
theorem stepBit_atRest {s t : State} {b : Bool} (h : s.tr.AtRest)
    (hmore : s.tr.emitted < s.tr.origCount.toNat) (hstep : stepBit s b = .ok t) : t.tr.AtRest := by
  rw [stepBit] at hstep
  split at hstep
  · next hleaf =>
    rw [stepLeafRoot] at hstep
    split at hstep
    · cases hstep
    · refine .inl ?_
      rw [emitSymbol_eq_ok hstep]
      exact h.resolve_right fun hinner => by rw [hinner.1] at hleaf; cases hleaf
  · next hinner =>
    rw [stepWalk] at hstep
    split at hstep
    · cases hstep
    simp only at hstep
    split at hstep
    · cases hstep
    split at hstep
    · obtain ⟨u, -, ht⟩ := Run.andThen_eq_ok.1 hstep
      cases ht
      exact .inl rfl
    · cases hstep
      exact .inr ⟨Bool.eq_false_iff.2 hinner, hmore.ne⟩

theorem decodeLoop_atRest {n : Nat} {s t : State} (h : s.tr.AtRest)
    (hloop : decodeLoop n s = .ok t) : t.tr.AtRest := by
  induction n generalizing s with
  | zero => cases hloop; exact h
  | succ n ih =>
    rw [decodeLoop] at hloop
    split at hloop
    · next hmore =>
      split at hloop
      · cases hloop
      · obtain ⟨u, hu, ht⟩ := Run.andThen_eq_ok.1 hloop
        have hrest := stepBit_atRest (s := s.withTr fun t => { t with bitpos := t.bitpos + 1 })
          h hmore hu
        exact ih hrest ht
    · cases hloop; exact h

/-! ### The phase -/

/-- DECODE is the last phase of DECOMPRESS (R97). -/
theorem phaseAfter_decode {v : Word} (h : v = 2#32) :
    phaseAfter .decode (phasePath v) = some none := by rw [h]; rfl

/-- The limit that DECODE sets first stays (R170, R171). -/
theorem decodeBody_limit {s t : State} (h : decodeBody s = .ok t) :
    t.tr.limit = bitLimit t.tr.payLen t.tr.origCount.toNat := by
  have hwrites := decodeBody_writes_init s
  rw [h] at hwrites
  obtain ⟨hwrote, -⟩ := hwrites
  refine hwrote.keeps
    (P := fun t => t.tr.limit = bitLimit t.tr.payLen t.tr.origCount.toNat) ?_ rfl
  intro u v hw hu
  cases hw with
  | decodeInit => rfl
  | _ => exact hu

section
variable {s : State} (hvalid : s.tr.treeValid = true) (htree : s.tr.isTree 256 s.tr.root = true)
  (hcap : s.tr.origCount.toNat ≤ s.cfg.dstCap) (hpay : s.tr.payBase + s.tr.payLen ≤ s.cfg.srcCap)
include hvalid htree hcap hpay

/-- The loop of R170 stores the symbols of the walk from address 0 on, at most ORIG_COUNT. -/
theorem decodeLoop_stores_walk {out : List Byte}
    (hout : out = (s.tr.walk s.payloadBits).take s.tr.origCount.toNat) :
    ∃ t, decodeLoop (decodeInit s).tr.limit (decodeInit s) = .ok t ∧
      t.dst = Memory.storeAll 0 out s.dst ∧ t.tr.wptr = out.length ∧ t.tr.emitted = out.length ∧
      t.tr.origCount = s.tr.origCount := by
  obtain ⟨T, hT, -⟩ := Transient.exists_holds htree
  have hinit : (decodeInit s).emission T T (decodeInit s).tr.limit = out := by
    rw [hout, hT.walk, State.emission, HTree.emitsFrom_root, State.payloadBits,
      List.range_eq_range']
    rfl
  obtain ⟨t, ht, hdst, hwptr, hemitted, horig⟩ := Run.eq_ok_of_meets <|
    decodeLoop_emits (s := decodeInit s) (n := (decodeInit s).tr.limit)
      ⟨hvalid, hT.of_node_eq rfl, hT.of_node_eq rfl, T.walkAt_root⟩ rfl hcap
      (by change 0 + min (8 * s.tr.payLen) (8 * s.tr.origCount.toNat) ≤ 8 * s.tr.payLen; omega) hpay
  rw [hinit] at hdst hwptr
  have hlen : t.tr.wptr = out.length := hwptr.trans (Nat.zero_add _)
  exact ⟨t, ht, hdst, hlen, hemitted.trans hlen, horig⟩

end

/-- Settles O37: the count check after the loop decides which of the two epilogues follows. -/
theorem decodeWalksTheTree : Obligations.DecodeWalksTheTree := by
  intro s hlatch hvalid htree hcap hpay out hout
  obtain ⟨t, hloop, hdst, hwptr, hemitted, horig⟩ :=
    decodeLoop_stores_walk hvalid htree hcap hpay hout
  have hbody : decodeBody s =
      if t.tr.emitted ≠ t.tr.origCount.toNat then .raised .sizeMismatch t else .ok t := by
    rw [decodeBody, hloop, Run.andThen_ok]
  rw [hemitted, horig] at hbody
  have hlookup : ∀ a, t.dst.lookup a =
      if a < out.length then out[a]? else s.dst.lookup a := fun a => by
    simp [hdst, Memory.lookup_storeAll]
  have hframe := decodeBody_onlyDstTr s
  refine ⟨fun hlen => ?_, fun hlen => ?_⟩
  · rw [if_neg (not_not_intro hlen)] at hbody
    rw [hbody] at hframe
    have ht : t = { s with dst := t.dst, tr := t.tr } := hframe
    have hexec := State.runPhase_of_ok (phaseAfter_decode hlatch) hbody
    have htr : t.tr = { s.tr with
        wptr := t.tr.wptr, bitpos := t.tr.bitpos, cur := t.tr.cur, emitted := t.tr.emitted
        limit := t.tr.limit } := (State.runPhase_phaseNext hexec).writtenOnly
    have hkept : t.tr.root = s.tr.root ∧ t.tr.payLen = s.tr.payLen := by rw [htr]; exact ⟨rfl, rfl⟩
    have hcur : t.tr.cur = t.tr.root :=
      (decodeLoop_atRest (.inl rfl) hloop).resolve_right fun hopen =>
        hopen.2 (by rw [hemitted, horig, hlen])
    rw [decodeBody_limit hbody, hcur, hkept.1, hkept.2, horig, hwptr, hemitted, hlen] at htr
    rw [htr] at ht
    rw [State.transfer, hwptr] at hexec
    refine ⟨_, hexec, State.succeed_statusWord _ _,
      State.dstLen_succeed _ _ (hlen.trans_lt s.tr.origCount.isLt), ?_, hlookup⟩
    exact congrArg (State.succeed · out.length) ht
  · rw [if_pos hlen] at hbody
    rw [hbody] at hframe
    have ht : t = { s with dst := t.dst, tr := t.tr } := hframe
    refine ⟨_, State.runPhase_of_raised (phaseAfter_decode hlatch) hbody,
      State.failedWith_raise _ _, ?_, fun a ha => (hlookup a).trans (if_neg (Nat.not_lt.2 ha))⟩
    rw [State.raise_src, ht]

end Sys2Proof.Machine
end
